-- ==== Sys2Proof/Word.lean ====
section
/-! DEFINITION. The word, byte and index types of the CORE block (00_scope.md R7, R8; 10_state.md R20, R27). -/

namespace Sys2Proof

/-- A 32-bit value: a register, a system register, an address (00_scope.md R7, XLEN and ADDR_BITS). -/
abbrev Word := BitVec 32

/-- The unit of memory (20_memory.md R60). -/
abbrev Byte := BitVec 8

/-- A general-register index (10_state.md R20). -/
abbrev Reg := Fin 32

/-- A system-register number (10_state.md R27). -/
abbrev SysReg := Fin 32

/-! Register 3, the stack pointer of the list transfers, and register 30, the base pointer PREPARE writes
(10_state.md R22). -/

abbrev Reg.sp : Reg := 3
abbrev Reg.ep : Reg := 30

/-! The named entries of the system-register bank (10_state.md R27). -/

abbrev SysReg.eipc : SysReg := 0
abbrev SysReg.eipsw : SysReg := 1
abbrev SysReg.fepc : SysReg := 2
abbrev SysReg.fepsw : SysReg := 3
abbrev SysReg.ecr : SysReg := 4
abbrev SysReg.psw : SysReg := 5
abbrev SysReg.ctpc : SysReg := 16
abbrev SysReg.ctpsw : SysReg := 17
abbrev SysReg.ctbp : SysReg := 20

end Sys2Proof
end

