-- ==== Sys2Proof/Syntax/Command.lean ====
section
/-! DEFINITION. The decoded command the block receives (30_encoding.md R90, R91), its operation-select map
(R92) and the operand shapes the instructions are built from (R93, R94). -/

namespace Sys2Proof

/-- The command record, field for field and width for width (30_encoding.md R91). -/
structure Command where
  op    : BitVec 8
  rd    : BitVec 5
  rd2   : BitVec 5
  ra    : BitVec 5
  rb    : BitVec 5
  bsel  : BitVec 1
  ext   : BitVec 2
  iw    : BitVec 6
  imm   : BitVec 32
  len   : BitVec 4
  cond  : BitVec 4
  n     : BitVec 6
  code  : BitVec 5
  sr    : BitVec 5
  bit   : BitVec 3
  mask  : BitVec 18
  frame : BitVec 5
  epm   : BitVec 3
  link  : BitVec 1
  wr2   : BitVec 1
  jmp   : BitVec 1
  deriving DecidableEq, Repr, Inhabited

/-- The command whose every field is 0 (95_test_vectors.md section 3: "Unlisted command fields are 0"). -/
def Command.zero : Command where
  op := 0
  rd := 0
  rd2 := 0
  ra := 0
  rb := 0
  bsel := 0
  ext := 0
  iw := 0
  imm := 0
  len := 0
  cond := 0
  n := 0
  code := 0
  sr := 0
  bit := 0
  mask := 0
  frame := 0
  epm := 0
  link := 0
  wr2 := 0
  jmp := 0

/-- The operations of 30_encoding.md R92, in the table's order. -/
inductive Op where
  | add | addnf | sub | cmp | satadd | satsub | and | or | xor | not | tst | shl | shr | sar
  | mov | sxb | sxh | zxb | zxh
  | mul | mulu | mulh
  | div | divu | divn | divun | divh | divhu
  | ldb | ldbu | ldh | ldhu | ldw | stb | sth | stw
  | set1 | clr1 | not1 | tst1
  | bcond | jarl | jmp | callt | ctret
  | trap | reti | ldsr | stsr | brkpt
  | prepare | dispose | pushmh | popmh | pushml | popml
  deriving DecidableEq, Repr

/-- Immediate assembly (30_encoding.md R91 field `ext`): sign extension, zero extension, high half; the value 3
is reserved (R99). -/
inductive Ext where
  | sext | zext | hi16 | reserved
  deriving DecidableEq, Repr

/-- The raw immediate fields an operation that reads `ImmVal` uses (30_encoding.md R93). -/
structure Imm where
  ext : Ext
  iw  : BitVec 6
  imm : BitVec 32
  deriving DecidableEq, Repr

/-- The second operand: a register (bsel = 0) or the assembled immediate (bsel = 1) (30_encoding.md R94). -/
inductive OperandB where
  | reg (rb : Reg)
  | imm (i : Imm)
  deriving DecidableEq, Repr

/-- PREPARE's base-pointer option (30_encoding.md R91 field `epm`; 44_transfer.md R255), with the bits of `imm`
each form uses. `reserved k` is the value 5 + k, which R95 item 6 refuses. -/
inductive EpOption where
  | none
  | sp
  | simm16 (imm : BitVec 16)
  | himm16 (imm : BitVec 16)
  | imm32 (imm : BitVec 32)
  | reserved (k : Fin 3)
  deriving DecidableEq, Repr

/-- A command's `len` field: the instruction's length in bytes (30_encoding.md R91, R98). -/
abbrev Len := BitVec 4

end Sys2Proof
end

