-- ==== Sys2Proof/Config.lean ====
section
/-! DEFINITION. The parameters of 00_scope.md R7 and the free values ("draws", R12). A constant with no body is a
value the spec leaves open: nothing can be proved of it, so a claim holds for every value. -/

namespace Sys2Proof

/-- RESET_PC (R7; 70_reset_and_hazards.md R440). -/
abbrev Config.resetPc : Word := 0x00000000

/-- VEC_LO, the vector of trap codes below 16 (R7; 60_exceptions.md R403). -/
abbrev Config.vecLo : Word := 0x00000040

/-- VEC_HI, the vector of trap codes 16 and above (R7; 60_exceptions.md R403). -/
abbrev Config.vecHi : Word := 0x00000050

/-- R0_ZERO: no general register is hard-wired (R7; 10_state.md R21; 90_conflicts.md C3). -/
abbrev Config.r0Zero : Bool := false

/-- HOSTCALL_GATE: trap code 31 is the host-call gate (R7; 45_system.md R280). -/
abbrev Config.hostcallGate : Bool := true

/-- What a program ended with: a raw exit status or a signal number (45_system.md R283). -/
inductive ExitStatus where
  | status (s : Word)
  | signal (k : Word)
  deriving DecidableEq, Repr, Inhabited

/-- The selector numbers SEL_READ to SEL_EXIT, which the spec leaves OPEN (R7; 45_system.md R281, R282). -/
structure Selectors where
  read         : Word
  write        : Word
  open'        : Word
  close        : Word
  lseek        : Word
  stat         : Word
  chmod        : Word
  chown        : Word
  time         : Word
  times        : Word
  gettimeofday : Word
  utime        : Word
  fork         : Word
  execve       : Word
  exit         : Word
  deriving DecidableEq, Repr, Inhabited

/-- The OPEN parameters of R7 that are plain data. The model takes them as part of the state, and no step changes
them. DESIGN CHOICE (log 13, log 14), safe: a claim about every state is a claim for every value of them. -/
structure Params where
  /-- ADMITTED_OPS (30_encoding.md R100). -/
  admitted        : List Op
  /-- SEL_READ to SEL_EXIT (45_system.md R281). -/
  selectors       : Selectors
  /-- FETCH_SEES_STORES (20_memory.md R74). -/
  fetchSeesStores : Bool
  deriving DecidableEq, Repr

/-- The selector numbers of this hardware: OPEN (R7), no value. -/
opaque Config.selectors : Selectors

/-- FETCH_SEES_STORES of this hardware: OPEN (R7), no value. -/
opaque Config.fetchSeesStores : Bool

/-- EXIT_DECODE on a non-zero argument: OPEN (45_system.md R283), no value. -/
opaque Config.exitDecodeOpen : Word → ExitStatus

/-! The draws of R12. Each is applied to the state's draw counter, so that every draw is fresh, and to the whole
state, so that no independence from it can be proved (log 11, log 12). -/

/-- SHIFT0_CY: CY after a shift by zero (41_alu.md R155). -/
opaque Config.shiftZeroCarry {σ : Type} (n : Nat) (s : σ) : Bool

/-- div_q: the quotient stored on divide overflow (43_divide.md R223). -/
opaque Config.divQuotient {σ : Type} (n : Nat) (s : σ) : Word

/-- div_r: the remainder stored on divide overflow (43_divide.md R223). -/
opaque Config.divRemainder {σ : Type} (n : Nat) (s : σ) : Word

/-- host_ret: the host's return value (45_system.md R281). -/
opaque Config.hostReturn {σ : Type} (n : Nat) (s : σ) : Word

/-- host_err: the host's error code (45_system.md R281). -/
opaque Config.hostError {σ : Type} (n : Nat) (s : σ) : Word

/-- The bytes the host writes during a call, in the order it writes them (20_memory.md R76). -/
opaque Config.hostWrites {σ : Type} (n : Nat) (s : σ) : List (Word × Byte)

/-- The command the external decoder makes of the eight bytes at an address (20_memory.md R74; 30_encoding.md R101): the
decoder is outside the block, so any command (log 4). -/
opaque Config.externalDecode (a : Word) (bytes : List Byte) : Command

/-- EXIT_DECODE (45_system.md R283; log 15): open but for `EXIT_DECODE(0) = Status(0)`. -/
def Config.exitDecode (a : Word) : ExitStatus :=
  if a = 0 then .status 0 else Config.exitDecodeOpen a

end Sys2Proof
end

