-- ==== Sys2Proof/Syntax.lean ====
section
/-! DEFINITION. The instructions of the block: one constructor per row of spec/opcode_table.json (30_encoding.md
R92), each with the fields its row uses. A field an operation does not use is not part of it (R91). -/

namespace Sys2Proof

/-- An instruction of the block. `rem` is DIV's second destination, present when `wr2 = 1`; `link` is JARL's link
register, present when `link = 1`; `jmp` is DISPOSE's jump register, present when `jmp = 1`; BCOND uses bits 8:0 of
`imm` and CALLT bits 5:0. -/
inductive Instr where
  /-- ADD (R160). -/
  | add (rd : Reg) (ra : Reg) (b : OperandB) (len : Len)
  /-- ADDNF (R161). -/
  | addnf (rd : Reg) (ra : Reg) (b : OperandB) (len : Len)
  /-- SUB (R162). -/
  | sub (rd : Reg) (ra : Reg) (b : OperandB) (len : Len)
  /-- CMP (R163). -/
  | cmp (ra : Reg) (b : OperandB) (len : Len)
  /-- SATADD (R164). -/
  | satadd (rd : Reg) (ra : Reg) (b : OperandB) (len : Len)
  /-- SATSUB (R165). -/
  | satsub (rd : Reg) (ra : Reg) (b : OperandB) (len : Len)
  /-- AND (R166). -/
  | and (rd : Reg) (ra : Reg) (b : OperandB) (len : Len)
  /-- OR (R167). -/
  | or (rd : Reg) (ra : Reg) (b : OperandB) (len : Len)
  /-- XOR (R168). -/
  | xor (rd : Reg) (ra : Reg) (b : OperandB) (len : Len)
  /-- NOT (R169). -/
  | not (rd : Reg) (b : OperandB) (len : Len)
  /-- TST (R170). -/
  | tst (ra : Reg) (b : OperandB) (len : Len)
  /-- SHL (R171). -/
  | shl (rd : Reg) (ra : Reg) (b : OperandB) (len : Len)
  /-- SHR (R172). -/
  | shr (rd : Reg) (ra : Reg) (b : OperandB) (len : Len)
  /-- SAR (R173). -/
  | sar (rd : Reg) (ra : Reg) (b : OperandB) (len : Len)
  /-- MOV (R174). -/
  | mov (rd : Reg) (b : OperandB) (len : Len)
  /-- SXB (R175). -/
  | sxb (rd : Reg) (b : OperandB) (len : Len)
  /-- SXH (R176). -/
  | sxh (rd : Reg) (b : OperandB) (len : Len)
  /-- ZXB (R177). -/
  | zxb (rd : Reg) (b : OperandB) (len : Len)
  /-- ZXH (R178). -/
  | zxh (rd : Reg) (b : OperandB) (len : Len)
  /-- MUL (R203). -/
  | mul (rd : Reg) (rd2 : Reg) (ra : Reg) (b : OperandB) (len : Len)
  /-- MULU (R204). -/
  | mulu (rd : Reg) (rd2 : Reg) (ra : Reg) (b : OperandB) (len : Len)
  /-- MULH (R205). -/
  | mulh (rd : Reg) (ra : Reg) (b : OperandB) (len : Len)
  /-- DIV (R228). -/
  | div (rd : Reg) (rem : Option Reg) (ra : Reg) (b : OperandB) (len : Len)
  /-- DIVU (R229). -/
  | divu (rd : Reg) (rem : Option Reg) (ra : Reg) (b : OperandB) (len : Len)
  /-- DIVN (R230). -/
  | divn (rd : Reg) (rem : Option Reg) (ra : Reg) (b : OperandB) (n : BitVec 6) (len : Len)
  /-- DIVUN (R231). -/
  | divun (rd : Reg) (rem : Option Reg) (ra : Reg) (b : OperandB) (n : BitVec 6) (len : Len)
  /-- DIVH (R232). -/
  | divh (rd : Reg) (rem : Option Reg) (ra : Reg) (b : OperandB) (len : Len)
  /-- DIVHU (R233). -/
  | divhu (rd : Reg) (rem : Option Reg) (ra : Reg) (b : OperandB) (len : Len)
  /-- LDB (R321). -/
  | ldb (rd : Reg) (ra : Reg) (disp : Imm) (len : Len)
  /-- LDBU (R322). -/
  | ldbu (rd : Reg) (ra : Reg) (disp : Imm) (len : Len)
  /-- LDH (R323). -/
  | ldh (rd : Reg) (ra : Reg) (disp : Imm) (len : Len)
  /-- LDHU (R324). -/
  | ldhu (rd : Reg) (ra : Reg) (disp : Imm) (len : Len)
  /-- LDW (R325). -/
  | ldw (rd : Reg) (ra : Reg) (disp : Imm) (len : Len)
  /-- STB (R326). -/
  | stb (ra : Reg) (rb : Reg) (disp : Imm) (len : Len)
  /-- STH (R327). -/
  | sth (ra : Reg) (rb : Reg) (disp : Imm) (len : Len)
  /-- STW (R328). -/
  | stw (ra : Reg) (rb : Reg) (disp : Imm) (len : Len)
  /-- SET1 (R330). -/
  | set1 (ra : Reg) (bit : Fin 8) (disp : Imm) (len : Len)
  /-- CLR1 (R331). -/
  | clr1 (ra : Reg) (bit : Fin 8) (disp : Imm) (len : Len)
  /-- NOT1 (R332). -/
  | not1 (ra : Reg) (bit : Fin 8) (disp : Imm) (len : Len)
  /-- TST1 (R333). -/
  | tst1 (ra : Reg) (bit : Fin 8) (disp : Imm) (len : Len)
  /-- BCOND (R300). -/
  | bcond (cond : BitVec 4) (disp : BitVec 9) (len : Len)
  /-- JARL (R301). -/
  | jarl (link : Option Reg) (disp : Imm) (len : Len)
  /-- JMP (R302). -/
  | jmp (ra : Reg) (len : Len)
  /-- CALLT (R303). -/
  | callt (index : BitVec 6) (len : Len)
  /-- CTRET (R304). -/
  | ctret (len : Len)
  /-- TRAP (R280). -/
  | trap (code : BitVec 5) (len : Len)
  /-- RETI (R285). -/
  | reti (len : Len)
  /-- LDSR (R286). -/
  | ldsr (ra : Reg) (sr : SysReg) (len : Len)
  /-- STSR (R287). -/
  | stsr (rd : Reg) (sr : SysReg) (len : Len)
  /-- BRKPT (R288). -/
  | brkpt
  /-- PREPARE (R255). -/
  | prepare (mask : BitVec 18) (frame : BitVec 5) (ep : EpOption) (len : Len)
  /-- DISPOSE (R256). -/
  | dispose (mask : BitVec 18) (frame : BitVec 5) (jmp : Option Reg) (len : Len)
  /-- PUSHMH (R257). -/
  | pushmh (mask : BitVec 18) (len : Len)
  /-- POPMH (R258). -/
  | popmh (mask : BitVec 18) (len : Len)
  /-- PUSHML (R259). -/
  | pushml (mask : BitVec 18) (len : Len)
  /-- POPML (R260). -/
  | popml (mask : BitVec 18) (len : Len)
  deriving DecidableEq, Repr

end Sys2Proof
end

