-- ==== Sys2Proof/WellFormed.lean ====
section
/-! DEFINITION. Well-formedness of an instruction (30_encoding.md R95, items 2 to 7). Item 1, ADMITTED_OPS, is a
parameter and is checked where a command is accepted (Machine/Fetch.lean). -/

namespace Sys2Proof

/-- R95 item 2: the length is 2, 4, 6 or 8 bytes. -/
def Len.wf (l : Len) : Bool := l == 2 || l == 4 || l == 6 || l == 8

/-- R95 items 3 and 4: a width field is in 1..32. -/
def widthWf (n : BitVec 6) : Bool := 1 ≤ n.toNat && n.toNat ≤ 32

/-- R95 item 3: an immediate that is read has an assigned `ext` and a width in 1..32. DEDUCED (log 17), safe: the
width is checked for HI16 as well, by the letter of the rule. -/
def Imm.wf (i : Imm) : Bool := i.ext != .reserved && widthWf i.iw

/-- R95 item 3: only an immediate second operand is constrained. -/
def OperandB.wf : OperandB → Bool
  | .reg _ => true
  | .imm i => i.wf

/-- R95 item 5 for Table A: mask bits 17:12 are 0. -/
def maskWfA (m : BitVec 18) : Bool := m.extractLsb' 12 6 == 0

/-- R95 item 5 for Table C: mask bit 17 is 0. -/
def maskWfC (m : BitVec 18) : Bool := m.extractLsb' 17 1 == 0

/-- R95 item 6: the base-pointer option is assigned and fixes the length. -/
def EpOption.wfLen : EpOption → Len → Bool
  | .none, l | .sp, l => l == 4
  | .simm16 _, l | .himm16 _, l => l == 6
  | .imm32 _, l => l == 8
  | .reserved _, _ => false

/-- R95 items 2 to 7. BRKPT uses no field, so its `len` is not looked at. DEDUCED (log 16), unsafe. -/
def Instr.wf : Instr → Bool
  | .add _ _ b len | .addnf _ _ b len | .sub _ _ b len | .satadd _ _ b len | .satsub _ _ b len
  | .and _ _ b len | .or _ _ b len | .xor _ _ b len | .shl _ _ b len | .shr _ _ b len
  | .sar _ _ b len | .mulh _ _ b len => len.wf && b.wf
  | .cmp _ b len | .not _ b len | .tst _ b len | .mov _ b len | .sxb _ b len | .sxh _ b len
  | .zxb _ b len | .zxh _ b len => len.wf && b.wf
  | .mul _ _ _ b len | .mulu _ _ _ b len => len.wf && b.wf
  | .div _ _ _ b len | .divu _ _ _ b len | .divh _ _ _ b len | .divhu _ _ _ b len => len.wf && b.wf
  | .divn _ _ _ b n len | .divun _ _ _ b n len => len.wf && b.wf && widthWf n
  | .ldb _ _ d len | .ldbu _ _ d len | .ldh _ _ d len | .ldhu _ _ d len | .ldw _ _ d len
  | .stb _ _ d len | .sth _ _ d len | .stw _ _ d len
  | .set1 _ _ d len | .clr1 _ _ d len | .not1 _ _ d len | .tst1 _ _ d len => len.wf && d.wf
  | .bcond _ _ len => len == 2
  | .jarl _ d len => len.wf && d.wf
  | .jmp _ len | .callt _ len | .ctret len => len.wf
  | .trap _ len => len == 4
  | .reti len | .ldsr _ _ len | .stsr _ _ len => len.wf
  | .brkpt => true
  | .prepare m _ ep len => maskWfA m && ep.wfLen len
  | .dispose m _ _ len => len.wf && maskWfA m
  | .pushmh _ len | .popmh _ len => len.wf
  | .pushml m len | .popml m len => len.wf && maskWfC m

end Sys2Proof
end

