-- ==== Sys2Proof/Decode.lean ====
section
/-! DEFINITION. The decoder of the block's command record and its encoder (30_encoding.md R91, R92, R99), and the
record's packing into bits and bytes. R91 gives the record's fields and widths; the table fixes only that the op
field is bits 7:0. The packing puts the other fields above it in R91's order, 125 bits in 16 bytes, the least
significant byte first. DESIGN CHOICE (log 1), safe. -/

namespace Sys2Proof

/-- The op field of each operation (30_encoding.md R92). -/
def Op.code : Op → BitVec 8
  | .add => 0x01
  | .addnf => 0x02
  | .sub => 0x03
  | .cmp => 0x04
  | .satadd => 0x05
  | .satsub => 0x06
  | .and => 0x07
  | .or => 0x08
  | .xor => 0x09
  | .not => 0x0A
  | .tst => 0x0B
  | .shl => 0x0C
  | .shr => 0x0D
  | .sar => 0x0E
  | .mov => 0x0F
  | .sxb => 0x10
  | .sxh => 0x11
  | .zxb => 0x12
  | .zxh => 0x13
  | .mul => 0x20
  | .mulu => 0x21
  | .mulh => 0x22
  | .div => 0x28
  | .divu => 0x29
  | .divn => 0x2A
  | .divun => 0x2B
  | .divh => 0x2C
  | .divhu => 0x2D
  | .ldb => 0x30
  | .ldbu => 0x31
  | .ldh => 0x32
  | .ldhu => 0x33
  | .ldw => 0x34
  | .stb => 0x38
  | .sth => 0x39
  | .stw => 0x3A
  | .set1 => 0x40
  | .clr1 => 0x41
  | .not1 => 0x42
  | .tst1 => 0x43
  | .bcond => 0x50
  | .jarl => 0x51
  | .jmp => 0x52
  | .callt => 0x53
  | .ctret => 0x54
  | .trap => 0x60
  | .reti => 0x61
  | .ldsr => 0x62
  | .stsr => 0x63
  | .brkpt => 0x64
  | .prepare => 0x70
  | .dispose => 0x71
  | .pushmh => 0x72
  | .popmh => 0x73
  | .pushml => 0x74
  | .popml => 0x75

/-- Every operation of 30_encoding.md R92, in the table's order. -/
def Op.all : List Op :=
  [.add, .addnf, .sub, .cmp, .satadd, .satsub, .and, .or, .xor, .not, .tst, .shl, .shr, .sar] ++
  [.mov, .sxb, .sxh, .zxb, .zxh, .mul, .mulu, .mulh, .div, .divu, .divn, .divun, .divh, .divhu] ++
  [.ldb, .ldbu, .ldh, .ldhu, .ldw, .stb, .sth, .stw, .set1, .clr1, .not1, .tst1, .bcond, .jarl] ++
  [.jmp, .callt, .ctret, .trap, .reti, .ldsr, .stsr, .brkpt, .prepare, .dispose, .pushmh, .popmh, .pushml, .popml]

/-- The operation of an op field, or none for a reserved value (30_encoding.md R92, R99). -/
def Op.ofCode (c : BitVec 8) : Option Op := Op.all.find? fun o => o.code == c

/-- Why a bit pattern is no command of the block. -/
inductive Reject where
  /-- fewer than 16 bytes are left -/
  | truncated
  /-- a bit above the record's 125 is set (log 2) -/
  | padding
  /-- the op field is reserved (30_encoding.md R99) -/
  | reservedOp (op : BitVec 8)
  deriving DecidableEq, Repr

/-! ## Fields -/

/-- A 5-bit register field as an index. -/
def regOf (x : BitVec 5) : Fin 32 := x.toFin

/-- A register index as its 5-bit field. -/
def bitsOf (r : Fin 32) : BitVec 5 := BitVec.ofFin r

/-- A 3-bit bit-number field. -/
def bitOf (x : BitVec 3) : Fin 8 := x.toFin

/-- A bit number as its 3-bit field. -/
def bitBits (b : Fin 8) : BitVec 3 := BitVec.ofFin b

/-- A register field that counts only when its flag field is 1 (`link`, `wr2`, `jmp`). -/
def optReg (flag : BitVec 1) (x : BitVec 5) : Option Reg := if flag = 1 then some (regOf x) else none

/-- The flag field of an optional register. -/
def optFlag (r : Option Reg) : BitVec 1 := if r.isSome then 1 else 0

/-- The register field of an optional register, 0 where it is absent. -/
def optBits : Option Reg → BitVec 5
  | some r => bitsOf r
  | none => 0

/-- Field `ext` (30_encoding.md R91). -/
def Ext.ofBits (x : BitVec 2) : Ext :=
  if x = 0 then .sext else if x = 1 then .zext else if x = 2 then .hi16 else .reserved

/-- The bits of field `ext`. -/
def Ext.toBits : Ext → BitVec 2
  | .sext => 0
  | .zext => 1
  | .hi16 => 2
  | .reserved => 3

/-- The immediate fields `ext`, `iw` and `imm`. -/
def immOf (c : Command) : Imm := ⟨Ext.ofBits c.ext, c.iw, c.imm⟩

/-- The second operand, by `bsel` (30_encoding.md R94). -/
def operandOf (c : Command) : OperandB := if c.bsel = 1 then .imm (immOf c) else .reg (regOf c.rb)

/-- PREPARE's base-pointer option, by `epm` (30_encoding.md R91). -/
def epOf (c : Command) : EpOption :=
  if c.epm = 0 then .none
  else if c.epm = 1 then .sp
  else if c.epm = 2 then .simm16 (c.imm.extractLsb' 0 16)
  else if c.epm = 3 then .himm16 (c.imm.extractLsb' 0 16)
  else if c.epm = 4 then .imm32 c.imm
  else if c.epm = 5 then .reserved 0
  else if c.epm = 6 then .reserved 1
  else .reserved 2

/-! ## The decoder -/

/-- The instruction an operation makes of the fields it uses (30_encoding.md R92, last column). -/
def decodeOp (o : Op) (c : Command) : Instr :=
  match o with
  | .add => .add (regOf c.rd) (regOf c.ra) (operandOf c) c.len
  | .addnf => .addnf (regOf c.rd) (regOf c.ra) (operandOf c) c.len
  | .sub => .sub (regOf c.rd) (regOf c.ra) (operandOf c) c.len
  | .cmp => .cmp (regOf c.ra) (operandOf c) c.len
  | .satadd => .satadd (regOf c.rd) (regOf c.ra) (operandOf c) c.len
  | .satsub => .satsub (regOf c.rd) (regOf c.ra) (operandOf c) c.len
  | .and => .and (regOf c.rd) (regOf c.ra) (operandOf c) c.len
  | .or => .or (regOf c.rd) (regOf c.ra) (operandOf c) c.len
  | .xor => .xor (regOf c.rd) (regOf c.ra) (operandOf c) c.len
  | .not => .not (regOf c.rd) (operandOf c) c.len
  | .tst => .tst (regOf c.ra) (operandOf c) c.len
  | .shl => .shl (regOf c.rd) (regOf c.ra) (operandOf c) c.len
  | .shr => .shr (regOf c.rd) (regOf c.ra) (operandOf c) c.len
  | .sar => .sar (regOf c.rd) (regOf c.ra) (operandOf c) c.len
  | .mov => .mov (regOf c.rd) (operandOf c) c.len
  | .sxb => .sxb (regOf c.rd) (operandOf c) c.len
  | .sxh => .sxh (regOf c.rd) (operandOf c) c.len
  | .zxb => .zxb (regOf c.rd) (operandOf c) c.len
  | .zxh => .zxh (regOf c.rd) (operandOf c) c.len
  | .mul => .mul (regOf c.rd) (regOf c.rd2) (regOf c.ra) (operandOf c) c.len
  | .mulu => .mulu (regOf c.rd) (regOf c.rd2) (regOf c.ra) (operandOf c) c.len
  | .mulh => .mulh (regOf c.rd) (regOf c.ra) (operandOf c) c.len
  | .div => .div (regOf c.rd) (optReg c.wr2 c.rd2) (regOf c.ra) (operandOf c) c.len
  | .divu => .divu (regOf c.rd) (optReg c.wr2 c.rd2) (regOf c.ra) (operandOf c) c.len
  | .divn => .divn (regOf c.rd) (optReg c.wr2 c.rd2) (regOf c.ra) (operandOf c) c.n c.len
  | .divun => .divun (regOf c.rd) (optReg c.wr2 c.rd2) (regOf c.ra) (operandOf c) c.n c.len
  | .divh => .divh (regOf c.rd) (optReg c.wr2 c.rd2) (regOf c.ra) (operandOf c) c.len
  | .divhu => .divhu (regOf c.rd) (optReg c.wr2 c.rd2) (regOf c.ra) (operandOf c) c.len
  | .ldb => .ldb (regOf c.rd) (regOf c.ra) (immOf c) c.len
  | .ldbu => .ldbu (regOf c.rd) (regOf c.ra) (immOf c) c.len
  | .ldh => .ldh (regOf c.rd) (regOf c.ra) (immOf c) c.len
  | .ldhu => .ldhu (regOf c.rd) (regOf c.ra) (immOf c) c.len
  | .ldw => .ldw (regOf c.rd) (regOf c.ra) (immOf c) c.len
  | .stb => .stb (regOf c.ra) (regOf c.rb) (immOf c) c.len
  | .sth => .sth (regOf c.ra) (regOf c.rb) (immOf c) c.len
  | .stw => .stw (regOf c.ra) (regOf c.rb) (immOf c) c.len
  | .set1 => .set1 (regOf c.ra) (bitOf c.bit) (immOf c) c.len
  | .clr1 => .clr1 (regOf c.ra) (bitOf c.bit) (immOf c) c.len
  | .not1 => .not1 (regOf c.ra) (bitOf c.bit) (immOf c) c.len
  | .tst1 => .tst1 (regOf c.ra) (bitOf c.bit) (immOf c) c.len
  | .bcond => .bcond c.cond (c.imm.extractLsb' 0 9) c.len
  | .jarl => .jarl (optReg c.link c.rd) (immOf c) c.len
  | .jmp => .jmp (regOf c.ra) c.len
  | .callt => .callt (c.imm.extractLsb' 0 6) c.len
  | .ctret => .ctret c.len
  | .trap => .trap c.code c.len
  | .reti => .reti c.len
  | .ldsr => .ldsr (regOf c.ra) (regOf c.sr) c.len
  | .stsr => .stsr (regOf c.rd) (regOf c.sr) c.len
  | .brkpt => .brkpt 
  | .prepare => .prepare c.mask c.frame (epOf c) c.len
  | .dispose => .dispose c.mask c.frame (optReg c.jmp c.ra) c.len
  | .pushmh => .pushmh c.mask c.len
  | .popmh => .popmh c.mask c.len
  | .pushml => .pushml c.mask c.len
  | .popml => .popml c.mask c.len

/-- The decoder of a command record: total, refusing a reserved op field by name (30_encoding.md R92, R99). -/
def decode (c : Command) : Except Reject Instr :=
  match Op.ofCode c.op with
  | some o => .ok (decodeOp o c)
  | none => .error (.reservedOp c.op)

/-- The fields of a record packed in 128 bits. -/
def Command.ofBits (w : BitVec 128) : Command where
  op := w.extractLsb' 0 8
  rd := w.extractLsb' 8 5
  rd2 := w.extractLsb' 13 5
  ra := w.extractLsb' 18 5
  rb := w.extractLsb' 23 5
  bsel := w.extractLsb' 28 1
  ext := w.extractLsb' 29 2
  iw := w.extractLsb' 31 6
  imm := w.extractLsb' 37 32
  len := w.extractLsb' 69 4
  cond := w.extractLsb' 73 4
  n := w.extractLsb' 77 6
  code := w.extractLsb' 83 5
  sr := w.extractLsb' 88 5
  bit := w.extractLsb' 93 3
  mask := w.extractLsb' 96 18
  frame := w.extractLsb' 114 5
  epm := w.extractLsb' 119 3
  link := w.extractLsb' 122 1
  wr2 := w.extractLsb' 123 1
  jmp := w.extractLsb' 124 1

/-- A little-endian number. -/
def littleEndian : List Byte → Nat
  | [] => 0
  | b :: bs => b.toNat + 256 * littleEndian bs

/-- The `n` low bytes of a number, the least significant first. -/
def bytesOf : Nat → Nat → List Byte
  | 0, _ => []
  | n + 1, v => BitVec.ofNat 8 v :: bytesOf n (v / 256)

/-- The decoder of a packed record: the instruction and the bytes after it. -/
def decodeBytes (bs : List Byte) : Except Reject (Instr × List Byte) :=
  if bs.length < 16 then .error .truncated
  else
    let w := BitVec.ofNat 128 (littleEndian (bs.take 16))
    if w.extractLsb' 125 3 ≠ 0 then .error .padding
    else
      match decode (Command.ofBits w) with
      | .ok i => .ok (i, bs.drop 16)
      | .error e => .error e

/-- The 128 bits of the instruction whose bits are `w`, those above `nbits` zero. -/
def tableBits (nbits w : Nat) : BitVec 128 := BitVec.ofNat 128 (w % 2 ^ nbits)

/-- The instruction the decoder reads from the record whose bits are `w`, every bit above `nbits` zero. -/
def decodeTableWord (nbits w : Nat) : Option Instr :=
  match decodeBytes (bytesOf 16 (tableBits nbits w).toNat) with
  | .ok (i, _) => some i
  | .error _ => none

/-! ## The encoder -/

/-- The operation of an instruction. -/
def Instr.op : Instr → Op
  | .add _ _ _ _ => .add
  | .addnf _ _ _ _ => .addnf
  | .sub _ _ _ _ => .sub
  | .cmp _ _ _ => .cmp
  | .satadd _ _ _ _ => .satadd
  | .satsub _ _ _ _ => .satsub
  | .and _ _ _ _ => .and
  | .or _ _ _ _ => .or
  | .xor _ _ _ _ => .xor
  | .not _ _ _ => .not
  | .tst _ _ _ => .tst
  | .shl _ _ _ _ => .shl
  | .shr _ _ _ _ => .shr
  | .sar _ _ _ _ => .sar
  | .mov _ _ _ => .mov
  | .sxb _ _ _ => .sxb
  | .sxh _ _ _ => .sxh
  | .zxb _ _ _ => .zxb
  | .zxh _ _ _ => .zxh
  | .mul _ _ _ _ _ => .mul
  | .mulu _ _ _ _ _ => .mulu
  | .mulh _ _ _ _ => .mulh
  | .div _ _ _ _ _ => .div
  | .divu _ _ _ _ _ => .divu
  | .divn _ _ _ _ _ _ => .divn
  | .divun _ _ _ _ _ _ => .divun
  | .divh _ _ _ _ _ => .divh
  | .divhu _ _ _ _ _ => .divhu
  | .ldb _ _ _ _ => .ldb
  | .ldbu _ _ _ _ => .ldbu
  | .ldh _ _ _ _ => .ldh
  | .ldhu _ _ _ _ => .ldhu
  | .ldw _ _ _ _ => .ldw
  | .stb _ _ _ _ => .stb
  | .sth _ _ _ _ => .sth
  | .stw _ _ _ _ => .stw
  | .set1 _ _ _ _ => .set1
  | .clr1 _ _ _ _ => .clr1
  | .not1 _ _ _ _ => .not1
  | .tst1 _ _ _ _ => .tst1
  | .bcond _ _ _ => .bcond
  | .jarl _ _ _ => .jarl
  | .jmp _ _ => .jmp
  | .callt _ _ => .callt
  | .ctret _ => .ctret
  | .trap _ _ => .trap
  | .reti _ => .reti
  | .ldsr _ _ _ => .ldsr
  | .stsr _ _ _ => .stsr
  | .brkpt => .brkpt
  | .prepare _ _ _ _ => .prepare
  | .dispose _ _ _ _ => .dispose
  | .pushmh _ _ => .pushmh
  | .popmh _ _ => .popmh
  | .pushml _ _ => .pushml
  | .popml _ _ => .popml

/-- A record with its op field alone. -/
def Op.blank (o : Op) : Command := { Command.zero with op := o.code }

/-- The record `c` with an immediate's fields. -/
def withImm (i : Imm) (c : Command) : Command := { c with ext := i.ext.toBits, iw := i.iw, imm := i.imm }

/-- The record `c` with a second operand's fields. -/
def withOperand (b : OperandB) (c : Command) : Command :=
  match b with
  | .reg rb => { c with bsel := 0, rb := bitsOf rb }
  | .imm i => withImm i { c with bsel := 1 }

/-- The record `c` with a base-pointer option's fields. -/
def withEp (e : EpOption) (c : Command) : Command :=
  match e with
  | .none => { c with epm := 0 }
  | .sp => { c with epm := 1 }
  | .simm16 v => { c with epm := 2, imm := v.setWidth 32 }
  | .himm16 v => { c with epm := 3, imm := v.setWidth 32 }
  | .imm32 v => { c with epm := 4, imm := v }
  | .reserved k => { c with epm := BitVec.ofNat 3 (5 + k.val) }

/-- The record of an instruction, the fields its operation does not use 0. -/
def encode (i : Instr) : Command :=
  match i with
  | .add rd ra b len => { (withOperand b Op.add.blank) with rd := bitsOf rd, ra := bitsOf ra, len := len }
  | .addnf rd ra b len => { (withOperand b Op.addnf.blank) with rd := bitsOf rd, ra := bitsOf ra, len := len }
  | .sub rd ra b len => { (withOperand b Op.sub.blank) with rd := bitsOf rd, ra := bitsOf ra, len := len }
  | .cmp ra b len => { (withOperand b Op.cmp.blank) with ra := bitsOf ra, len := len }
  | .satadd rd ra b len => { (withOperand b Op.satadd.blank) with rd := bitsOf rd, ra := bitsOf ra, len := len }
  | .satsub rd ra b len => { (withOperand b Op.satsub.blank) with rd := bitsOf rd, ra := bitsOf ra, len := len }
  | .and rd ra b len => { (withOperand b Op.and.blank) with rd := bitsOf rd, ra := bitsOf ra, len := len }
  | .or rd ra b len => { (withOperand b Op.or.blank) with rd := bitsOf rd, ra := bitsOf ra, len := len }
  | .xor rd ra b len => { (withOperand b Op.xor.blank) with rd := bitsOf rd, ra := bitsOf ra, len := len }
  | .not rd b len => { (withOperand b Op.not.blank) with rd := bitsOf rd, len := len }
  | .tst ra b len => { (withOperand b Op.tst.blank) with ra := bitsOf ra, len := len }
  | .shl rd ra b len => { (withOperand b Op.shl.blank) with rd := bitsOf rd, ra := bitsOf ra, len := len }
  | .shr rd ra b len => { (withOperand b Op.shr.blank) with rd := bitsOf rd, ra := bitsOf ra, len := len }
  | .sar rd ra b len => { (withOperand b Op.sar.blank) with rd := bitsOf rd, ra := bitsOf ra, len := len }
  | .mov rd b len => { (withOperand b Op.mov.blank) with rd := bitsOf rd, len := len }
  | .sxb rd b len => { (withOperand b Op.sxb.blank) with rd := bitsOf rd, len := len }
  | .sxh rd b len => { (withOperand b Op.sxh.blank) with rd := bitsOf rd, len := len }
  | .zxb rd b len => { (withOperand b Op.zxb.blank) with rd := bitsOf rd, len := len }
  | .zxh rd b len => { (withOperand b Op.zxh.blank) with rd := bitsOf rd, len := len }
  | .mul rd rd2 ra b len => { (withOperand b Op.mul.blank) with rd := bitsOf rd, rd2 := bitsOf rd2, ra := bitsOf ra, len := len }
  | .mulu rd rd2 ra b len => { (withOperand b Op.mulu.blank) with rd := bitsOf rd, rd2 := bitsOf rd2, ra := bitsOf ra, len := len }
  | .mulh rd ra b len => { (withOperand b Op.mulh.blank) with rd := bitsOf rd, ra := bitsOf ra, len := len }
  | .div rd rem ra b len => { (withOperand b Op.div.blank) with rd := bitsOf rd, wr2 := optFlag rem, rd2 := optBits rem, ra := bitsOf ra, len := len }
  | .divu rd rem ra b len => { (withOperand b Op.divu.blank) with rd := bitsOf rd, wr2 := optFlag rem, rd2 := optBits rem, ra := bitsOf ra, len := len }
  | .divn rd rem ra b n len => { (withOperand b Op.divn.blank) with rd := bitsOf rd, wr2 := optFlag rem, rd2 := optBits rem, ra := bitsOf ra, n := n, len := len }
  | .divun rd rem ra b n len => { (withOperand b Op.divun.blank) with rd := bitsOf rd, wr2 := optFlag rem, rd2 := optBits rem, ra := bitsOf ra, n := n, len := len }
  | .divh rd rem ra b len => { (withOperand b Op.divh.blank) with rd := bitsOf rd, wr2 := optFlag rem, rd2 := optBits rem, ra := bitsOf ra, len := len }
  | .divhu rd rem ra b len => { (withOperand b Op.divhu.blank) with rd := bitsOf rd, wr2 := optFlag rem, rd2 := optBits rem, ra := bitsOf ra, len := len }
  | .ldb rd ra disp len => { (withImm disp Op.ldb.blank) with rd := bitsOf rd, ra := bitsOf ra, len := len }
  | .ldbu rd ra disp len => { (withImm disp Op.ldbu.blank) with rd := bitsOf rd, ra := bitsOf ra, len := len }
  | .ldh rd ra disp len => { (withImm disp Op.ldh.blank) with rd := bitsOf rd, ra := bitsOf ra, len := len }
  | .ldhu rd ra disp len => { (withImm disp Op.ldhu.blank) with rd := bitsOf rd, ra := bitsOf ra, len := len }
  | .ldw rd ra disp len => { (withImm disp Op.ldw.blank) with rd := bitsOf rd, ra := bitsOf ra, len := len }
  | .stb ra rb disp len => { (withImm disp Op.stb.blank) with ra := bitsOf ra, rb := bitsOf rb, len := len }
  | .sth ra rb disp len => { (withImm disp Op.sth.blank) with ra := bitsOf ra, rb := bitsOf rb, len := len }
  | .stw ra rb disp len => { (withImm disp Op.stw.blank) with ra := bitsOf ra, rb := bitsOf rb, len := len }
  | .set1 ra bit disp len => { (withImm disp Op.set1.blank) with ra := bitsOf ra, bit := bitBits bit, len := len }
  | .clr1 ra bit disp len => { (withImm disp Op.clr1.blank) with ra := bitsOf ra, bit := bitBits bit, len := len }
  | .not1 ra bit disp len => { (withImm disp Op.not1.blank) with ra := bitsOf ra, bit := bitBits bit, len := len }
  | .tst1 ra bit disp len => { (withImm disp Op.tst1.blank) with ra := bitsOf ra, bit := bitBits bit, len := len }
  | .bcond cond disp len => { Op.bcond.blank with cond := cond, imm := disp.setWidth 32, len := len }
  | .jarl link disp len => { (withImm disp Op.jarl.blank) with link := optFlag link, rd := optBits link, len := len }
  | .jmp ra len => { Op.jmp.blank with ra := bitsOf ra, len := len }
  | .callt index len => { Op.callt.blank with imm := index.setWidth 32, len := len }
  | .ctret len => { Op.ctret.blank with len := len }
  | .trap code len => { Op.trap.blank with code := code, len := len }
  | .reti len => { Op.reti.blank with len := len }
  | .ldsr ra sr len => { Op.ldsr.blank with ra := bitsOf ra, sr := bitsOf sr, len := len }
  | .stsr rd sr len => { Op.stsr.blank with rd := bitsOf rd, sr := bitsOf sr, len := len }
  | .brkpt => Op.brkpt.blank
  | .prepare mask frame ep len => { (withEp ep Op.prepare.blank) with mask := mask, frame := frame, len := len }
  | .dispose mask frame jmp len => { Op.dispose.blank with mask := mask, frame := frame, jmp := optFlag jmp, ra := optBits jmp, len := len }
  | .pushmh mask len => { Op.pushmh.blank with mask := mask, len := len }
  | .popmh mask len => { Op.popmh.blank with mask := mask, len := len }
  | .pushml mask len => { Op.pushml.blank with mask := mask, len := len }
  | .popml mask len => { Op.popml.blank with mask := mask, len := len }

/-- The 128 bits of a record. -/
def Command.toBits (c : Command) : BitVec 128 :=
  (0#3 ++ c.jmp ++ c.wr2 ++ c.link ++ c.epm ++ c.frame ++ c.mask ++ c.bit ++ c.sr ++ c.code ++ c.n ++ c.cond ++ c.len
    ++ c.imm ++ c.iw ++ c.ext ++ c.bsel ++ c.rb ++ c.ra ++ c.rd2 ++ c.rd ++ c.op)

/-- The 16 bytes of an instruction. -/
def encodeBytes (i : Instr) : List Byte := bytesOf 16 (encode i).toBits.toNat

end Sys2Proof
end

