-- ==== Sys2Proof/Machine/Memory.lean ====
section
/-! DEFINITION. The memory port (20_memory.md): a byte-addressed space of 2^32 bytes as a list of (address, byte) pairs
in one canonical form, and the tables keyed by address it is built on. -/

namespace Sys2Proof.Machine

/-- The value listed for a key. -/
def lookupKey {α : Type} (a : Nat) : List (Nat × α) → Option α
  | [] => none
  | (k, v) :: m => if k = a then some v else lookupKey a m

/-- The table without a key. -/
def eraseKey {α : Type} (a : Nat) (m : List (Nat × α)) : List (Nat × α) := m.filter fun p => p.1 != a

/-- The table with a pair put before the first greater key. -/
def insertKey {α : Type} (a : Nat) (v : α) : List (Nat × α) → List (Nat × α)
  | [] => [(a, v)]
  | p :: m => if a < p.1 then (a, v) :: p :: m else p :: insertKey a v m

/-- The keys rise strictly. -/
def keysRise {α : Type} : List (Nat × α) → Bool
  | [] => true
  | [_] => true
  | p :: q :: m => p.1 < q.1 && keysRise (q :: m)

/-- The contents of memory: the bytes that differ from what an unlisted address reads as. -/
abbrev Memory := List Host.Cell

/-- What an unlisted address reads as. DESIGN CHOICE (log 10), unsafe: the spec gives memory no reset contents
(70_reset_and_hazards.md R442). -/
def Memory.unlisted : Byte := 0

/-- The canonical form: addresses rise strictly, lie below 2^32, and no byte is what an unlisted one reads as. -/
def Memory.wf (m : Memory) : Bool :=
  keysRise m && m.all fun c => c.1 < 2 ^ 32 && c.2 != Memory.unlisted

/-- The byte at an address (20_memory.md R61). -/
def Memory.readByte (m : Memory) (a : Word) : Byte := (lookupKey a.toNat m).getD Memory.unlisted

/-- The memory with one byte written (20_memory.md R62). -/
def Memory.writeByte (m : Memory) (a : Word) (v : Byte) : Memory :=
  if v = Memory.unlisted then eraseKey a.toNat m else insertKey a.toNat v (eraseKey a.toNat m)

/-- `MemRead(a, n)`: the `n` bytes from `a`, little-endian, zero-extended; addresses wrap (20_memory.md R61, R63). -/
def Memory.read (m : Memory) (a : Word) : Nat → Word
  | 0 => 0
  | n + 1 => (m.readByte a).setWidth 32 ||| (Memory.read m (a + 1) n <<< 8)

/-- `MemWrite(a, n, v)`: the `n` low bytes of `v` from `a`, little-endian; addresses wrap (20_memory.md R62, R63). -/
def Memory.write (m : Memory) (a : Word) : Nat → Word → Memory
  | 0, _ => m
  | n + 1, v => Memory.write (m.writeByte a (v.setWidth 8)) (a + 1) n (v >>> 8)

/-- The `n` bytes from an address, lowest first; addresses wrap. -/
def Memory.bytes (m : Memory) (a : Word) : Nat → List Byte
  | 0 => []
  | n + 1 => m.readByte a :: Memory.bytes m (a + 1) n

/-- The halfword-aligned address of an effective address (20_memory.md R64). -/
def alignHalf (a : Word) : Word := a &&& 0xFFFFFFFE

/-- The word-aligned address of an effective address (20_memory.md R64). -/
def alignWord (a : Word) : Word := a &&& 0xFFFFFFFC

end Sys2Proof.Machine
end

