-- ==== Sys2Proof/Machine/State.lean ====
section
/-! DEFINITION. The state of the block (10_state.md), of the collaborators it is presented with, and the state after
reset (70_reset_and_hazards.md). -/

namespace Sys2Proof.Machine

/-- The reasons a command is outside what the spec gives a meaning to (60_exceptions.md R419). A fault carries no
state: a faulted command changes none. -/
inductive Fault where
  /-- Raised by the step for a command that is not well-formed (30_encoding.md R95, R99, R100). Safe: the spec names
  this stop. -/
  | illegalCommand
  /-- Raised by any instruction that would leave an odd `pc` (10_state.md R24; 30_encoding.md R97). Safe: the spec
  names this stop. -/
  | oddTarget
  deriving DecidableEq, Repr

/-- The reasons a step has no meaning. -/
inductive Refusal where
  /-- Raised by an arm of `exec` for an instruction without a meaning; no arm is. Safe. -/
  | notModelled (mnemonic : String)
  /-- Raised by the step when the run has ended by Exit or Abort (10_state.md R32: "the block accepts no further
  command"; log 7). DEDUCED, safe. -/
  | runEnded
  /-- Raised by the step when the external fetcher presents no command at `pc`: none is listed there and fetches do not
  see stores (log 5). Safe: the model stops. -/
  | noCommand
  deriving DecidableEq, Repr

/-- The run status (10_state.md R32). -/
inductive RunStatus where
  | running
  | exited (s : ExitStatus)
  | aborted
  deriving DecidableEq, Repr

/-- The outcome a command ended with (30_encoding.md R96), but `Fault`, which is a fault of the step. -/
inductive BlockOutcome where
  | next (d : Word)
  | jump
  | brk
  | exit (s : ExitStatus)
  | abort
  deriving DecidableEq, Repr

/-- The state. `regs`, `pc`, `sregs` and `status` are the block's (10_state.md); `mem` is the memory collaborator's
(20_memory.md R60); `program` lists the commands the external fetcher was loaded with, by address (log 3); `lastOutcome` is the
block's last output (log 6); `draws` counts the free values taken (log 11); `params` holds the OPEN parameters
(log 13). -/
structure State where
  /-- x[0] to x[31] (10_state.md R20) -/
  regs        : Vector Word 32
  /-- S[0] to S[31]; S[5] is PSW (10_state.md R27, R28) -/
  sregs       : Vector Word 32
  /-- the program counter (10_state.md R23) -/
  pc          : Word
  /-- the run status (10_state.md R32) -/
  status      : RunStatus
  /-- the memory (20_memory.md R60) -/
  mem         : Memory
  /-- the commands loaded, by address, but those a seen store has overwritten (30_encoding.md R90; 20_memory.md R74) -/
  program     : List (Nat × Command)
  /-- the outcome of the last command (30_encoding.md R96) -/
  lastOutcome : Option BlockOutcome
  /-- the number of commands that took a free value -/
  draws       : Nat
  /-- the OPEN parameters (00_scope.md R7) -/
  params      : Params
  deriving DecidableEq, Repr

/-- The parameters at reset: every operation admitted, the default of R7; the rest OPEN. -/
def Params.reset : Params where
  admitted := Op.all
  selectors := Config.selectors
  fetchSeesStores := Config.fetchSeesStores

/-- The system-register bank after reset: PSW = 0x20 and ECR = 0 (70_reset_and_hazards.md R441). The other entries
are unspecified (R442). DESIGN CHOICE 0 (log 9), unsafe. -/
def State.resetSregs : Vector Word 32 := (Vector.replicate 32 (0 : Word)).set 5 0x00000020

/-- The state after reset (70_reset_and_hazards.md R440 to R443). The general registers are unspecified (R442).
DESIGN CHOICE 0 (log 8), unsafe. -/
def State.reset : State where
  regs := Vector.replicate 32 0
  sregs := State.resetSregs
  pc := Config.resetPc
  status := .running
  mem := []
  program := []
  lastOutcome := none
  draws := 0
  params := Params.reset

end Sys2Proof.Machine
end

