-- ==== Sys2Proof/Machine/Ops.lean ====
section
/-! DEFINITION. The named operations over the state: registers, system registers, PSW, memory, the outcomes a command
ends with, taking a trap and returning from one. -/

namespace Sys2Proof.Machine

/-- What a command answers. -/
abbrev Result := Host.Outcome State Fault Refusal

/-! ## Updates of one field -/

/-- The state with another `pc`. -/
def State.setPc (s : State) (a : Word) : State := { s with pc := a }

/-- The state with another memory. -/
def State.setMem (s : State) (m : Memory) : State := { s with mem := m }

/-- The state with another run status. -/
def State.setStatus (s : State) (r : RunStatus) : State := { s with status := r }

/-- The state with another last outcome. -/
def State.setOutcome (s : State) (o : BlockOutcome) : State := { s with lastOutcome := some o }

/-- The state with another program. -/
def State.setProgram (s : State) (p : List (Nat × Command)) : State := { s with program := p }

/-- The state after a command that took a free value. -/
def State.bumpDraws (s : State) : State := { s with draws := s.draws + 1 }

/-! ## Registers -/

/-- `x[r]` (10_state.md R20, R21). With R0_ZERO, register 0 would read as zero; it does not here. -/
def State.readReg (s : State) (r : Reg) : Word :=
  if Config.r0Zero && r == 0 then 0 else s.regs.get r

/-- `x[r] <- v` (10_state.md R20, R21). With R0_ZERO, a write to register 0 would be discarded; it is not here. -/
def State.writeReg (s : State) (r : Reg) (v : Word) : State :=
  { s with regs := if Config.r0Zero && r == 0 then s.regs else s.regs.set r v }

/-- `x[r] <- v` where the command names a register (JARL's link, a divide's remainder). -/
def State.writeRegOpt (s : State) (r : Option Reg) (v : Word) : State :=
  match r with
  | some r => s.writeReg r v
  | none => s

/-- `S[n]` (10_state.md R27, R29). -/
def State.readSys (s : State) (n : SysReg) : Word := s.sregs.get n

/-- `S[n] <- v`: every entry keeps all 32 bits (10_state.md R29). -/
def State.writeSys (s : State) (n : SysReg) (v : Word) : State := { s with sregs := s.sregs.set n v }

/-! ## PSW -/

/-- The named flags of PSW (10_state.md R25). -/
inductive Flag where
  | z | s | ov | cy | sat | id | ep | np
  deriving DecidableEq, Repr

/-- A flag's bit number (10_state.md R25). -/
def flagBit : Flag → Nat
  | .z => 0
  | .s => 1
  | .ov => 2
  | .cy => 3
  | .sat => 4
  | .id => 5
  | .ep => 6
  | .np => 7

/-- A word with one bit replaced. -/
def setBit (w : Word) (i : Nat) (b : Bool) : Word :=
  if b then w ||| (1#32 <<< i) else w &&& ~~~(1#32 <<< i)

/-- PSW, the bank entry 5 (10_state.md R28). -/
def State.psw (s : State) : Word := s.readSys SysReg.psw

/-- All 32 bits of PSW replaced: a whole-PSW load (10_state.md R25). -/
def State.writePsw (s : State) (v : Word) : State := s.writeSys SysReg.psw v

/-- `PSW.F` (00_scope.md R10). -/
def State.flag (s : State) (f : Flag) : Bool := s.psw.getLsbD (flagBit f)

/-- `PSW.F <- b`, every other bit kept (00_scope.md R10; 10_state.md R26). -/
def State.setFlag (s : State) (f : Flag) (b : Bool) : State := s.writePsw (setBit s.psw (flagBit f) b)

/-! ## Memory -/

/-- `MemRead(a, n)` (00_scope.md R11). -/
def State.memRead (s : State) (a : Word) (n : Nat) : Word := s.mem.read a n

/-- How many bytes from its address a command was decoded from: its length, or the longest instruction's where the
length says nothing (BRKPT; 30_encoding.md R98). DESIGN CHOICE (log 4), unsafe where a decoder reads past the instruction. -/
def instrLen (c : Command) : Nat := if Len.wf c.len then c.len.toNat else 8

/-- The `n` bytes from `a` and the `k` bytes from `b` share an address; addresses wrap. -/
def rangesMeet (a : Word) (n : Nat) (b : Word) (k : Nat) : Bool := (b - a).toNat < n || (a - b).toNat < k

/-- The commands the fetcher still has after a store to the `n` bytes from `a`: where fetches see stores, those of which no
byte was stored to, whatever was stored; else all (20_memory.md R74). DESIGN CHOICE (log 4), safe for R74's two answers. -/
def State.programAfterStore (s : State) (a : Word) (n : Nat) : List (Nat × Command) :=
  if s.params.fetchSeesStores then
    s.program.filter fun p => !rangesMeet a n (BitVec.ofNat 32 p.1) (instrLen p.2)
  else s.program

/-- `MemWrite(a, n, v)` (00_scope.md R11), and what the fetcher sees of it (20_memory.md R74). -/
def State.memWrite (s : State) (a : Word) (n : Nat) (v : Word) : State :=
  (s.setMem (s.mem.write a n v)).setProgram (s.programAfterStore a n)

/-! ## Outcomes (30_encoding.md R96, R97) -/

/-- `Next(d)`: on to `pc + d`, or Fault(OddTarget) with no effect (30_encoding.md R97). -/
def advance (d : Word) (s : State) : Result :=
  if (s.pc + d).getLsbD 0 then .fault .oddTarget else .next ((s.setPc (s.pc + d)).setOutcome (.next d))

/-- `pc <- t; Jump`, or Fault(OddTarget) with no effect (10_state.md R24). -/
def jumpTo (t : Word) (s : State) : Result :=
  if t.getLsbD 0 then .fault .oddTarget else .next ((s.setPc t).setOutcome .jump)

/-- The byte count of a `len` field. -/
def lenBytes (l : Len) : Word := l.setWidth 32

/-- `Next(cmd.len)` (30_encoding.md R98). -/
def advanceLen (l : Len) (s : State) : Result := advance (lenBytes l) s

/-- `Break`: nothing changes; the outcome is reported (30_encoding.md R96; 45_system.md R288). -/
def breakRun (s : State) : Result := .next (s.setOutcome .brk)

/-- `Exit(e)`: the run ends (30_encoding.md R96; 45_system.md R283; 10_state.md R32). -/
def exitRun (e : ExitStatus) (s : State) : Result := .next ((s.setStatus (.exited e)).setOutcome (.exit e))

/-- `Abort`: the run ends and nothing else changes (30_encoding.md R96; 45_system.md R284; 10_state.md R32). -/
def abortRun (s : State) : Result := .next ((s.setStatus .aborted).setOutcome .abort)

/-! ## Traps (60_exceptions.md R402 to R407) -/

/-- The vector of a trap code (60_exceptions.md R403). -/
def trapVector (code : BitVec 5) : Word := if code.toNat < 16 then Config.vecLo else Config.vecHi

/-- The cause word: ECR with its low halfword `0x40 + code` (60_exceptions.md R402, R404). -/
def trapCause (ecr : Word) (code : BitVec 5) : Word :=
  ecr.extractLsb' 16 16 ++ (0x40#16 + code.setWidth 16)

/-- `raise Trap(code)`, but for the jump: the saved context, the cause and the PSW bits, in the rule's order
(60_exceptions.md R402). -/
def trapEntry (code : BitVec 5) (s : State) : State :=
  (((((s.writeSys SysReg.eipc (s.pc + 4)).writeSys SysReg.eipsw s.psw).writeSys SysReg.ecr
    (trapCause (s.readSys SysReg.ecr) code)).setFlag .ep true).setFlag .id true)

/-- Taking a trap (60_exceptions.md R402). -/
def raiseTrap (code : BitVec 5) (s : State) : Result := jumpTo (trapVector code) (trapEntry code s)

/-- The context pair RETI returns through: EI when EP = 1, else FE when NP = 1, else EI (45_system.md R285). -/
def retiPair (s : State) : SysReg × SysReg :=
  if s.flag .ep then (SysReg.eipc, SysReg.eipsw)
  else if s.flag .np then (SysReg.fepc, SysReg.fepsw)
  else (SysReg.eipc, SysReg.eipsw)

/-- Returning through a saved pair: `pc` and all 32 bits of PSW (45_system.md R285; 46_branch.md R304). -/
def returnThrough (pair : SysReg × SysReg) (s : State) : Result :=
  jumpTo (s.readSys pair.1) (s.writePsw (s.readSys pair.2))

end Sys2Proof.Machine
end

