-- ==== Sys2Proof/Machine/Operands.lean ====
section
/-! DEFINITION. Operand forms: the immediate (30_encoding.md R93), the second operand (R94), the effective address
(47_loadstore_bit.md R320), and the extension primitives (00_scope.md R9). -/

namespace Sys2Proof.Machine

/-- `sext_n(v[n-1:0])` (00_scope.md R9). -/
def sextField (n : Nat) (v : Word) : Word := (v.setWidth n).signExtend 32

/-- `zext_n(v[n-1:0])` (00_scope.md R9). -/
def zextField (n : Nat) (v : Word) : Word := (v.setWidth n).setWidth 32

/-- `ImmVal(cmd)` (30_encoding.md R93). On the step the reserved `ext` never reaches it: R95 item 3 refuses it; its 0 here
is a placeholder. DESIGN CHOICE (log 18), safe. -/
def immVal (i : Imm) : Word :=
  match i.ext with
  | .sext => sextField i.iw.toNat i.imm
  | .zext => zextField i.iw.toNat i.imm
  | .hi16 => zextField 16 i.imm <<< 16
  | .reserved => 0

/-- `OpB(cmd)` (30_encoding.md R94). -/
def opB (b : OperandB) (s : State) : Word :=
  match b with
  | .reg rb => s.readReg rb
  | .imm i => immVal i

/-- The effective address `x[ra] + ImmVal` (47_loadstore_bit.md R320). -/
def effAddr (ra : Reg) (disp : Imm) (s : State) : Word := s.readReg ra + immVal disp

/-- The address a byte access uses (20_memory.md R64). -/
def byteAddr (ra : Reg) (disp : Imm) (s : State) : Word := effAddr ra disp s

/-- The address a halfword access uses (20_memory.md R64). -/
def halfAddr (ra : Reg) (disp : Imm) (s : State) : Word := alignHalf (effAddr ra disp s)

/-- The address a word access uses (20_memory.md R64). -/
def wordAddr (ra : Reg) (disp : Imm) (s : State) : Word := alignWord (effAddr ra disp s)

end Sys2Proof.Machine
end

