-- ==== Sys2Proof/Machine/Flags.lean ====
section
/-! DEFINITION. Flag functions (41_alu.md R150 to R156), the groups of flags the operations write, and the condition
evaluator (40_condition.md R130, R131). -/

namespace Sys2Proof.Machine

/-- `Zf(r)` (41_alu.md R151). -/
def zf (r : Word) : Bool := r == 0

/-- `Sf(r)` (41_alu.md R151). -/
def sf (r : Word) : Bool := r.getLsbD 31

/-- `CarryAdd(a, b, r)` (41_alu.md R152). -/
def carryAdd (a b r : Word) : Bool := r.ult a || r.ult b

/-- `OvAdd(a, b, r)` (41_alu.md R152). -/
def ovAdd (a b r : Word) : Bool := a.getLsbD 31 == b.getLsbD 31 && r.getLsbD 31 != a.getLsbD 31

/-- `CarrySub(a, b)` (41_alu.md R153). -/
def carrySub (a b : Word) : Bool := a.ult b

/-- `OvSub(a, b, r)` (41_alu.md R153). -/
def ovSub (a b r : Word) : Bool := a.getLsbD 31 != b.getLsbD 31 && r.getLsbD 31 != a.getLsbD 31

/-- `Clamp(r)` (41_alu.md R154). -/
def clamp (r : Word) : Word := if r.getLsbD 31 then 0x7FFFFFFF else 0x80000000

/-- The value a saturating operation stores (41_alu.md R164, R165). -/
def saturate (ov : Bool) (r : Word) : Word := if ov then clamp r else r

/-- Z and S from a result (41_alu.md R151). -/
def setZS (r : Word) (s : State) : State := (s.setFlag .z (zf r)).setFlag .s (sf r)

/-- The flags of an addition or subtraction: Z, S, CY, OV (41_alu.md R150). -/
def setArith (r : Word) (cy ov : Bool) (s : State) : State := ((setZS r s).setFlag .cy cy).setFlag .ov ov

/-- SAT after a saturating operation: set on overflow, else kept (41_alu.md R154). -/
def setSat (ov : Bool) (s : State) : State := if ov then s.setFlag .sat true else s

/-- The flags of a logical operation: Z, S, OV cleared (41_alu.md R150, R156). -/
def setLogic (r : Word) (s : State) : State := (setZS r s).setFlag .ov false

/-- The flags of a shift: CY, Z, S, OV cleared (41_alu.md R150, R156). -/
def setShift (r : Word) (cy : Bool) (s : State) : State := (setZS r (s.setFlag .cy cy)).setFlag .ov false

/-- The flags of a divide: Z and S of the stored quotient, OV (43_divide.md R224). -/
def setDiv (q : Word) (ov : Bool) (s : State) : State := (setZS q s).setFlag .ov ov

/-- `Cond(c, PSW)` (40_condition.md R130, R131). -/
def condHolds (c : BitVec 4) (psw : Word) : Bool :=
  let z := psw.getLsbD (flagBit .z)
  let s := psw.getLsbD (flagBit .s)
  let ov := psw.getLsbD (flagBit .ov)
  let cy := psw.getLsbD (flagBit .cy)
  let sat := psw.getLsbD (flagBit .sat)
  match c.toNat with
  | 0 => ov
  | 1 => cy
  | 2 => z
  | 3 => cy || z
  | 4 => s
  | 5 => true
  | 6 => s ^^ ov
  | 7 => (s ^^ ov) || z
  | 8 => !ov
  | 9 => !cy
  | 10 => !z
  | 11 => !(cy || z)
  | 12 => !s
  | 13 => sat
  | 14 => !(s ^^ ov)
  | _ => !((s ^^ ov) || z)

end Sys2Proof.Machine
end

