-- ==== Sys2Proof/Machine/Alu.lean ====
section
/-! DEFINITION. The ALU operations (41_alu.md R160 to R178). Each reads its operands from the state at the start of the
command and ends with `Next(cmd.len)`. -/

namespace Sys2Proof.Machine

/-- The shift amount: bits 4:0 of the second operand (41_alu.md R155). -/
def shiftAmount (b : OperandB) (s : State) : Nat := ((opB b s).extractLsb' 0 5).toNat

/-- CY of a shift: the last bit shifted out, or a free value after a shift by zero (41_alu.md R155; log 11). -/
def shiftCarry (sh : Nat) (lastOut : Bool) (s : State) : Bool :=
  if sh = 0 then Config.shiftZeroCarry s.draws s else lastOut

/-- The state after a command, counting the free value it took, if it took one. -/
def countDraw (drawn : Bool) (s : State) : State := if drawn then s.bumpDraws else s

/-- ADD: add with flags (41_alu.md R160). -/
def execAdd (rd ra : Reg) (b : OperandB) (len : Len) (s : State) : Result :=
  let x := s.readReg ra
  let y := opB b s
  let r := x + y
  advanceLen len (setArith r (carryAdd x y r) (ovAdd x y r) (s.writeReg rd r))

/-- ADDNF: add without flags (41_alu.md R161). -/
def execAddnf (rd ra : Reg) (b : OperandB) (len : Len) (s : State) : Result :=
  advanceLen len (s.writeReg rd (s.readReg ra + opB b s))

/-- SUB: subtract with flags (41_alu.md R162). -/
def execSub (rd ra : Reg) (b : OperandB) (len : Len) (s : State) : Result :=
  let x := s.readReg ra
  let y := opB b s
  let r := x - y
  advanceLen len (setArith r (carrySub x y) (ovSub x y r) (s.writeReg rd r))

/-- CMP: compare, no register written (41_alu.md R163). -/
def execCmp (ra : Reg) (b : OperandB) (len : Len) (s : State) : Result :=
  let x := s.readReg ra
  let y := opB b s
  let r := x - y
  advanceLen len (setArith r (carrySub x y) (ovSub x y r) s)

/-- SATADD: saturating add (41_alu.md R164). -/
def execSatadd (rd ra : Reg) (b : OperandB) (len : Len) (s : State) : Result :=
  let x := s.readReg ra
  let y := opB b s
  let r := x + y
  let ov := ovAdd x y r
  let v := saturate ov r
  advanceLen len (setSat ov (setArith v (carryAdd x y r) ov (s.writeReg rd v)))

/-- SATSUB: saturating subtract (41_alu.md R165). -/
def execSatsub (rd ra : Reg) (b : OperandB) (len : Len) (s : State) : Result :=
  let x := s.readReg ra
  let y := opB b s
  let r := x - y
  let ov := ovSub x y r
  let v := saturate ov r
  advanceLen len (setSat ov (setArith v (carrySub x y) ov (s.writeReg rd v)))

/-- AND: flags Z, S; OV cleared; CY kept (41_alu.md R166). -/
def execAnd (rd ra : Reg) (b : OperandB) (len : Len) (s : State) : Result :=
  let r := s.readReg ra &&& opB b s
  advanceLen len (setLogic r (s.writeReg rd r))

/-- OR: flags Z, S; OV cleared; CY kept (41_alu.md R167). -/
def execOr (rd ra : Reg) (b : OperandB) (len : Len) (s : State) : Result :=
  let r := s.readReg ra ||| opB b s
  advanceLen len (setLogic r (s.writeReg rd r))

/-- XOR: flags Z, S; OV cleared; CY kept (41_alu.md R168). -/
def execXor (rd ra : Reg) (b : OperandB) (len : Len) (s : State) : Result :=
  let r := s.readReg ra ^^^ opB b s
  advanceLen len (setLogic r (s.writeReg rd r))

/-- NOT: the complement of the second operand (41_alu.md R169). -/
def execNot (rd : Reg) (b : OperandB) (len : Len) (s : State) : Result :=
  let r := ~~~(opB b s)
  advanceLen len (setLogic r (s.writeReg rd r))

/-- TST: the flags of AND, no register written (41_alu.md R170). -/
def execTst (ra : Reg) (b : OperandB) (len : Len) (s : State) : Result :=
  advanceLen len (setLogic (s.readReg ra &&& opB b s) s)

/-- SHL: shift left logical (41_alu.md R171). -/
def execShl (rd ra : Reg) (b : OperandB) (len : Len) (s : State) : Result :=
  let x := s.readReg ra
  let sh := shiftAmount b s
  let r := x <<< sh
  advanceLen len (countDraw (sh == 0) (setShift r (shiftCarry sh (x.getLsbD (32 - sh)) s) (s.writeReg rd r)))

/-- SHR: shift right logical (41_alu.md R172). -/
def execShr (rd ra : Reg) (b : OperandB) (len : Len) (s : State) : Result :=
  let x := s.readReg ra
  let sh := shiftAmount b s
  let r := x >>> sh
  advanceLen len (countDraw (sh == 0) (setShift r (shiftCarry sh (x.getLsbD (sh - 1)) s) (s.writeReg rd r)))

/-- SAR: shift right arithmetic (41_alu.md R173). -/
def execSar (rd ra : Reg) (b : OperandB) (len : Len) (s : State) : Result :=
  let x := s.readReg ra
  let sh := shiftAmount b s
  let r := x.sshiftRight sh
  advanceLen len (countDraw (sh == 0) (setShift r (shiftCarry sh (x.getLsbD (sh - 1)) s) (s.writeReg rd r)))

/-- MOV: no flag (41_alu.md R174). -/
def execMov (rd : Reg) (b : OperandB) (len : Len) (s : State) : Result :=
  advanceLen len (s.writeReg rd (opB b s))

/-- SXB: sign-extend byte (41_alu.md R175). -/
def execSxb (rd : Reg) (b : OperandB) (len : Len) (s : State) : Result :=
  advanceLen len (s.writeReg rd (sextField 8 (opB b s)))

/-- SXH: sign-extend halfword (41_alu.md R176). -/
def execSxh (rd : Reg) (b : OperandB) (len : Len) (s : State) : Result :=
  advanceLen len (s.writeReg rd (sextField 16 (opB b s)))

/-- ZXB: zero-extend byte (41_alu.md R177). -/
def execZxb (rd : Reg) (b : OperandB) (len : Len) (s : State) : Result :=
  advanceLen len (s.writeReg rd (zextField 8 (opB b s)))

/-- ZXH: zero-extend halfword (41_alu.md R178). -/
def execZxh (rd : Reg) (b : OperandB) (len : Len) (s : State) : Result :=
  advanceLen len (s.writeReg rd (zextField 16 (opB b s)))

end Sys2Proof.Machine
end

