-- ==== Sys2Proof/Machine/Multiply.lean ====
section
/-! DEFINITION. The multiply engine (42_multiply.md R200 to R205). The operations use the exact product of R200; the
engine's own algorithm (R201) stands beside it. -/

namespace Sys2Proof.Machine

/-- `MulU64(a, b)` (42_multiply.md R200). -/
def mulU64 (a b : Word) : BitVec 64 := a.setWidth 64 * b.setWidth 64

/-- `MulS64(a, b)` (42_multiply.md R200). -/
def mulS64 (a b : Word) : BitVec 64 := a.signExtend 64 * b.signExtend 64

/-- The low word of a product (42_multiply.md R200). -/
def lowWord (p : BitVec 64) : Word := p.extractLsb' 0 32

/-- The high word of a product (42_multiply.md R200). -/
def highWord (p : BitVec 64) : Word := p.extractLsb' 32 32

/-- The two writes, the low word first (42_multiply.md R202). -/
def writeProduct (rd rd2 : Reg) (p : BitVec 64) (s : State) : State :=
  (s.writeReg rd (lowWord p)).writeReg rd2 (highWord p)

/-- MUL: signed 32 x 32 to 64 (42_multiply.md R203). -/
def execMul (rd rd2 ra : Reg) (b : OperandB) (len : Len) (s : State) : Result :=
  advanceLen len (writeProduct rd rd2 (mulS64 (s.readReg ra) (opB b s)) s)

/-- MULU: unsigned 32 x 32 to 64 (42_multiply.md R204). -/
def execMulu (rd rd2 ra : Reg) (b : OperandB) (len : Len) (s : State) : Result :=
  advanceLen len (writeProduct rd rd2 (mulU64 (s.readReg ra) (opB b s)) s)

/-- MULH: signed 16 x 16 to 32 of the low halves (42_multiply.md R205). -/
def execMulh (rd ra : Reg) (b : OperandB) (len : Len) (s : State) : Result :=
  advanceLen len (s.writeReg rd (sextField 16 (s.readReg ra) * sextField 16 (opB b s)))

/-! ## The engine's algorithm (42_multiply.md R201) -/

/-- `carry(x, y)` of the engine. -/
def engineCarry (x y : Word) : Word := if x.toNat + y.toNat ≥ 2 ^ 32 then 1 else 0

/-- One cross product `m` added into the accumulation words. -/
def engineAccumulate (m hi lo : Word) : Word × Word :=
  (hi + (m >>> 16) + engineCarry lo (m <<< 16), lo + (m <<< 16))

/-- The engine's `MulU64`, as `{hi, lo}`. -/
def engineMulU (a b : Word) : Word × Word :=
  let al := zextField 16 a
  let ah := a >>> 16
  let bl := zextField 16 b
  let bh := b >>> 16
  let p := engineAccumulate (al * bh) (ah * bh) (al * bl)
  engineAccumulate (ah * bl) p.1 p.2

/-- The engine's `MulS64`, as `{hi, lo}`. -/
def engineMulS (a b : Word) : Word × Word :=
  let ua := if a.getLsbD 31 then 0 - a else a
  let ub := if b.getLsbD 31 then 0 - b else b
  let p := engineMulU ua ub
  if (a.getLsbD 31 ^^ b.getLsbD 31) then
    let v : BitVec 64 := 0 - (p.1 ++ p.2)
    (highWord v, lowWord v)
  else p

end Sys2Proof.Machine
end

