-- ==== Sys2Proof/Machine/Divide.lean ====
section
/-! DEFINITION. The division engine (43_divide.md R220 to R233). The operations use the exact results of R221 and
R222; the restoring algorithm of R226 stands beside them. -/

namespace Sys2Proof.Machine

/-- The engine's signedness (43_divide.md R220). -/
inductive Signedness where
  | signed | unsigned
  deriving DecidableEq, Repr

/-- `sval` or `uval` of an operand (43_divide.md R221). -/
def divValue (sg : Signedness) (v : Word) : Int :=
  match sg with
  | .signed => v.toInt
  | .unsigned => v.toNat

/-- A quotient in the range of an N-bit result (43_divide.md R222). -/
def divFits (sg : Signedness) (n : Nat) (q : Int) : Bool :=
  match sg with
  | .signed => -(2 ^ (n - 1) : Int) ≤ q && q ≤ 2 ^ (n - 1) - 1
  | .unsigned => 0 ≤ q && q ≤ 2 ^ n - 1

/-- The exact quotient, rounded toward zero (43_divide.md R221). -/
def divExact (sg : Signedness) (a b : Word) : Int := (divValue sg a).tdiv (divValue sg b)

/-- `ov` (43_divide.md R222). -/
def divOverflow (sg : Signedness) (n : Nat) (a b : Word) : Bool := b == 0 || !divFits sg n (divExact sg a b)

/-- `q` where there is no overflow (43_divide.md R221). -/
def divQ (sg : Signedness) (a b : Word) : Word := BitVec.ofInt 32 (divExact sg a b)

/-- `r` where there is no overflow (43_divide.md R221). -/
def divR (sg : Signedness) (a b : Word) : Word :=
  BitVec.ofInt 32 (divValue sg a - divExact sg a b * divValue sg b)

/-- The body every divide shares: the quotient to `rd`, then the remainder to `rem`; Z, S from the stored quotient and
OV; on overflow both values are free (43_divide.md R223 to R225, R228; log 11). -/
def divideInto (sg : Signedness) (n : Nat) (a b : Word) (rd : Reg) (rem : Option Reg) (len : Len) (s : State) : Result :=
  let ov := divOverflow sg n a b
  let q := if ov then Config.divQuotient s.draws s else divQ sg a b
  let r := if ov then Config.divRemainder s.draws s else divR sg a b
  advanceLen len (countDraw ov (setDiv q ov ((s.writeReg rd q).writeRegOpt rem r)))

/-- DIV: signed, width 32 (43_divide.md R228). -/
def execDiv (rd : Reg) (rem : Option Reg) (ra : Reg) (b : OperandB) (len : Len) (s : State) : Result :=
  divideInto .signed 32 (s.readReg ra) (opB b s) rd rem len s

/-- DIVU: unsigned, width 32 (43_divide.md R229). -/
def execDivu (rd : Reg) (rem : Option Reg) (ra : Reg) (b : OperandB) (len : Len) (s : State) : Result :=
  divideInto .unsigned 32 (s.readReg ra) (opB b s) rd rem len s

/-- DIVN: signed, width n (43_divide.md R230). -/
def execDivn (rd : Reg) (rem : Option Reg) (ra : Reg) (b : OperandB) (n : BitVec 6) (len : Len) (s : State) : Result :=
  divideInto .signed n.toNat (s.readReg ra) (opB b s) rd rem len s

/-- DIVUN: unsigned, width n (43_divide.md R231). -/
def execDivun (rd : Reg) (rem : Option Reg) (ra : Reg) (b : OperandB) (n : BitVec 6) (len : Len) (s : State) : Result :=
  divideInto .unsigned n.toNat (s.readReg ra) (opB b s) rd rem len s

/-- DIVH: signed, divisor the low halfword sign-extended (43_divide.md R232). -/
def execDivh (rd : Reg) (rem : Option Reg) (ra : Reg) (b : OperandB) (len : Len) (s : State) : Result :=
  divideInto .signed 32 (s.readReg ra) (sextField 16 (opB b s)) rd rem len s

/-- DIVHU: unsigned, divisor the low halfword zero-extended (43_divide.md R233). -/
def execDivhu (rd : Reg) (rem : Option Reg) (ra : Reg) (b : OperandB) (len : Len) (s : State) : Result :=
  divideInto .unsigned 32 (s.readReg ra) (zextField 16 (opB b s)) rd rem len s

/-! ## The restoring algorithm (43_divide.md R226) -/

/-- The iterations i = n-1 downto 0 on quotient and partial remainder. -/
def restoringSteps (a b : Nat) : Nat → Nat × Nat → Nat × Nat
  | 0, p => p
  | i + 1, (q, r) =>
    let r' := 2 * r + (a >>> i) % 2
    if r' ≥ b then restoringSteps a b i (q + 2 ^ i, r' - b) else restoringSteps a b i (q, r')

/-- `DivU(N, A, B)`: none on overflow. -/
def restoringU (n a b : Nat) : Option (Nat × Nat) :=
  if b = 0 then none
  else if a >>> n ≥ b then none
  else some (restoringSteps a b n (0, a >>> n))

/-- `DivS(N, a, b)`: magnitudes, then signs; none on overflow. -/
def restoringS (n : Nat) (a b : Word) : Option (Word × Word) :=
  match restoringU n a.toInt.natAbs b.toInt.natAbs with
  | none => none
  | some (q, r) =>
    let q' : Int := if (a.getLsbD 31 ^^ b.getLsbD 31) then -(q : Int) else q
    let r' : Int := if a.getLsbD 31 then -(r : Int) else r
    if divFits .signed n q' then some (BitVec.ofInt 32 q', BitVec.ofInt 32 r') else none

end Sys2Proof.Machine
end

