-- ==== Sys2Proof/Machine/LoadStore.lean ====
section
/-! DEFINITION. Loads, stores and bit operations (47_loadstore_bit.md R320 to R333). -/

namespace Sys2Proof.Machine

/-- LDB: load byte, sign-extended (47_loadstore_bit.md R321). -/
def execLdb (rd ra : Reg) (disp : Imm) (len : Len) (s : State) : Result :=
  advanceLen len (s.writeReg rd (sextField 8 (s.memRead (byteAddr ra disp s) 1)))

/-- LDBU: load byte, zero-extended (47_loadstore_bit.md R322). -/
def execLdbu (rd ra : Reg) (disp : Imm) (len : Len) (s : State) : Result :=
  advanceLen len (s.writeReg rd (zextField 8 (s.memRead (byteAddr ra disp s) 1)))

/-- LDH: load halfword, sign-extended (47_loadstore_bit.md R323). -/
def execLdh (rd ra : Reg) (disp : Imm) (len : Len) (s : State) : Result :=
  advanceLen len (s.writeReg rd (sextField 16 (s.memRead (halfAddr ra disp s) 2)))

/-- LDHU: load halfword, zero-extended (47_loadstore_bit.md R324). -/
def execLdhu (rd ra : Reg) (disp : Imm) (len : Len) (s : State) : Result :=
  advanceLen len (s.writeReg rd (zextField 16 (s.memRead (halfAddr ra disp s) 2)))

/-- LDW: load word (47_loadstore_bit.md R325). -/
def execLdw (rd ra : Reg) (disp : Imm) (len : Len) (s : State) : Result :=
  advanceLen len (s.writeReg rd (s.memRead (wordAddr ra disp s) 4))

/-- STB: store byte (47_loadstore_bit.md R326). -/
def execStb (ra rb : Reg) (disp : Imm) (len : Len) (s : State) : Result :=
  advanceLen len (s.memWrite (byteAddr ra disp s) 1 (s.readReg rb))

/-- STH: store halfword (47_loadstore_bit.md R327). -/
def execSth (ra rb : Reg) (disp : Imm) (len : Len) (s : State) : Result :=
  advanceLen len (s.memWrite (halfAddr ra disp s) 2 (s.readReg rb))

/-- STW: store word (47_loadstore_bit.md R328). -/
def execStw (ra rb : Reg) (disp : Imm) (len : Len) (s : State) : Result :=
  advanceLen len (s.memWrite (wordAddr ra disp s) 4 (s.readReg rb))

/-- What a bit operation does to the byte (47_loadstore_bit.md R329). -/
inductive BitKind where
  | set | clr | not | tst
  deriving DecidableEq, Repr

/-- The byte a bit operation writes back, none for TST (47_loadstore_bit.md R329). -/
def bitResult (kind : BitKind) (bit : Fin 8) (v : Word) : Option Word :=
  match kind with
  | .set => some (v ||| (1#32 <<< bit.val))
  | .clr => some (v &&& ~~~(1#32 <<< bit.val))
  | .not => some (v ^^^ (1#32 <<< bit.val))
  | .tst => none

/-- `BitOp(kind)`: Z is the complement of the bit read; the byte is written back but for TST
(47_loadstore_bit.md R329). -/
def bitOp (kind : BitKind) (ra : Reg) (bit : Fin 8) (disp : Imm) (len : Len) (s : State) : Result :=
  let ea := byteAddr ra disp s
  let v := s.memRead ea 1
  let s1 := s.setFlag .z (!v.getLsbD bit.val)
  match bitResult kind bit v with
  | some w => advanceLen len (s1.memWrite ea 1 w)
  | none => advanceLen len s1

/-- SET1 (47_loadstore_bit.md R330). -/
def execSet1 (ra : Reg) (bit : Fin 8) (disp : Imm) (len : Len) (s : State) : Result :=
  bitOp .set ra bit disp len s

/-- CLR1 (47_loadstore_bit.md R331). -/
def execClr1 (ra : Reg) (bit : Fin 8) (disp : Imm) (len : Len) (s : State) : Result :=
  bitOp .clr ra bit disp len s

/-- NOT1 (47_loadstore_bit.md R332). -/
def execNot1 (ra : Reg) (bit : Fin 8) (disp : Imm) (len : Len) (s : State) : Result :=
  bitOp .not ra bit disp len s

/-- TST1 (47_loadstore_bit.md R333). -/
def execTst1 (ra : Reg) (bit : Fin 8) (disp : Imm) (len : Len) (s : State) : Result :=
  bitOp .tst ra bit disp len s

end Sys2Proof.Machine
end

