-- ==== Sys2Proof/Machine/Branch.lean ====
section
/-! DEFINITION. Branches, jumps and calls (46_branch.md R300 to R304). A target is computed from `pc`, the address of
the instruction itself. -/

namespace Sys2Proof.Machine

/-- BCOND: to `pc + sext_9(disp)` when the condition holds, else past its 2 bytes (46_branch.md R300). -/
def execBcond (c : BitVec 4) (disp : BitVec 9) (_len : Len) (s : State) : Result :=
  if condHolds c s.psw then advance (disp.signExtend 32) s else advance 2 s

/-- JARL: jump relative, optionally linking (46_branch.md R301). -/
def execJarl (link : Option Reg) (disp : Imm) (len : Len) (s : State) : Result :=
  jumpTo (s.pc + immVal disp) (s.writeRegOpt link (s.pc + lenBytes len))

/-- JMP: jump to a register (46_branch.md R302). -/
def execJmp (ra : Reg) (_len : Len) (s : State) : Result := jumpTo (s.readReg ra) s

/-- The address of a call-table entry, before masking (46_branch.md R303). -/
def calltAddr (index : BitVec 6) (s : State) : Word := s.readSys SysReg.ctbp + (index.setWidth 32 <<< 1)

/-- The target of a call-table entry (46_branch.md R303). -/
def calltTarget (index : BitVec 6) (s : State) : Word :=
  s.readSys SysReg.ctbp + s.memRead (alignHalf (calltAddr index s)) 2

/-- CALLT: call through the call table, saving the fast-call pair (46_branch.md R303). -/
def execCallt (index : BitVec 6) (len : Len) (s : State) : Result :=
  jumpTo (calltTarget index s)
    ((s.writeSys SysReg.ctpc (s.pc + lenBytes len)).writeSys SysReg.ctpsw s.psw)

/-- CTRET: return through the fast-call pair (46_branch.md R304). -/
def execCtret (_len : Len) (s : State) : Result := returnThrough (SysReg.ctpc, SysReg.ctpsw) s

end Sys2Proof.Machine
end

