-- ==== Sys2Proof/Machine/System.lean ====
section
/-! DEFINITION. Trap, host-call gate and system-register operations (45_system.md R280 to R288). -/

namespace Sys2Proof.Machine

/-- The functions behind the gate, but exit (45_system.md R282). -/
inductive HostFn where
  | read | write | open' | close | lseek | stat | chmod | chown | time | times | gettimeofday | utime | fork | execve
  deriving DecidableEq, Repr

/-- The function a selector names; exit is tested before (45_system.md R281, R282). Should two of the OPEN numbers
coincide, the table's first row is taken. DESIGN CHOICE (log 13), safe. -/
def hostFn (t : Selectors) (sel : Word) : Option HostFn :=
  if sel = t.read then some .read
  else if sel = t.write then some .write
  else if sel = t.open' then some .open'
  else if sel = t.close then some .close
  else if sel = t.lseek then some .lseek
  else if sel = t.stat then some .stat
  else if sel = t.chmod then some .chmod
  else if sel = t.chown then some .chown
  else if sel = t.time then some .time
  else if sel = t.times then some .times
  else if sel = t.gettimeofday then some .gettimeofday
  else if sel = t.utime then some .utime
  else if sel = t.fork then some .fork
  else if sel = t.execve then some .execve
  else none

/-- `a` is one of the `n` addresses from `base`; addresses wrap. -/
def withinBytes (a base n : Word) : Bool := (a - base).toNat < n.toNat

/-- The bytes a host call may write (45_system.md R282, last column). The extents of the stat, tms and timeval buffers
are not in the spec, so any byte may be written there. DEDUCED (log 12), unsafe where the table is. -/
def hostMayWrite (f : HostFn) (s : State) (a : Word) : Bool :=
  match f with
  | .read => withinBytes a (s.readReg 8) (s.readReg 9)
  | .time => s.readReg 7 != 0 && withinBytes a (s.readReg 7) 4
  | .stat | .times | .gettimeofday => true
  | .write | .open' | .close | .lseek | .chmod | .chown | .utime | .fork | .execve => false

/-- Bytes written one after the other through the port (20_memory.md R76). -/
def writeAll (s : State) : List (Word × Byte) → State
  | [] => s
  | (a, v) :: ws => writeAll (s.memWrite a 1 (v.setWidth 32)) ws

/-- The bytes a host call writes: the host's free writes within the bytes it may write (45_system.md R281, R282). -/
def hostBytes (f : HostFn) (s : State) : List (Word × Byte) :=
  (Config.hostWrites s.draws s).filter fun p => hostMayWrite f s p.1

/-- The state after the host's writes, written so that all but memory and the fetcher's program is plainly as before
(20_memory.md R76). -/
def hostWritten (f : HostFn) (s : State) : State :=
  (s.setMem (writeAll s (hostBytes f s)).mem).setProgram (writeAll s (hostBytes f s)).program

/-- A served host call: memory, then x[10] and x[11], then `Next(4)` (45_system.md R281; log 12). -/
def hostServe (f : HostFn) (s : State) : Result :=
  advance 4
    ((((hostWritten f s).writeReg 10 (Config.hostReturn s.draws s)).writeReg 11
      (Config.hostError s.draws s)).bumpDraws)

/-- The host-call gate (45_system.md R281, R283, R284). -/
def hostCall (s : State) : Result :=
  if s.readReg 6 = s.params.selectors.exit then exitRun (Config.exitDecode (s.readReg 7)) s
  else
    match hostFn s.params.selectors (s.readReg 6) with
    | some f => hostServe f s
    | none => abortRun s

/-- TRAP for either value of HOSTCALL_GATE (45_system.md R280). -/
def trapOrCall (gate : Bool) (code : BitVec 5) (s : State) : Result :=
  if code.toNat ≤ 30 || !gate then raiseTrap code s else hostCall s

/-- TRAP: a software trap, or the host-call gate for code 31 (45_system.md R280). -/
def execTrap (code : BitVec 5) (_len : Len) (s : State) : Result := trapOrCall Config.hostcallGate code s

/-- RETI: return from an exception (45_system.md R285). -/
def execReti (_len : Len) (s : State) : Result := returnThrough (retiPair s) s

/-- LDSR: load a system register (45_system.md R286). -/
def execLdsr (ra : Reg) (sr : SysReg) (len : Len) (s : State) : Result :=
  advanceLen len (s.writeSys sr (s.readReg ra))

/-- STSR: store a system register (45_system.md R287). -/
def execStsr (rd : Reg) (sr : SysReg) (len : Len) (s : State) : Result :=
  advanceLen len (s.writeReg rd (s.readSys sr))

/-- BRKPT: software breakpoint (45_system.md R288). -/
def execBrkpt (s : State) : Result := breakRun s

end Sys2Proof.Machine
end

