-- ==== Sys2Proof/Machine/Transfer.lean ====
section
/-! DEFINITION. The register-list transfer sequencer (44_transfer.md R250 to R260). -/

namespace Sys2Proof.Machine

/-- A word a list transfers: a general register or a system-register entry (44_transfer.md R250). -/
inductive Slot where
  | reg (r : Reg)
  | sys (n : SysReg)
  deriving DecidableEq, Repr

/-- The registers `base + i` for the set mask bits i below `count`, in ascending order (44_transfer.md R250). -/
def regSlots (mask : BitVec 18) (count base : Nat) : List Slot :=
  (List.range count).filterMap fun i =>
    if mask.getLsbD i then some (.reg (Fin.ofNat 32 (base + i))) else none

/-- Slots that one mask bit includes. -/
def slotsIf (mask : BitVec 18) (i : Nat) (xs : List Slot) : List Slot := if mask.getLsbD i then xs else []

/-- The context pair (saved PC, saved PSW) a list uses: FE when NP = 1 and EP = 0, else EI, by PSW at the start of the
command (44_transfer.md R253). -/
def contextPair (s : State) : SysReg × SysReg :=
  if s.flag .np && !s.flag .ep then (SysReg.fepc, SysReg.fepsw) else (SysReg.eipc, SysReg.eipsw)

/-- Table A, lowest index first: x[20] to x[31] (44_transfer.md R250). -/
def tableA (mask : BitVec 18) : List Slot := regSlots mask 12 20

/-- Table B, lowest index first: x[16] to x[31], saved PSW, saved PC (44_transfer.md R250). -/
def tableB (mask : BitVec 18) (pair : SysReg × SysReg) : List Slot :=
  regSlots mask 16 16 ++ slotsIf mask 16 [.sys pair.2] ++ slotsIf mask 17 [.sys pair.1]

/-- Table C, lowest index first: x[1] to x[15], PSW, the pair with saved PC above saved PSW (44_transfer.md R250). -/
def tableC (mask : BitVec 18) (pair : SysReg × SysReg) : List Slot :=
  regSlots mask 15 1 ++ slotsIf mask 15 [.sys SysReg.psw] ++ slotsIf mask 16 [.sys pair.2, .sys pair.1]

/-- The word of a slot. -/
def slotValue (s : State) : Slot → Word
  | .reg r => s.readReg r
  | .sys n => s.readSys n

/-- A loaded word into its slot; the word of x[3] is discarded (44_transfer.md R254). -/
def loadSlot (x : Slot) (v : Word) (s : State) : State :=
  match x with
  | .reg r => if r = Reg.sp then s else s.writeReg r v
  | .sys n => s.writeSys n v

/-- The store sequence over slots given highest index first: the counter and the state after it (44_transfer.md R251). -/
def pushSlots : List Slot → Word → State → Word × State
  | [], t, s => (t, s)
  | x :: xs, t, s => pushSlots xs (t - 4) (s.memWrite (alignWord (t - 4)) 4 (slotValue s x))

/-- The load sequence over slots given lowest index first: the counter and the state after it (44_transfer.md R252). -/
def popSlots : List Slot → Word → State → Word × State
  | [], t, s => (t, s)
  | x :: xs, t, s => popSlots xs (t + 4) (loadSlot x (s.memRead (alignWord t) 4) s)

/-- A push of a list given lowest index first, and x[3] left at the counter (44_transfer.md R251, R254). -/
def pushList (xs : List Slot) (s : State) : State :=
  let p := pushSlots xs.reverse (s.readReg Reg.sp) s
  p.2.writeReg Reg.sp p.1

/-- A pop of a list given lowest index first from a counter, and x[3] left at the counter (44_transfer.md R252, R254). -/
def popList (xs : List Slot) (t : Word) (s : State) : State :=
  let p := popSlots xs t s
  p.2.writeReg Reg.sp p.1

/-- The bytes of a stack frame of `frame` words (44_transfer.md R255). -/
def frameBytes (frame : BitVec 5) : Word := frame.setWidth 32 <<< 2

/-- PREPARE's base-pointer write, from the stack pointer after the allocation (44_transfer.md R255). On the step
the reserved options never reach it: R95 item 6 refuses them; their nothing here is a placeholder. DESIGN CHOICE (log 18),
safe. -/
def writeEp (e : EpOption) (s : State) : State :=
  match e with
  | .none | .reserved _ => s
  | .sp => s.writeReg Reg.ep (s.readReg Reg.sp)
  | .simm16 v => s.writeReg Reg.ep (v.signExtend 32)
  | .himm16 v => s.writeReg Reg.ep (v.setWidth 32 <<< 16)
  | .imm32 v => s.writeReg Reg.ep v

/-- The stack frame allocated below the stored list (44_transfer.md R255). -/
def allocFrame (frame : BitVec 5) (s : State) : State := s.writeReg Reg.sp (s.readReg Reg.sp - frameBytes frame)

/-- PREPARE: stack-frame setup (44_transfer.md R255). -/
def execPrepare (mask : BitVec 18) (frame : BitVec 5) (ep : EpOption) (len : Len) (s : State) : Result :=
  advanceLen len (writeEp ep (allocFrame frame (pushList (tableA mask) s)))

/-- DISPOSE: stack-frame teardown; the jump register is read after the restore (44_transfer.md R256). -/
def execDispose (mask : BitVec 18) (frame : BitVec 5) (jmp : Option Reg) (len : Len) (s : State) : Result :=
  let s1 := popList (tableA mask) (s.readReg Reg.sp + frameBytes frame) s
  match jmp with
  | some ra => jumpTo (s1.readReg ra) s1
  | none => advanceLen len s1

/-- PUSHMH (44_transfer.md R257). -/
def execPushmh (mask : BitVec 18) (len : Len) (s : State) : Result :=
  advanceLen len (pushList (tableB mask (contextPair s)) s)

/-- POPMH (44_transfer.md R258). -/
def execPopmh (mask : BitVec 18) (len : Len) (s : State) : Result :=
  advanceLen len (popList (tableB mask (contextPair s)) (s.readReg Reg.sp) s)

/-- PUSHML (44_transfer.md R259). -/
def execPushml (mask : BitVec 18) (len : Len) (s : State) : Result :=
  advanceLen len (pushList (tableC mask (contextPair s)) s)

/-- POPML (44_transfer.md R260). -/
def execPopml (mask : BitVec 18) (len : Len) (s : State) : Result :=
  advanceLen len (popList (tableC mask (contextPair s)) (s.readReg Reg.sp) s)

end Sys2Proof.Machine
end

