-- ==== Sys2Proof/Machine/Dispatch.lean ====
section
/-! DEFINITION. One arm per instruction: the meaning of each (30_encoding.md R92). -/

namespace Sys2Proof.Machine

-- The meaning of an instruction in a state. Well-formedness is checked before it (Machine/Step.lean).
def exec (i : Instr) (s : State) : Host.Outcome State Fault Refusal :=
  match i with
  | .add rd ra b len => Sys2Proof.Machine.execAdd rd ra b len s
  | .addnf rd ra b len => Sys2Proof.Machine.execAddnf rd ra b len s
  | .sub rd ra b len => Sys2Proof.Machine.execSub rd ra b len s
  | .cmp ra b len => Sys2Proof.Machine.execCmp ra b len s
  | .satadd rd ra b len => Sys2Proof.Machine.execSatadd rd ra b len s
  | .satsub rd ra b len => Sys2Proof.Machine.execSatsub rd ra b len s
  | .and rd ra b len => Sys2Proof.Machine.execAnd rd ra b len s
  | .or rd ra b len => Sys2Proof.Machine.execOr rd ra b len s
  | .xor rd ra b len => Sys2Proof.Machine.execXor rd ra b len s
  | .not rd b len => Sys2Proof.Machine.execNot rd b len s
  | .tst ra b len => Sys2Proof.Machine.execTst ra b len s
  | .shl rd ra b len => Sys2Proof.Machine.execShl rd ra b len s
  | .shr rd ra b len => Sys2Proof.Machine.execShr rd ra b len s
  | .sar rd ra b len => Sys2Proof.Machine.execSar rd ra b len s
  | .mov rd b len => Sys2Proof.Machine.execMov rd b len s
  | .sxb rd b len => Sys2Proof.Machine.execSxb rd b len s
  | .sxh rd b len => Sys2Proof.Machine.execSxh rd b len s
  | .zxb rd b len => Sys2Proof.Machine.execZxb rd b len s
  | .zxh rd b len => Sys2Proof.Machine.execZxh rd b len s
  | .mul rd rd2 ra b len => Sys2Proof.Machine.execMul rd rd2 ra b len s
  | .mulu rd rd2 ra b len => Sys2Proof.Machine.execMulu rd rd2 ra b len s
  | .mulh rd ra b len => Sys2Proof.Machine.execMulh rd ra b len s
  | .div rd rem ra b len => Sys2Proof.Machine.execDiv rd rem ra b len s
  | .divu rd rem ra b len => Sys2Proof.Machine.execDivu rd rem ra b len s
  | .divn rd rem ra b n len => Sys2Proof.Machine.execDivn rd rem ra b n len s
  | .divun rd rem ra b n len => Sys2Proof.Machine.execDivun rd rem ra b n len s
  | .divh rd rem ra b len => Sys2Proof.Machine.execDivh rd rem ra b len s
  | .divhu rd rem ra b len => Sys2Proof.Machine.execDivhu rd rem ra b len s
  | .ldb rd ra disp len => Sys2Proof.Machine.execLdb rd ra disp len s
  | .ldbu rd ra disp len => Sys2Proof.Machine.execLdbu rd ra disp len s
  | .ldh rd ra disp len => Sys2Proof.Machine.execLdh rd ra disp len s
  | .ldhu rd ra disp len => Sys2Proof.Machine.execLdhu rd ra disp len s
  | .ldw rd ra disp len => Sys2Proof.Machine.execLdw rd ra disp len s
  | .stb ra rb disp len => Sys2Proof.Machine.execStb ra rb disp len s
  | .sth ra rb disp len => Sys2Proof.Machine.execSth ra rb disp len s
  | .stw ra rb disp len => Sys2Proof.Machine.execStw ra rb disp len s
  | .set1 ra bit disp len => Sys2Proof.Machine.execSet1 ra bit disp len s
  | .clr1 ra bit disp len => Sys2Proof.Machine.execClr1 ra bit disp len s
  | .not1 ra bit disp len => Sys2Proof.Machine.execNot1 ra bit disp len s
  | .tst1 ra bit disp len => Sys2Proof.Machine.execTst1 ra bit disp len s
  | .bcond cond disp len => Sys2Proof.Machine.execBcond cond disp len s
  | .jarl link disp len => Sys2Proof.Machine.execJarl link disp len s
  | .jmp ra len => Sys2Proof.Machine.execJmp ra len s
  | .callt index len => Sys2Proof.Machine.execCallt index len s
  | .ctret len => Sys2Proof.Machine.execCtret len s
  | .trap code len => Sys2Proof.Machine.execTrap code len s
  | .reti len => Sys2Proof.Machine.execReti len s
  | .ldsr ra sr len => Sys2Proof.Machine.execLdsr ra sr len s
  | .stsr rd sr len => Sys2Proof.Machine.execStsr rd sr len s
  | .brkpt => Sys2Proof.Machine.execBrkpt s
  | .prepare mask frame ep len => Sys2Proof.Machine.execPrepare mask frame ep len s
  | .dispose mask frame jmp len => Sys2Proof.Machine.execDispose mask frame jmp len s
  | .pushmh mask len => Sys2Proof.Machine.execPushmh mask len s
  | .popmh mask len => Sys2Proof.Machine.execPopmh mask len s
  | .pushml mask len => Sys2Proof.Machine.execPushml mask len s
  | .popml mask len => Sys2Proof.Machine.execPopml mask len s

end Sys2Proof.Machine
end

