-- ==== Sys2Proof/Machine/Fetch.lean ====
section
/-! DEFINITION. What the external fetcher presents, and which commands the block accepts
(10_state.md R23; 30_encoding.md R90, R95, R100; 20_memory.md R74). -/

namespace Sys2Proof.Machine

/-- The command presented at `pc` (10_state.md R23): the one listed there (log 3). Where none is listed and fetches see
stores, it is what the external decoder makes of the bytes there now, so an instruction stored by the program is presented;
where fetches do not see stores, none is (20_memory.md R74). DESIGN CHOICE (log 4, log 5), safe. -/
def presented (s : State) : Option Command :=
  match lookupKey s.pc.toNat s.program with
  | some c => some c
  | none =>
    if s.params.fetchSeesStores then some (Config.externalDecode s.pc (s.mem.bytes s.pc 8)) else none

/-- The command is well-formed and its operation is admitted (30_encoding.md R95, R100). -/
def accepts (i : Instr) (s : State) : Bool := i.wf && s.params.admitted.contains i.op

/-- A program with a command at an address. -/
def placeCommand (a : Word) (c : Command) (p : List (Nat × Command)) : List (Nat × Command) :=
  insertKey a.toNat c (eraseKey a.toNat p)

end Sys2Proof.Machine
end

