-- ==== Sys2Proof/Machine/Step.lean ====
section
/-! DEFINITION. One step: the command the fetcher presents at `pc`, checked, then executed to completion
(30_encoding.md R90, R95; 60_exceptions.md R410). -/

namespace Sys2Proof.Machine

/-- A presented command: Fault(IllegalCommand) unless it is well-formed and admitted, then its meaning
(30_encoding.md R95, R99, R100; 60_exceptions.md R410). -/
def runCommand (c : Command) (s : State) : Host.Outcome State Fault Refusal :=
  match decode c with
  | .error _ => .fault .illegalCommand
  | .ok i => if accepts i s then exec i s else .fault .illegalCommand

/-- One step of a running block; a block whose run has ended accepts no command (10_state.md R32). -/
def step (s : State) : Host.Outcome State Fault Refusal :=
  match s.status with
  | .running =>
    match presented s with
    | some c => runCommand c s
    | none => .refused .noCommand
  | .exited _ => .refused .runEnded
  | .aborted => .refused .runEnded

/-- The state with a command presented at `pc`: the record whose bits are `w`, every bit above `nbits` zero
(log 3). -/
def State.withFetchWord (s : State) (nbits w : Nat) : State :=
  s.setProgram (placeCommand s.pc (Command.ofBits (tableBits nbits w)) s.program)

end Sys2Proof.Machine
end

