-- ==== Sys2Proof/Safety.lean ====
section
/-! DEFINITION. What counts as a sound state: the invariant every step keeps. -/

namespace Sys2Proof

open Sys2Proof.Machine

/-- The instruction address is even (10_state.md R24), the memory is in its canonical form, and the fetcher presents at
most one command for an address. -/
structure Machine.State.Inv (s : Machine.State) : Prop where
  pcEven   : s.pc.getLsbD 0 = false
  memWf    : s.mem.wf = true
  program  : keysRise s.program = true

/-- A step that does not stop by a fault or a refusal (60_exceptions.md R419). -/
def Safe (s : Machine.State) : Prop := ∃ t, Machine.step s = .next t

end Sys2Proof
end

