-- ==== Sys2Proof/Certificates/Slice0/Obligations.lean ====
section
/-! DEFINITION. The statements for the provers, and the vocabulary they are written in: what an instruction leaves alone,
how it ends, and the write-sets of the spec's tables. -/

namespace Sys2Proof.Claims

open Sys2Proof.Machine

/-! ## Vocabulary -/

/-- The address is even (10_state.md R24). -/
def EvenAddr (a : Word) : Prop := a.getLsbD 0 = false

/-- The instruction completes in a next state that meets `P`. -/
def Runs (i : Instr) (s : State) (P : State → Prop) : Prop := ∃ t, exec i s = .next t ∧ P t

/-- All but the general registers `rs`, the system registers `ns` and the PSW bits `bits` is as before; memory, `pc`, the
outcome and the draw counter are spoken of apart, and so is the fetcher's program, which a store may change. -/
structure KeptByStore (s t : State) (rs : List Reg) (ns : List SysReg) (bits : List Nat) : Prop where
  regs    : ∀ q : Reg, q ∉ rs → t.readReg q = s.readReg q
  sys     : ∀ k : SysReg, k ∉ ns → k ≠ SysReg.psw → t.readSys k = s.readSys k
  psw     : ∀ i : Nat, i ∉ bits → t.psw.getLsbD i = s.psw.getLsbD i
  status  : t.status = s.status
  params  : t.params = s.params

/-- As `KeptByStore`, and the fetcher's program is as before. -/
structure Kept (s t : State) (rs : List Reg) (ns : List SysReg) (bits : List Nat) : Prop
    extends KeptByStore s t rs ns bits where
  program : t.program = s.program

/-- Every byte of memory reads as before. -/
def MemKept (s t : State) : Prop := ∀ a : Word, t.mem.readByte a = s.mem.readByte a

/-- Every byte of memory but the `n` bytes from `a` reads as before; addresses wrap. -/
def MemKeptOutside (s t : State) (a : Word) (n : Nat) : Prop :=
  ∀ b : Word, n ≤ (b - a).toNat → t.mem.readByte b = s.mem.readByte b

/-- The command ends with `Next(d)` (30_encoding.md R96, R97). -/
def EndsNext (s t : State) (d : Word) : Prop := t.pc = s.pc + d ∧ t.lastOutcome = some (.next d)

/-- The command ends with `Jump` at `a` (30_encoding.md R96, R97). -/
def EndsJump (t : State) (a : Word) : Prop := t.pc = a ∧ t.lastOutcome = some .jump

/-- A command that writes only the registers `rs` and the PSW bits `bits`, and ends with `Next(len)`. -/
def Plain (s t : State) (rs : List Reg) (bits : List Nat) (len : Len) : Prop :=
  Kept s t rs [] bits ∧ MemKept s t ∧ EndsNext s t (lenBytes len)

/-- Z and S of a result (41_alu.md R151). -/
def ZS (t : State) (r : Word) : Prop :=
  t.psw.getLsbD 0 = decide (r = 0) ∧ t.psw.getLsbD 1 = r.getLsbD 31

/-- CY and OV of the addition of `x` and `y` (41_alu.md R152). -/
def AddCyOv (t : State) (x y : Word) : Prop :=
  t.psw.getLsbD 3 = decide ((x + y).toNat < x.toNat ∨ (x + y).toNat < y.toNat) ∧
  t.psw.getLsbD 2 = decide (x.getLsbD 31 = y.getLsbD 31 ∧ (x + y).getLsbD 31 ≠ x.getLsbD 31)

/-- CY and OV of the subtraction of `y` from `x` (41_alu.md R153). -/
def SubCyOv (t : State) (x y : Word) : Prop :=
  t.psw.getLsbD 3 = decide (x.toNat < y.toNat) ∧
  t.psw.getLsbD 2 = decide (x.getLsbD 31 ≠ y.getLsbD 31 ∧ (x - y).getLsbD 31 ≠ x.getLsbD 31)

/-- The value a saturating operation stores for the wrapped result `r`, and SAT (41_alu.md R154). -/
def Saturates (s t : State) (v r : Word) : Prop :=
  v = (if t.psw.getLsbD 2 then (if r.getLsbD 31 then 0x7FFFFFFF else 0x80000000) else r) ∧
  t.psw.getLsbD 4 = (s.psw.getLsbD 4 || t.psw.getLsbD 2)

/-! ## The fields and write-sets of the spec's tables -/

/-- The `len` field, where the operation uses it (30_encoding.md R92). -/
def lenOf : Instr → Option Len
  | .add _ _ _ l | .addnf _ _ _ l | .sub _ _ _ l | .satadd _ _ _ l | .satsub _ _ _ l | .and _ _ _ l | .or _ _ _ l
  | .xor _ _ _ l | .shl _ _ _ l | .shr _ _ _ l | .sar _ _ _ l | .mulh _ _ _ l => some l
  | .cmp _ _ l | .not _ _ l | .tst _ _ l | .mov _ _ l | .sxb _ _ l | .sxh _ _ l | .zxb _ _ l | .zxh _ _ l => some l
  | .mul _ _ _ _ l | .mulu _ _ _ _ l | .div _ _ _ _ l | .divu _ _ _ _ l | .divh _ _ _ _ l | .divhu _ _ _ _ l => some l
  | .divn _ _ _ _ _ l | .divun _ _ _ _ _ l => some l
  | .ldb _ _ _ l | .ldbu _ _ _ l | .ldh _ _ _ l | .ldhu _ _ _ l | .ldw _ _ _ l | .stb _ _ _ l | .sth _ _ _ l
  | .stw _ _ _ l | .set1 _ _ _ l | .clr1 _ _ _ l | .not1 _ _ _ l | .tst1 _ _ _ l => some l
  | .bcond _ _ l | .jarl _ _ l | .jmp _ l | .callt _ l | .ctret l | .trap _ l | .reti l | .ldsr _ _ l | .stsr _ _ l => some l
  | .brkpt => none
  | .prepare _ _ _ l | .dispose _ _ _ l | .pushmh _ l | .popmh _ l | .pushml _ l | .popml _ l => some l

/-- The second operand, where there is one (30_encoding.md R92, R94). -/
def operandB : Instr → Option OperandB
  | .add _ _ b _ | .addnf _ _ b _ | .sub _ _ b _ | .satadd _ _ b _ | .satsub _ _ b _ | .and _ _ b _ | .or _ _ b _
  | .xor _ _ b _ | .shl _ _ b _ | .shr _ _ b _ | .sar _ _ b _ | .mulh _ _ b _ => some b
  | .cmp _ b _ | .not _ b _ | .tst _ b _ | .mov _ b _ | .sxb _ b _ | .sxh _ b _ | .zxb _ b _ | .zxh _ b _ => some b
  | .mul _ _ _ b _ | .mulu _ _ _ b _ | .div _ _ _ b _ | .divu _ _ _ b _ | .divh _ _ _ b _ | .divhu _ _ _ b _ => some b
  | .divn _ _ _ b _ _ | .divun _ _ _ b _ _ => some b
  | _ => none

/-- The displacement of an operation that always reads an immediate (30_encoding.md R95 item 3). -/
def displacement : Instr → Option Imm
  | .ldb _ _ d _ | .ldbu _ _ d _ | .ldh _ _ d _ | .ldhu _ _ d _ | .ldw _ _ d _ | .stb _ _ d _ | .sth _ _ d _
  | .stw _ _ d _ | .set1 _ _ d _ | .clr1 _ _ d _ | .not1 _ _ d _ | .tst1 _ _ d _ | .jarl _ d _ => some d
  | _ => none

/-- The immediate the operation reads (30_encoding.md R95 item 3). -/
def ReadsImm (i : Instr) (d : Imm) : Prop := displacement i = some d ∨ operandB i = some (.imm d)

/-- The division width field (30_encoding.md R95 item 4). -/
def widthOf : Instr → Option (BitVec 6)
  | .divn _ _ _ _ n _ | .divun _ _ _ _ n _ => some n
  | _ => none

/-- The mask bits that must be 0 (30_encoding.md R95 item 5). -/
def maskZeros : Instr → Option (BitVec 18 × List Nat)
  | .prepare m _ _ _ | .dispose m _ _ _ => some (m, [12, 13, 14, 15, 16, 17])
  | .pushml m _ | .popml m _ => some (m, [17])
  | _ => none

/-- PREPARE's option fixes its length (30_encoding.md R95 item 6). -/
def epLen : EpOption → Option Len
  | .none | .sp => some 4
  | .simm16 _ | .himm16 _ => some 6
  | .imm32 _ => some 8
  | .reserved _ => none

/-- Well-formedness as 30_encoding.md R95 lists it, items 2 to 7; BRKPT uses no `len` (log 16). -/
structure MeetsR95 (i : Instr) : Prop where
  item2       : ∀ l, lenOf i = some l → l = 2 ∨ l = 4 ∨ l = 6 ∨ l = 8
  item2_bcond : ∀ c d l, i = .bcond c d l → l = 2
  item2_trap  : ∀ c l, i = .trap c l → l = 4
  item3       : ∀ d, ReadsImm i d → d.ext ≠ .reserved ∧ 1 ≤ d.iw.toNat ∧ d.iw.toNat ≤ 32
  item4       : ∀ n, widthOf i = some n → 1 ≤ n.toNat ∧ n.toNat ≤ 32
  item5       : ∀ m zs, maskZeros i = some (m, zs) → ∀ k ∈ zs, m.getLsbD k = false
  item6       : ∀ m f e l, i = .prepare m f e l → epLen e = some l

/-- The PSW bits an operation may write (41_alu.md R150); none where it may replace the whole PSW. -/
def pswWrites : Instr → Option (List Nat)
  | .add _ _ _ _ | .sub _ _ _ _ | .cmp _ _ _ => some [0, 1, 2, 3]
  | .satadd _ _ _ _ | .satsub _ _ _ _ => some [0, 1, 2, 3, 4]
  | .and _ _ _ _ | .or _ _ _ _ | .xor _ _ _ _ | .not _ _ _ | .tst _ _ _ => some [0, 1, 2]
  | .shl _ _ _ _ | .shr _ _ _ _ | .sar _ _ _ _ => some [0, 1, 2, 3]
  | .div _ _ _ _ _ | .divu _ _ _ _ _ | .divn _ _ _ _ _ _ | .divun _ _ _ _ _ _ | .divh _ _ _ _ _
  | .divhu _ _ _ _ _ => some [0, 1, 2]
  | .set1 _ _ _ _ | .clr1 _ _ _ _ | .not1 _ _ _ _ | .tst1 _ _ _ _ => some [0]
  | .ctret _ | .reti _ => none
  | .trap c _ => if c.toNat ≤ 30 then some [5, 6] else some []
  | .ldsr _ n _ => if n = SysReg.psw then none else some []
  | .popml m _ => if m.getLsbD 15 then none else some []
  | _ => some []

/-- The general registers an operation may write (30_encoding.md R92; 10_state.md R22; 44_transfer.md R250). -/
def regWrites : Instr → List Reg
  | .add rd _ _ _ | .addnf rd _ _ _ | .sub rd _ _ _ | .satadd rd _ _ _ | .satsub rd _ _ _ | .and rd _ _ _ | .or rd _ _ _
  | .xor rd _ _ _ | .shl rd _ _ _ | .shr rd _ _ _ | .sar rd _ _ _ | .mulh rd _ _ _ => [rd]
  | .not rd _ _ | .mov rd _ _ | .sxb rd _ _ | .sxh rd _ _ | .zxb rd _ _ | .zxh rd _ _ => [rd]
  | .mul rd rd2 _ _ _ | .mulu rd rd2 _ _ _ => [rd, rd2]
  | .div rd rem _ _ _ | .divu rd rem _ _ _ | .divh rd rem _ _ _ | .divhu rd rem _ _ _ => rd :: rem.toList
  | .divn rd rem _ _ _ _ | .divun rd rem _ _ _ _ => rd :: rem.toList
  | .ldb rd _ _ _ | .ldbu rd _ _ _ | .ldh rd _ _ _ | .ldhu rd _ _ _ | .ldw rd _ _ _ => [rd]
  | .jarl link _ _ => link.toList
  | .trap c _ => if c.toNat ≤ 30 then [] else [10, 11]
  | .stsr rd _ _ => [rd]
  | .prepare _ _ e _ => if e = .none then [3] else [3, 30]
  | .dispose m _ _ _ => 3 :: (List.range 12).filterMap fun k => if m.getLsbD k then some (Fin.ofNat 32 (20 + k)) else none
  | .pushmh _ _ | .pushml _ _ => [3]
  | .popmh m _ => 3 :: (List.range 16).filterMap fun k => if m.getLsbD k then some (Fin.ofNat 32 (16 + k)) else none
  | .popml m _ => 3 :: (List.range 15).filterMap fun k => if m.getLsbD k then some (Fin.ofNat 32 (1 + k)) else none
  | _ => []

/-- The system registers but PSW an operation may write (10_state.md R29, R30; 44_transfer.md R250, R253). -/
def sysWrites (s : State) : Instr → List SysReg
  | .callt _ _ => [SysReg.ctpc, SysReg.ctpsw]
  | .trap c _ => if c.toNat ≤ 30 then [SysReg.eipc, SysReg.eipsw, SysReg.ecr] else []
  | .ldsr _ n _ => [n]
  | .popmh m _ =>
    (if m.getLsbD 16 then [if s.psw.getLsbD 7 && !s.psw.getLsbD 6 then SysReg.fepsw else SysReg.eipsw] else []) ++
    (if m.getLsbD 17 then [if s.psw.getLsbD 7 && !s.psw.getLsbD 6 then SysReg.fepc else SysReg.eipc] else [])
  | .popml m _ =>
    if m.getLsbD 16 then
      (if s.psw.getLsbD 7 && !s.psw.getLsbD 6 then [SysReg.fepc, SysReg.fepsw] else [SysReg.eipc, SysReg.eipsw])
    else []
  | _ => []

/-- The operations that may write memory: stores, the writing bit operations, the pushes, and the host's writes in a host
call (20_memory.md R67; 45_system.md R281). -/
def MayStore : Instr → Bool
  | .stb _ _ _ _ | .sth _ _ _ _ | .stw _ _ _ _ | .set1 _ _ _ _ | .clr1 _ _ _ _ | .not1 _ _ _ _ => true
  | .prepare _ _ _ _ | .pushmh _ _ | .pushml _ _ => true
  | .trap c _ => c.toNat == 31
  | _ => false

/-- A push of the list `xs` stores to the byte `b`: its words stand above the new stack pointer (44_transfer.md R251). -/
def PushStoresTo (s : State) (xs : List Slot) (b : Word) : Prop :=
  ∃ j < xs.length,
    (b - alignWord (s.readReg 3 - BitVec.ofNat 32 (4 * xs.length) + BitVec.ofNat 32 (4 * j))).toNat < 4

/-- The instruction stores to the byte `b`, whatever it stores there (20_memory.md R67; 47_loadstore_bit.md R320, R326 to R332;
44_transfer.md R251, R252, R255, R257, R259; 45_system.md R281). The bytes a served host call writes are free (log 12). -/
def StoresTo (s : State) (b : Word) : Instr → Prop
  | .stb ra _ d _ | .set1 ra _ d _ | .clr1 ra _ d _ | .not1 ra _ d _ => b = s.readReg ra + immVal d
  | .sth ra _ d _ => (b - ((s.readReg ra + immVal d) &&& 0xFFFFFFFE)).toNat < 2
  | .stw ra _ d _ => (b - ((s.readReg ra + immVal d) &&& 0xFFFFFFFC)).toNat < 4
  | .prepare m _ _ _ => PushStoresTo s (tableA m) b
  | .pushmh m _ => PushStoresTo s (tableB m (contextPair s)) b
  | .pushml m _ => PushStoresTo s (tableC m (contextPair s)) b
  | .trap c _ => c.toNat = 31 ∧ s.readReg 6 ≠ s.params.selectors.exit ∧
      ∃ f, hostFn s.params.selectors (s.readReg 6) = some f ∧ b ∈ (hostBytes f s).map Prod.fst
  | _ => False

/-- The operations that set `pc` to a target of their own (60_exceptions.md R400, last row). -/
def ControlFlow : Instr → Bool
  | .bcond _ _ _ | .jarl _ _ _ | .jmp _ _ | .callt _ _ | .ctret _ | .reti _ => true
  | .dispose _ _ (some _) _ => true
  | _ => false

/-- The operations that replace the whole PSW (10_state.md R25). -/
def LoadsPsw (i : Instr) : Prop := pswWrites i = none

/-- A transferred list with its slots' words in ascending order of address from `t` (44_transfer.md R251, R252): slot `j`
is the word at `t + 4j`, aligned. -/
def SlotAddr (t : Word) (j : Nat) : Word := alignWord (t + BitVec.ofNat 32 (4 * j))

/-- What a push of the list `xs` (lowest index first) leaves: slot `j` of the list at the `j`-th word above the new stack
pointer, x[3] lowered by 4 for each, and every other byte as before (44_transfer.md R251, R254). -/
def Pushed (s t : State) (xs : List Slot) : Prop :=
  let sp := s.readReg 3 - BitVec.ofNat 32 (4 * xs.length)
  (∀ j, (h : j < xs.length) → t.memRead (SlotAddr sp j) 4 = slotValue s (xs[j]'h)) ∧
  (∀ b : Word, (∀ j < xs.length, 4 ≤ (b - SlotAddr sp j).toNat) → t.mem.readByte b = s.mem.readByte b)

/-- What a pop of the list `xs` (lowest index first) from the counter `t0` leaves in the slots: the `j`-th word above `t0`
in slot `j`, but for x[3], whose word is discarded (44_transfer.md R252, R254). -/
def Popped (s t : State) (xs : List Slot) (t0 : Word) : Prop :=
  t.readReg 3 = t0 + BitVec.ofNat 32 (4 * xs.length) ∧
  ∀ j, (h : j < xs.length) → (xs[j]'h) ≠ .reg 3 → slotValue t (xs[j]'h) = s.memRead (SlotAddr t0 j) 4

/-- The quotient and remainder of a divide that does not overflow: truncation toward zero, the remainder with the sign of
the dividend (43_divide.md R221). -/
def DividesTo (x y q r : Int) : Prop :=
  x = q * y + r ∧ |r| < |y| ∧ (0 ≤ x → 0 ≤ r) ∧ (x ≤ 0 → r ≤ 0)

/-- What every divide leaves, by its overflow condition `ov`, the quotient `q` and the remainder `r`
(43_divide.md R224, R225). -/
def DivideLeaves (s t : State) (rd : Reg) (rem : Option Reg) (len : Len) (q r : Word) (ov : Prop) : Prop :=
  (∀ rd2, rem = some rd2 → t.readReg rd2 = r) ∧
  (rem ≠ some rd → t.readReg rd = q) ∧
  ZS t q ∧ (t.psw.getLsbD 2 = true ↔ ov) ∧ Plain s t (rd :: rem.toList) [0, 1, 2] len

/-- A signed divide of width `n` (43_divide.md R221 to R225). -/
def SignedDivide (s t : State) (n : Nat) (x y : Word) (rd : Reg) (rem : Option Reg) (len : Len) : Prop :=
  ∃ q r : Word,
    let ov := y = 0 ∨ x.toInt.tdiv y.toInt < -(2 ^ (n - 1)) ∨ 2 ^ (n - 1) - 1 < x.toInt.tdiv y.toInt
    DivideLeaves s t rd rem len q r ov ∧ (¬ ov → DividesTo x.toInt y.toInt q.toInt r.toInt)

/-- An unsigned divide of width `n` (43_divide.md R221 to R225). -/
def UnsignedDivide (s t : State) (n : Nat) (x y : Word) (rd : Reg) (rem : Option Reg) (len : Len) : Prop :=
  ∃ q r : Word,
    let ov := y = 0 ∨ 2 ^ n - 1 < x.toNat / y.toNat
    DivideLeaves s t rd rem len q r ov ∧ (¬ ov → DividesTo x.toNat y.toNat q.toNat r.toNat)

/-- The op values 30_encoding.md R99 lists as reserved. -/
def ReservedOp (c : Nat) : Prop :=
  c = 0x00 ∨ (0x14 ≤ c ∧ c ≤ 0x1F) ∨ (0x23 ≤ c ∧ c ≤ 0x27) ∨ (0x2E ≤ c ∧ c ≤ 0x2F) ∨ (0x35 ≤ c ∧ c ≤ 0x37) ∨
  (0x3B ≤ c ∧ c ≤ 0x3F) ∨ (0x44 ≤ c ∧ c ≤ 0x4F) ∨ (0x55 ≤ c ∧ c ≤ 0x5F) ∨ (0x65 ≤ c ∧ c ≤ 0x6F) ∨
  (0x76 ≤ c ∧ c ≤ 0xFF)

/-- Field `ext` of a record: 0 SEXT, 1 ZEXT, 2 HI16, 3 reserved (30_encoding.md R91). -/
def fieldExt (c : Command) : Ext :=
  match c.ext.toNat with
  | 0 => .sext
  | 1 => .zext
  | 2 => .hi16
  | _ => .reserved

/-- The immediate fields of a record (30_encoding.md R91, R93). -/
def fieldImm (c : Command) : Imm := ⟨fieldExt c, c.iw, c.imm⟩

/-- The second operand of a record: `bsel` 0 is the register `rb`, 1 the immediate (30_encoding.md R91, R94). -/
def fieldB (c : Command) : OperandB :=
  match c.bsel.toNat with
  | 0 => .reg c.rb.toFin
  | _ => .imm (fieldImm c)

/-- A register that a flag field of a record (`link`, `wr2`, `jmp`) names when it is 1 (30_encoding.md R91). -/
def fieldOpt (flag : BitVec 1) (r : BitVec 5) : Option Reg :=
  match flag.toNat with
  | 0 => none
  | _ => some r.toFin

/-- Field `epm` of a record: 0 none, 1 SP, 2 SIMM16, 3 HIMM16, 4 IMM32, else reserved (30_encoding.md R91, R95 item 6). -/
def fieldEp (c : Command) : EpOption :=
  match c.epm.toNat with
  | 0 => .none
  | 1 => .sp
  | 2 => .simm16 (c.imm.extractLsb' 0 16)
  | 3 => .himm16 (c.imm.extractLsb' 0 16)
  | 4 => .imm32 c.imm
  | k => .reserved (Fin.ofNat 3 (k - 5))

/-- The table of 30_encoding.md R92, row by row: the op value, and the operation on the fields its last column lists. -/
def recordTable : List (BitVec 8 × (Command → Instr)) :=
  [(0x01, fun c => .add c.rd.toFin c.ra.toFin (fieldB c) c.len),
   (0x02, fun c => .addnf c.rd.toFin c.ra.toFin (fieldB c) c.len),
   (0x03, fun c => .sub c.rd.toFin c.ra.toFin (fieldB c) c.len),
   (0x04, fun c => .cmp c.ra.toFin (fieldB c) c.len),
   (0x05, fun c => .satadd c.rd.toFin c.ra.toFin (fieldB c) c.len),
   (0x06, fun c => .satsub c.rd.toFin c.ra.toFin (fieldB c) c.len),
   (0x07, fun c => .and c.rd.toFin c.ra.toFin (fieldB c) c.len),
   (0x08, fun c => .or c.rd.toFin c.ra.toFin (fieldB c) c.len),
   (0x09, fun c => .xor c.rd.toFin c.ra.toFin (fieldB c) c.len),
   (0x0A, fun c => .not c.rd.toFin (fieldB c) c.len),
   (0x0B, fun c => .tst c.ra.toFin (fieldB c) c.len),
   (0x0C, fun c => .shl c.rd.toFin c.ra.toFin (fieldB c) c.len),
   (0x0D, fun c => .shr c.rd.toFin c.ra.toFin (fieldB c) c.len),
   (0x0E, fun c => .sar c.rd.toFin c.ra.toFin (fieldB c) c.len)] ++
  [(0x0F, fun c => .mov c.rd.toFin (fieldB c) c.len),
   (0x10, fun c => .sxb c.rd.toFin (fieldB c) c.len),
   (0x11, fun c => .sxh c.rd.toFin (fieldB c) c.len),
   (0x12, fun c => .zxb c.rd.toFin (fieldB c) c.len),
   (0x13, fun c => .zxh c.rd.toFin (fieldB c) c.len),
   (0x20, fun c => .mul c.rd.toFin c.rd2.toFin c.ra.toFin (fieldB c) c.len),
   (0x21, fun c => .mulu c.rd.toFin c.rd2.toFin c.ra.toFin (fieldB c) c.len),
   (0x22, fun c => .mulh c.rd.toFin c.ra.toFin (fieldB c) c.len),
   (0x28, fun c => .div c.rd.toFin (fieldOpt c.wr2 c.rd2) c.ra.toFin (fieldB c) c.len),
   (0x29, fun c => .divu c.rd.toFin (fieldOpt c.wr2 c.rd2) c.ra.toFin (fieldB c) c.len),
   (0x2A, fun c => .divn c.rd.toFin (fieldOpt c.wr2 c.rd2) c.ra.toFin (fieldB c) c.n c.len),
   (0x2B, fun c => .divun c.rd.toFin (fieldOpt c.wr2 c.rd2) c.ra.toFin (fieldB c) c.n c.len),
   (0x2C, fun c => .divh c.rd.toFin (fieldOpt c.wr2 c.rd2) c.ra.toFin (fieldB c) c.len),
   (0x2D, fun c => .divhu c.rd.toFin (fieldOpt c.wr2 c.rd2) c.ra.toFin (fieldB c) c.len)] ++
  [(0x30, fun c => .ldb c.rd.toFin c.ra.toFin (fieldImm c) c.len),
   (0x31, fun c => .ldbu c.rd.toFin c.ra.toFin (fieldImm c) c.len),
   (0x32, fun c => .ldh c.rd.toFin c.ra.toFin (fieldImm c) c.len),
   (0x33, fun c => .ldhu c.rd.toFin c.ra.toFin (fieldImm c) c.len),
   (0x34, fun c => .ldw c.rd.toFin c.ra.toFin (fieldImm c) c.len),
   (0x38, fun c => .stb c.ra.toFin c.rb.toFin (fieldImm c) c.len),
   (0x39, fun c => .sth c.ra.toFin c.rb.toFin (fieldImm c) c.len),
   (0x3A, fun c => .stw c.ra.toFin c.rb.toFin (fieldImm c) c.len),
   (0x40, fun c => .set1 c.ra.toFin c.bit.toFin (fieldImm c) c.len),
   (0x41, fun c => .clr1 c.ra.toFin c.bit.toFin (fieldImm c) c.len),
   (0x42, fun c => .not1 c.ra.toFin c.bit.toFin (fieldImm c) c.len),
   (0x43, fun c => .tst1 c.ra.toFin c.bit.toFin (fieldImm c) c.len),
   (0x50, fun c => .bcond c.cond (c.imm.extractLsb' 0 9) c.len),
   (0x51, fun c => .jarl (fieldOpt c.link c.rd) (fieldImm c) c.len)] ++
  [(0x52, fun c => .jmp c.ra.toFin c.len),
   (0x53, fun c => .callt (c.imm.extractLsb' 0 6) c.len),
   (0x54, fun c => .ctret c.len),
   (0x60, fun c => .trap c.code c.len),
   (0x61, fun c => .reti c.len),
   (0x62, fun c => .ldsr c.ra.toFin c.sr.toFin c.len),
   (0x63, fun c => .stsr c.rd.toFin c.sr.toFin c.len),
   (0x64, fun _ => .brkpt),
   (0x70, fun c => .prepare c.mask c.frame (fieldEp c) c.len),
   (0x71, fun c => .dispose c.mask c.frame (fieldOpt c.jmp c.ra) c.len),
   (0x72, fun c => .pushmh c.mask c.len),
   (0x73, fun c => .popmh c.mask c.len),
   (0x74, fun c => .pushml c.mask c.len),
   (0x75, fun c => .popml c.mask c.len)]

/-- The block is running and the fetcher presents a command. -/
def Presents (s : State) (c : Command) : Prop := s.status = .running ∧ presented s = some c

end Sys2Proof.Claims

open Sys2Proof Sys2Proof.Machine Sys2Proof.Claims

/-! ## Encoding -/

/-- The packing is the model's choice (log 1). -/
def Obligations.EncodedInstructionDecodesToItself : Prop :=
  ∀ (i : Instr) (rest : List Byte), i.wf = true → decodeBytes (encodeBytes i ++ rest) = .ok (i, rest)

/-- 30_encoding.md R99. -/
def Obligations.ReservedValuesFault : Prop :=
  (∀ (s : State) (c : Command), Presents s c → ReservedOp c.op.toNat → step s = .fault .illegalCommand) ∧
  (∀ (s : State) (c : Command) (i : Instr) (d : Imm), Presents s c → decode c = .ok i → ReadsImm i d →
    d.ext = .reserved → step s = .fault .illegalCommand) ∧
  (∀ c : Command, ¬ ReservedOp c.op.toNat → ∃ i, decode c = .ok i)

/-- 30_encoding.md R92, R91: a record whose op is a row's decodes to the row's operation on the row's fields. Then records of
95_test_vectors.md section 3 (P1, P2, P5, P6), field by field, packed as log 1 says: the packing is the model's choice. -/
def Obligations.WrittenRecordsDecode : Prop :=
  (∀ row ∈ recordTable, ∀ c : Command, c.op = row.1 → decode c = .ok (row.2 c)) ∧
  -- ADD rd 2, ra 2, bsel 1, SEXT iw 5, imm 0x1F, len 2
  decodeTableWord 128
    (0x01 + 2 * 2 ^ 8 + 2 * 2 ^ 18 + 1 * 2 ^ 28 + 0 * 2 ^ 29 + 5 * 2 ^ 31 + 0x1F * 2 ^ 37 + 2 * 2 ^ 69)
    = some (.add 2 2 (.imm ⟨.sext, 5, 0x1F⟩) 2) ∧
  -- BCOND cond 10, imm 0x1FC, len 2
  decodeTableWord 128 (0x50 + 0x1FC * 2 ^ 37 + 2 * 2 ^ 69 + 10 * 2 ^ 73) = some (.bcond 10 0x1FC 2) ∧
  -- PREPARE mask 0x803, frame 2, epm 1, len 4
  decodeTableWord 128 (0x70 + 4 * 2 ^ 69 + 0x803 * 2 ^ 96 + 2 * 2 ^ 114 + 1 * 2 ^ 119) = some (.prepare 0x803 2 .sp 4) ∧
  -- STW ra 1, rb 2, SEXT iw 16, imm 0, len 4
  decodeTableWord 128 (0x3A + 1 * 2 ^ 18 + 2 * 2 ^ 23 + 16 * 2 ^ 31 + 4 * 2 ^ 69) = some (.stw 1 2 ⟨.sext, 16, 0⟩ 4) ∧
  -- DIV rd 6, ra 6, rd2 8, wr2 1, bsel 0, rb 7, len 4
  decodeTableWord 128 (0x28 + 6 * 2 ^ 8 + 8 * 2 ^ 13 + 6 * 2 ^ 18 + 7 * 2 ^ 23 + 4 * 2 ^ 69 + 2 ^ 123)
    = some (.div 6 (some 8) 6 (.reg 7) 4) ∧
  -- TRAP code 31, len 4
  decodeTableWord 128 (0x60 + 4 * 2 ^ 69 + 31 * 2 ^ 83) = some (.trap 31 4)

/-- 30_encoding.md R95, items 2 to 7, item by item. BRKPT's `len` is not looked at: the model's reading (log 16). -/
def Obligations.WellFormedExactlyByTheListedConditions : Prop :=
  ∀ i : Instr, i.wf = true ↔ MeetsR95 i

/-! ## The step -/

/-- A presented command that decodes, is well-formed and is admitted is executed; the step adds nothing to its meaning, be
that a next state, a fault or a refusal. -/
def Obligations.StepRunsTheDecodedInstruction : Prop :=
  ∀ (s : State) (c : Command) (i : Instr), Presents s c → decode c = .ok i → i.wf = true → i.op ∈ s.params.admitted →
    step s = exec i s

/-- 30_encoding.md R95, R100: a command that is not well-formed, or whose operation is not admitted, ends with
`Fault(IllegalCommand)`. -/
def Obligations.UnacceptedCommandFaults : Prop :=
  ∀ (s : State) (c : Command) (i : Instr), Presents s c → decode c = .ok i →
    (i.wf = false ∨ i.op ∉ s.params.admitted) → step s = .fault .illegalCommand

/-- The record placed by `withFetchWord` is the one the next step runs (log 3). The model's choice for an address with none
(log 4, log 5): where fetches see stores, the external decoder's answer to the bytes there; else none. -/
def Obligations.PlacedRecordIsPresented : Prop :=
  ∀ (s : State) (nbits w : Nat),
    presented (s.withFetchWord nbits w) = some (Command.ofBits (tableBits nbits w)) ∧
    (∀ a, a ≠ s.pc.toNat → lookupKey a (s.withFetchWord nbits w).program = lookupKey a s.program) ∧
    (lookupKey s.pc.toNat s.program = none →
      (s.params.fetchSeesStores = true → presented s = some (Config.externalDecode s.pc (s.mem.bytes s.pc 8))) ∧
      (s.params.fetchSeesStores = false → presented s = none))

/-- 10_state.md R32. That such a step is a refusal is the model's form of "accepts no further command" (log 7). -/
def Obligations.RunStatusFollowsTheOutcome : Prop :=
  State.reset.status = .running ∧
  (∀ s : State, s.status ≠ .running → step s = .refused .runEnded) ∧
  (∀ s t : State, step s = .next t →
    (∀ e, t.status = .exited e ↔ t.lastOutcome = some (.exit e)) ∧
    (t.status = .aborted ↔ t.lastOutcome = some .abort))

/-- The invariant: an even `pc` (10_state.md R24), the memory's canonical form (log 10), one command an address (log 3). -/
def Obligations.EveryStepKeepsTheInvariant : Prop :=
  ∀ s t : State, s.Inv → step s = .next t → t.Inv

/-- The reset state meets the invariant: its `pc` is even (10_state.md R24; 70_reset_and_hazards.md R440). That reset memory
lists nothing, in the canonical form (log 10), and that the reset program is empty (log 3) are the model's choices. -/
def Obligations.ResetMeetsTheInvariant : Prop := State.reset.Inv

/-- 70_reset_and_hazards.md R440, R441; the run status is that of 10_state.md R32. -/
def Obligations.ResetStateIsAsSpecified : Prop :=
  State.reset.pc = 0x00000000 ∧ State.reset.psw = 0x00000020 ∧ State.reset.readSys SysReg.ecr = 0x00000000 ∧
  (∀ k : Nat, State.reset.psw.getLsbD k = decide (k = 5)) ∧ State.reset.status = .running

/-- The OPEN parameters never change, and a listed command goes exactly when fetches see stores and the instruction stores to
one of the bytes the command was decoded from, whatever it stores there (20_memory.md R74; the model's choice, log 3, log 4,
log 13). No command is added, and none is changed. -/
def Obligations.ParametersAndProgramOutlastAStep : Prop :=
  ∀ s t : State, step s = .next t →
    t.params = s.params ∧
    t.program.Sublist s.program ∧
    (s.params.fetchSeesStores = false → t.program = s.program) ∧
    (∀ (c : Command) (i : Instr), Presents s c → decode c = .ok i →
      (MayStore i = false → t.program = s.program) ∧
      ∀ p ∈ s.program, (p ∈ t.program ↔ (s.params.fetchSeesStores = true →
        ∀ k < instrLen p.2, ¬ StoresTo s (BitVec.ofNat 32 p.1 + BitVec.ofNat 32 k) i)))

/-! ## The whole machine -/

/-- 10_state.md R26, with the write-sets of 41_alu.md R150. -/
def Obligations.FlagsOutsideTheWriteSetAreKept : Prop :=
  ∀ (i : Instr) (s t : State) (bits : List Nat), exec i s = .next t → pswWrites i = some bits →
    ∀ k, k ∉ bits → t.psw.getLsbD k = s.psw.getLsbD k

/-- SAT is sticky: only a whole-PSW load clears it (41_alu.md R154, decision D12; 90_conflicts.md C8). -/
def Obligations.SatIsClearedOnlyByWholePswLoads : Prop :=
  ∀ (i : Instr) (s t : State), exec i s = .next t → ¬ LoadsPsw i → s.psw.getLsbD 4 = true → t.psw.getLsbD 4 = true

/-- Every instruction leaves alone the general registers it does not name (10_state.md R20 to R22). -/
def Obligations.GeneralRegistersNotNamedAreKept : Prop :=
  ∀ (i : Instr) (s t : State), exec i s = .next t → ∀ q : Reg, q ∉ regWrites i → t.readReg q = s.readReg q

/-- The bank entries are written only by their writers (10_state.md R29); PSW is spoken of by its bits. -/
def Obligations.SystemRegistersNotNamedAreKept : Prop :=
  ∀ (i : Instr) (s t : State), exec i s = .next t → ∀ k : SysReg, k ∉ sysWrites s i → k ≠ SysReg.psw →
    t.readSys k = s.readSys k

/-- 60_exceptions.md R409: FEPC and FEPSW are written only by LDSR, POPMH and POPML, and FECC only by LDSR. R408: NP is changed
only by whole-PSW loads, LDSR to PSW among them. R404, HOSTCALL_GATE being true: ECR's low halfword is written only by trap
entry and LDSR, trap entry leaving a cause in 0x40 .. 0x5E (0x5F would need the gate false). -/
def Obligations.NmiContextAndCauseHaveNamedWriters : Prop :=
  ∀ (i : Instr) (s t : State), exec i s = .next t →
    ((∀ ra n l, i ≠ .ldsr ra n l) → (∀ m l, i ≠ .popmh m l) → (∀ m l, i ≠ .popml m l) →
      t.readSys SysReg.fepc = s.readSys SysReg.fepc ∧ t.readSys SysReg.fepsw = s.readSys SysReg.fepsw) ∧
    (¬ LoadsPsw i → t.psw.getLsbD 7 = s.psw.getLsbD 7) ∧
    ((∀ ra l, i ≠ .ldsr ra SysReg.ecr l) →
      (t.readSys SysReg.ecr).extractLsb' 16 16 = (s.readSys SysReg.ecr).extractLsb' 16 16 ∧
      ((∀ c l, i ≠ .trap c l) → t.readSys SysReg.ecr = s.readSys SysReg.ecr) ∧
      (t.readSys SysReg.ecr ≠ s.readSys SysReg.ecr →
        0x40 ≤ ((t.readSys SysReg.ecr).extractLsb' 0 16).toNat ∧ ((t.readSys SysReg.ecr).extractLsb' 0 16).toNat ≤ 0x5E))

/-- Only the storing instructions write memory, and they only the bytes they store to (20_memory.md R67; 45_system.md R281). -/
def Obligations.MemoryIsWrittenOnlyByStores : Prop :=
  ∀ (i : Instr) (s t : State), exec i s = .next t →
    (MayStore i = false → MemKept s t) ∧ ∀ b : Word, ¬ StoresTo s b i → t.mem.readByte b = s.mem.readByte b

/-- Every well-formed command completes but for an odd target of a control-flow operation, and no meaning refuses
(60_exceptions.md R400, R401, R411). -/
def Obligations.OnlyControlFlowCanFault : Prop :=
  ∀ (i : Instr) (s : State), i.wf = true → EvenAddr s.pc →
    (ControlFlow i = false → ∃ t, exec i s = .next t) ∧
    (exec i s = .fault .oddTarget ∨ ∃ t, exec i s = .next t)

/-- 10_state.md R24: a command that would leave an odd `pc` faults. A fault carries no state: the state is unchanged. -/
def Obligations.OddTargetFaults : Prop :=
  (∀ (d : Word) (s : State), ¬ EvenAddr (s.pc + d) → advance d s = .fault .oddTarget) ∧
  (∀ (s : State) (ra : Reg) (len : Len), ¬ EvenAddr (s.readReg ra) → exec (.jmp ra len) s = .fault .oddTarget) ∧
  (∀ (s : State) (link : Option Reg) (d : Imm) (len : Len), ¬ EvenAddr (s.pc + immVal d) →
    exec (.jarl link d len) s = .fault .oddTarget) ∧
  (∀ (s : State) (c : BitVec 4) (d : BitVec 9) (len : Len), condHolds c s.psw = true → ¬ EvenAddr (s.pc + d.signExtend 32) →
    exec (.bcond c d len) s = .fault .oddTarget) ∧
  (∀ (s : State) (n : BitVec 6) (len : Len), ¬ EvenAddr (calltTarget n s) → exec (.callt n len) s = .fault .oddTarget) ∧
  (∀ (s : State) (len : Len), ¬ EvenAddr (s.readSys SysReg.ctpc) → exec (.ctret len) s = .fault .oddTarget) ∧
  (∀ (s : State) (len : Len), ¬ EvenAddr (s.readSys (retiPair s).1) → exec (.reti len) s = .fault .oddTarget) ∧
  (∀ (s : State) (m : BitVec 18) (f : BitVec 5) (ra : Reg) (len : Len),
    ¬ EvenAddr ((popList (tableA m) (s.readReg 3 + frameBytes f) s).readReg ra) →
    exec (.dispose m f (some ra) len) s = .fault .oddTarget) ∧
  (∀ (i : Instr) (s t : State), exec i s = .next t → t.pc = s.pc ∨ EvenAddr t.pc)

/-! ## ALU -/

/-- 41_alu.md R160. -/
def Obligations.AddStoresTheSumAndItsFlags : Prop :=
  ∀ (s : State) (rd ra : Reg) (b : OperandB) (len : Len), EvenAddr (s.pc + lenBytes len) →
    Runs (.add rd ra b len) s fun t =>
      let x := s.readReg ra
      let y := opB b s
      t.readReg rd = x + y ∧ ZS t (x + y) ∧ AddCyOv t x y ∧ Plain s t [rd] [0, 1, 2, 3] len ∧ t.draws = s.draws

/-- 41_alu.md R162, R163. -/
def Obligations.SubtractAndCompareSetBorrowFlags : Prop :=
  ∀ (s : State) (rd ra : Reg) (b : OperandB) (len : Len), EvenAddr (s.pc + lenBytes len) →
    let x := s.readReg ra
    let y := opB b s
    (Runs (.sub rd ra b len) s fun t =>
      t.readReg rd = x - y ∧ ZS t (x - y) ∧ SubCyOv t x y ∧ Plain s t [rd] [0, 1, 2, 3] len ∧ t.draws = s.draws) ∧
    (Runs (.cmp ra b len) s fun t =>
      ZS t (x - y) ∧ SubCyOv t x y ∧ Plain s t [] [0, 1, 2, 3] len ∧ t.draws = s.draws)

/-- 41_alu.md R164, R165. -/
def Obligations.SaturatingOperationsClampAndSetSat : Prop :=
  ∀ (s : State) (rd ra : Reg) (b : OperandB) (len : Len), EvenAddr (s.pc + lenBytes len) →
    let x := s.readReg ra
    let y := opB b s
    (Runs (.satadd rd ra b len) s fun t =>
      ∃ v, t.readReg rd = v ∧ Saturates s t v (x + y) ∧ ZS t v ∧ AddCyOv t x y ∧
        Plain s t [rd] [0, 1, 2, 3, 4] len ∧ t.draws = s.draws) ∧
    (Runs (.satsub rd ra b len) s fun t =>
      ∃ v, t.readReg rd = v ∧ Saturates s t v (x - y) ∧ ZS t v ∧ SubCyOv t x y ∧
        Plain s t [rd] [0, 1, 2, 3, 4] len ∧ t.draws = s.draws)

/-- The readings of the flag functions the spec derives: 41_alu.md R152, R153 ("which equals") and R154 (the clamped value is
the exact result brought into the signed range). -/
def Obligations.FlagFunctionsAreExactComparisons : Prop :=
  ∀ x y : Word,
    (carryAdd x y (x + y) = true ↔ 2 ^ 32 ≤ x.toNat + y.toNat) ∧
    (ovAdd x y (x + y) = true ↔ x.toInt + y.toInt < -2 ^ 31 ∨ 2 ^ 31 - 1 < x.toInt + y.toInt) ∧
    (carrySub x y = true ↔ (x.toNat : Int) - y.toNat < 0) ∧
    (ovSub x y (x - y) = true ↔ x.toInt - y.toInt < -2 ^ 31 ∨ 2 ^ 31 - 1 < x.toInt - y.toInt) ∧
    (saturate (ovAdd x y (x + y)) (x + y)).toInt = max (-2 ^ 31) (min (2 ^ 31 - 1) (x.toInt + y.toInt)) ∧
    (saturate (ovSub x y (x - y)) (x - y)).toInt = max (-2 ^ 31) (min (2 ^ 31 - 1) (x.toInt - y.toInt))

/-- 41_alu.md R166 to R170. -/
def Obligations.LogicalOperationsClearOverflowAndKeepCarry : Prop :=
  ∀ (s : State) (rd ra : Reg) (b : OperandB) (len : Len), EvenAddr (s.pc + lenBytes len) →
    let x := s.readReg ra
    let y := opB b s
    let leaves := fun (rs : List Reg) (r : Word) (t : State) =>
      ZS t r ∧ t.psw.getLsbD 2 = false ∧ Plain s t rs [0, 1, 2] len ∧ t.draws = s.draws
    (Runs (.and rd ra b len) s fun t => t.readReg rd = x &&& y ∧ leaves [rd] (x &&& y) t) ∧
    (Runs (.or rd ra b len) s fun t => t.readReg rd = x ||| y ∧ leaves [rd] (x ||| y) t) ∧
    (Runs (.xor rd ra b len) s fun t => t.readReg rd = x ^^^ y ∧ leaves [rd] (x ^^^ y) t) ∧
    (Runs (.not rd b len) s fun t => t.readReg rd = ~~~y ∧ leaves [rd] (~~~y) t) ∧
    (Runs (.tst ra b len) s fun t => leaves [] (x &&& y) t)

/-- 41_alu.md R155, R171 to R173, for a shift amount in 1..31. -/
def Obligations.ShiftsCarryTheLastBitOut : Prop :=
  ∀ (s : State) (rd ra : Reg) (b : OperandB) (len : Len) (sh : Nat), EvenAddr (s.pc + lenBytes len) →
    sh = (opB b s).toNat % 32 → 1 ≤ sh →
    let x := s.readReg ra
    let leaves := fun (t : State) (cy : Bool) =>
      ZS t (t.readReg rd) ∧ t.psw.getLsbD 3 = cy ∧ t.psw.getLsbD 2 = false ∧ Plain s t [rd] [0, 1, 2, 3] len ∧
        t.draws = s.draws
    (Runs (.shl rd ra b len) s fun t =>
      (t.readReg rd).toNat = x.toNat * 2 ^ sh % 2 ^ 32 ∧ leaves t (x.getLsbD (32 - sh))) ∧
    (Runs (.shr rd ra b len) s fun t =>
      (t.readReg rd).toNat = x.toNat / 2 ^ sh ∧ leaves t (x.getLsbD (sh - 1))) ∧
    (Runs (.sar rd ra b len) s fun t =>
      (t.readReg rd).toInt = x.toInt / 2 ^ sh ∧ leaves t (x.getLsbD (sh - 1)))

/-- A shift by zero leaves the value, writes Z, S and OV of it, and leaves CY free (41_alu.md R155, decision D8; log 11). -/
def Obligations.ShiftByZeroKeepsTheValue : Prop :=
  ∀ (s : State) (rd ra : Reg) (b : OperandB) (len : Len), EvenAddr (s.pc + lenBytes len) → (opB b s).toNat % 32 = 0 →
    let x := s.readReg ra
    let leaves := fun (t : State) =>
      t.readReg rd = x ∧ ZS t x ∧ t.psw.getLsbD 2 = false ∧ Plain s t [rd] [0, 1, 2, 3] len
    Runs (.shl rd ra b len) s leaves ∧ Runs (.shr rd ra b len) s leaves ∧ Runs (.sar rd ra b len) s leaves

/-- 41_alu.md R161, R174 to R178. -/
def Obligations.MovesAndExtensionsWriteNoFlag : Prop :=
  ∀ (s : State) (rd ra : Reg) (b : OperandB) (len : Len), EvenAddr (s.pc + lenBytes len) →
    let y := opB b s
    let leaves := fun (r : Word) (t : State) => t.readReg rd = r ∧ Plain s t [rd] [] len ∧ t.draws = s.draws
    Runs (.addnf rd ra b len) s (leaves (s.readReg ra + y)) ∧
    Runs (.mov rd b len) s (leaves y) ∧
    Runs (.sxb rd b len) s (leaves ((y.extractLsb' 0 8).signExtend 32)) ∧
    Runs (.sxh rd b len) s (leaves ((y.extractLsb' 0 16).signExtend 32)) ∧
    Runs (.zxb rd b len) s (leaves (y &&& 0xFF)) ∧
    Runs (.zxh rd b len) s (leaves (y &&& 0xFFFF))

/-- 30_encoding.md R93, R94: bit by bit. -/
def Obligations.OperandsAreAssembledByTheirFields : Prop :=
  (∀ (iw : BitVec 6) (v : Word) (k : Nat), 1 ≤ iw.toNat → iw.toNat ≤ 32 → k < 32 →
    (immVal ⟨.sext, iw, v⟩).getLsbD k = v.getLsbD (min k (iw.toNat - 1)) ∧
    (immVal ⟨.zext, iw, v⟩).getLsbD k = (decide (k < iw.toNat) && v.getLsbD k) ∧
    (immVal ⟨.hi16, iw, v⟩).getLsbD k = (decide (16 ≤ k) && v.getLsbD (k - 16))) ∧
  (∀ (s : State) (rb : Reg) (i : Imm), opB (.reg rb) s = s.readReg rb ∧ opB (.imm i) s = immVal i)

/-! ## Multiply and divide -/

/-- 42_multiply.md R202 to R204: the exact product, low word to `rd`, then high word to `rd2`. -/
def Obligations.MultiplyStoresTheExactProduct : Prop :=
  ∀ (s : State) (rd rd2 ra : Reg) (b : OperandB) (len : Len), EvenAddr (s.pc + lenBytes len) →
    let x := s.readReg ra
    let y := opB b s
    let leaves := fun (lo hi : Word) (t : State) =>
      t.readReg rd2 = hi ∧ (rd ≠ rd2 → t.readReg rd = lo) ∧ Plain s t [rd, rd2] [] len ∧ t.draws = s.draws
    (∃ lo hi : Word, hi.toInt * 2 ^ 32 + lo.toNat = x.toInt * y.toInt ∧ Runs (.mul rd rd2 ra b len) s (leaves lo hi)) ∧
    (∃ lo hi : Word, hi.toNat * 2 ^ 32 + lo.toNat = x.toNat * y.toNat ∧ Runs (.mulu rd rd2 ra b len) s (leaves lo hi))

/-- 42_multiply.md R205. -/
def Obligations.MulhMultipliesTheLowHalves : Prop :=
  ∀ (s : State) (rd ra : Reg) (b : OperandB) (len : Len), EvenAddr (s.pc + lenBytes len) →
    Runs (.mulh rd ra b len) s fun t =>
      (t.readReg rd).toInt = ((s.readReg ra).extractLsb' 0 16).toInt * ((opB b s).extractLsb' 0 16).toInt ∧
      Plain s t [rd] [] len ∧ t.draws = s.draws

/-- 42_multiply.md R201: "the two agree on every input". -/
def Obligations.MultiplyEngineComputesTheExactProduct : Prop :=
  ∀ a b : Word,
    (engineMulU a b).1 ++ (engineMulU a b).2 = mulU64 a b ∧
    (engineMulS a b).1 ++ (engineMulS a b).2 = mulS64 a b

/-- 43_divide.md R221 to R225, R228, R230, R232: DIV, DIVN and DIVH. Rounding toward zero is marked derived in R221 and
decided by D16. -/
def Obligations.SignedDividesTruncateOrOverflow : Prop :=
  ∀ (s : State) (rd ra : Reg) (rem : Option Reg) (b : OperandB) (n : BitVec 6) (len : Len), EvenAddr (s.pc + lenBytes len) →
    1 ≤ n.toNat → n.toNat ≤ 32 →
    let x := s.readReg ra
    let y := opB b s
    Runs (.div rd rem ra b len) s (fun t => SignedDivide s t 32 x y rd rem len) ∧
    Runs (.divn rd rem ra b n len) s (fun t => SignedDivide s t n.toNat x y rd rem len) ∧
    Runs (.divh rd rem ra b len) s (fun t => SignedDivide s t 32 x ((y.extractLsb' 0 16).signExtend 32) rd rem len)

/-- 43_divide.md R221 to R225, R229, R231, R233: DIVU, DIVUN and DIVHU. -/
def Obligations.UnsignedDividesTruncateOrOverflow : Prop :=
  ∀ (s : State) (rd ra : Reg) (rem : Option Reg) (b : OperandB) (n : BitVec 6) (len : Len), EvenAddr (s.pc + lenBytes len) →
    1 ≤ n.toNat → n.toNat ≤ 32 →
    let x := s.readReg ra
    let y := opB b s
    Runs (.divu rd rem ra b len) s (fun t => UnsignedDivide s t 32 x y rd rem len) ∧
    Runs (.divun rd rem ra b n len) s (fun t => UnsignedDivide s t n.toNat x y rd rem len) ∧
    Runs (.divhu rd rem ra b len) s (fun t => UnsignedDivide s t 32 x (y &&& 0xFFFF) rd rem len)

/-- The restoring algorithm of 43_divide.md R226 gives the results of R221 and R222 and finds their overflows. -/
def Obligations.RestoringDivisionGivesTheExactResults : Prop :=
  ∀ (n : Nat) (a b : Word), 1 ≤ n → n ≤ 32 →
    (restoringU n a.toNat b.toNat =
      if divOverflow .unsigned n a b then none else some ((divQ .unsigned a b).toNat, (divR .unsigned a b).toNat)) ∧
    (restoringS n a b = if divOverflow .signed n a b then none else some (divQ .signed a b, divR .signed a b))

/-! ## Memory -/

/-- 47_loadstore_bit.md R321 to R325, with the masking of R320 and the byte order of 20_memory.md R63. -/
def Obligations.LoadsExtendTheAlignedUnit : Prop :=
  ∀ (s : State) (rd ra : Reg) (d : Imm) (len : Len), EvenAddr (s.pc + lenBytes len) →
    let ea := s.readReg ra + immVal d
    let h := ea &&& 0xFFFFFFFE
    let w := ea &&& 0xFFFFFFFC
    let m := fun a : Word => s.mem.readByte a
    let leaves := fun (v : Word) (t : State) => t.readReg rd = v ∧ Plain s t [rd] [] len ∧ t.draws = s.draws
    Runs (.ldb rd ra d len) s (leaves ((m ea).signExtend 32)) ∧
    Runs (.ldbu rd ra d len) s (leaves ((m ea).setWidth 32)) ∧
    Runs (.ldh rd ra d len) s (leaves ((m (h + 1) ++ m h).signExtend 32)) ∧
    Runs (.ldhu rd ra d len) s (leaves ((m (h + 1) ++ m h).setWidth 32)) ∧
    Runs (.ldw rd ra d len) s (leaves (m (w + 3) ++ m (w + 2) ++ m (w + 1) ++ m w))

/-- 47_loadstore_bit.md R326 to R328, with the masking of R320 and the byte order of 20_memory.md R63. -/
def Obligations.StoresWriteTheAlignedUnitAlone : Prop :=
  ∀ (s : State) (ra rb : Reg) (d : Imm) (len : Len), EvenAddr (s.pc + lenBytes len) →
    let ea := s.readReg ra + immVal d
    let v := s.readReg rb
    let stores := fun (a : Word) (n : Nat) (t : State) =>
      (∀ k < n, t.mem.readByte (a + BitVec.ofNat 32 k) = v.extractLsb' (8 * k) 8) ∧ MemKeptOutside s t a n ∧
      KeptByStore s t [] [] [] ∧ EndsNext s t (lenBytes len) ∧ t.draws = s.draws
    Runs (.stb ra rb d len) s (stores ea 1) ∧
    Runs (.sth ra rb d len) s (stores (ea &&& 0xFFFFFFFE) 2) ∧
    Runs (.stw ra rb d len) s (stores (ea &&& 0xFFFFFFFC) 4)

/-- 20_memory.md R61 to R63: the port is total and little-endian, and a read sees the last write. -/
def Obligations.PortIsLittleEndianAndReadsTheLastWrite : Prop :=
  ∀ (m : Memory) (a v : Word) (n : Nat), n = 1 ∨ n = 2 ∨ n = 4 →
    (m.read a n).toNat = ((List.range n).map fun k => (m.readByte (a + BitVec.ofNat 32 k)).toNat * 2 ^ (8 * k)).sum ∧
    (∀ k < n, (m.write a n v).readByte (a + BitVec.ofNat 32 k) = v.extractLsb' (8 * k) 8) ∧
    (∀ b : Word, n ≤ (b - a).toNat → (m.write a n v).readByte b = m.readByte b) ∧
    ((m.write a n v).read a n).toNat = v.toNat % 2 ^ (8 * n)

/-- 47_loadstore_bit.md R329 to R333. -/
def Obligations.BitOperationsTestThenChangeOneBit : Prop :=
  ∀ (s : State) (ra : Reg) (bit : Fin 8) (d : Imm) (len : Len), EvenAddr (s.pc + lenBytes len) →
    let ea := s.readReg ra + immVal d
    let v := s.mem.readByte ea
    let tests := fun (t : State) =>
      t.psw.getLsbD 0 = !v.getLsbD bit.val ∧ KeptByStore s t [] [] [0] ∧ EndsNext s t (lenBytes len) ∧ t.draws = s.draws
    let writes := fun (new : Bool) (t : State) =>
      (∀ k, (t.mem.readByte ea).getLsbD k = if k = bit.val then new else v.getLsbD k) ∧ MemKeptOutside s t ea 1
    (Runs (.set1 ra bit d len) s fun t => tests t ∧ writes true t) ∧
    (Runs (.clr1 ra bit d len) s fun t => tests t ∧ writes false t) ∧
    (Runs (.not1 ra bit d len) s fun t => tests t ∧ writes (!v.getLsbD bit.val) t) ∧
    (Runs (.tst1 ra bit d len) s fun t => tests t ∧ MemKept s t ∧ t.program = s.program)

/-! ## Branches and calls -/

/-- 46_branch.md R300. -/
def Obligations.ConditionalBranchTakesItsDisplacement : Prop :=
  ∀ (s : State) (c : BitVec 4) (d : BitVec 9) (len : Len),
    (condHolds c s.psw = true → EvenAddr (s.pc + d.signExtend 32) →
      Runs (.bcond c d len) s fun t =>
        EndsNext s t (d.signExtend 32) ∧ Kept s t [] [] [] ∧ MemKept s t ∧ t.draws = s.draws) ∧
    (condHolds c s.psw = true → ¬ EvenAddr (s.pc + d.signExtend 32) → exec (.bcond c d len) s = .fault .oddTarget) ∧
    (condHolds c s.psw = false → EvenAddr s.pc →
      Runs (.bcond c d len) s fun t => EndsNext s t 2 ∧ Kept s t [] [] [] ∧ MemKept s t ∧ t.draws = s.draws)

/-- 40_condition.md R130 to R132: the sixteen codes by the flags of PSW, and the complements. -/
def Obligations.ConditionCodesTestTheirFlags : Prop :=
  (∀ p : Word,
    let z := p.getLsbD 0
    let s := p.getLsbD 1
    let ov := p.getLsbD 2
    let cy := p.getLsbD 3
    let sat := p.getLsbD 4
    (List.range 16).map (fun c => condHolds (BitVec.ofNat 4 c) p) =
      [ov, cy, z, cy || z, s, true, s ^^ ov, (s ^^ ov) || z,
       !ov, !cy, !z, !(cy || z), !s, sat, !(s ^^ ov), !((s ^^ ov) || z)]) ∧
  (∀ (c : BitVec 4) (p : Word), c ≠ 5 → c ≠ 13 → condHolds (c ^^^ 8) p = !condHolds c p)

/-- The spec's inference 40_condition.md R133 (marked derived): what the codes test after a CMP or SUB. -/
def Obligations.ConditionsAfterCompareOrderTheOperands : Prop :=
  ∀ (s t : State) (rd ra : Reg) (b : OperandB) (len : Len),
    exec (.cmp ra b len) s = .next t ∨ exec (.sub rd ra b len) s = .next t →
    let x := s.readReg ra
    let y := opB b s
    let holds := fun c : BitVec 4 => condHolds c t.psw = true
    (holds 2 ↔ x = y) ∧ (holds 10 ↔ x ≠ y) ∧
    (holds 1 ↔ x.toNat < y.toNat) ∧ (holds 9 ↔ y.toNat ≤ x.toNat) ∧
    (holds 3 ↔ x.toNat ≤ y.toNat) ∧ (holds 11 ↔ y.toNat < x.toNat) ∧
    (holds 6 ↔ x.toInt < y.toInt) ∧ (holds 14 ↔ y.toInt ≤ x.toInt) ∧
    (holds 7 ↔ x.toInt ≤ y.toInt) ∧ (holds 15 ↔ y.toInt < x.toInt)

/-- 46_branch.md R301, R302. -/
def Obligations.JumpsSetPcAndLinkTheReturnAddress : Prop :=
  (∀ (s : State) (link : Option Reg) (d : Imm) (len : Len), EvenAddr (s.pc + immVal d) →
    Runs (.jarl link d len) s fun t =>
      EndsJump t (s.pc + immVal d) ∧ (∀ rd, link = some rd → t.readReg rd = s.pc + lenBytes len) ∧
      Kept s t link.toList [] [] ∧ MemKept s t ∧ t.draws = s.draws) ∧
  (∀ (s : State) (ra : Reg) (len : Len),
    (EvenAddr (s.readReg ra) → Runs (.jmp ra len) s fun t =>
      EndsJump t (s.readReg ra) ∧ Kept s t [] [] [] ∧ MemKept s t ∧ t.draws = s.draws) ∧
    (¬ EvenAddr (s.readReg ra) → exec (.jmp ra len) s = .fault .oddTarget))

/-- 46_branch.md R303, R304. -/
def Obligations.FastCallSavesAndReturnRestoresItsPair : Prop :=
  (∀ (s : State) (n : BitVec 6) (len : Len),
    let ctbp := s.readSys SysReg.ctbp
    let adr := (ctbp + n.setWidth 32 * 2) &&& 0xFFFFFFFE
    let target := ctbp + (s.mem.readByte (adr + 1) ++ s.mem.readByte adr).setWidth 32
    (EvenAddr target → Runs (.callt n len) s fun t =>
      EndsJump t target ∧ t.readSys SysReg.ctpc = s.pc + lenBytes len ∧ t.readSys SysReg.ctpsw = s.psw ∧
      Kept s t [] [SysReg.ctpc, SysReg.ctpsw] [] ∧ MemKept s t ∧ t.draws = s.draws) ∧
    (¬ EvenAddr target → exec (.callt n len) s = .fault .oddTarget)) ∧
  (∀ (s : State) (len : Len),
    (EvenAddr (s.readSys SysReg.ctpc) → Runs (.ctret len) s fun t =>
      EndsJump t (s.readSys SysReg.ctpc) ∧ t.psw = s.readSys SysReg.ctpsw ∧
      Kept s t [] [] (List.range 32) ∧ MemKept s t ∧ t.draws = s.draws) ∧
    (¬ EvenAddr (s.readSys SysReg.ctpc) → exec (.ctret len) s = .fault .oddTarget))

/-! ## Traps and system registers -/

/-- 60_exceptions.md R402, R403: `raise Trap(code)` for every code, and the codes that TRAP raises with the gate on
(45_system.md R280). -/
def Obligations.TrapEntrySavesContextAndVectors : Prop :=
  ∀ (s : State) (code : BitVec 5) (len : Len),
    let enters := fun t : State =>
      EndsJump t (if code.toNat < 16 then 0x00000040 else 0x00000050) ∧
      t.readSys SysReg.eipc = s.pc + 4 ∧ t.readSys SysReg.eipsw = s.psw ∧
      ((t.readSys SysReg.ecr).extractLsb' 0 16).toNat = 0x40 + code.toNat ∧
      (t.readSys SysReg.ecr).extractLsb' 16 16 = (s.readSys SysReg.ecr).extractLsb' 16 16 ∧
      t.psw.getLsbD 6 = true ∧ t.psw.getLsbD 5 = true ∧
      Kept s t [] [SysReg.eipc, SysReg.eipsw, SysReg.ecr] [5, 6] ∧ MemKept s t ∧ t.draws = s.draws
    (∃ t, raiseTrap code s = .next t ∧ enters t) ∧
    (code.toNat ≤ 30 → Runs (.trap code len) s enters)

/-- With HOSTCALL_GATE false, code 31 traps like the codes 16 to 30 (45_system.md R280). The parameter is true here
(00_scope.md R7). -/
def Obligations.WithoutTheGateCode31IsATrap : Prop :=
  ∀ s : State, trapOrCall false 31 s = raiseTrap 31 s ∧
    ∃ t, trapOrCall false 31 s = .next t ∧ t.pc = 0x00000050 ∧
      ((t.readSys SysReg.ecr).extractLsb' 0 16).toNat = 0x5F

/-- 45_system.md R285. -/
def Obligations.RetiReturnsThroughThePairEpAndNpChoose : Prop :=
  ∀ (s : State) (len : Len),
    let fe := s.psw.getLsbD 6 = false ∧ s.psw.getLsbD 7 = true
    (fe → EvenAddr (s.readSys SysReg.fepc) →
      Runs (.reti len) s fun t =>
        EndsJump t (s.readSys SysReg.fepc) ∧ t.psw = s.readSys SysReg.fepsw ∧
        Kept s t [] [] (List.range 32) ∧ MemKept s t ∧ t.draws = s.draws) ∧
    (fe → ¬ EvenAddr (s.readSys SysReg.fepc) → exec (.reti len) s = .fault .oddTarget) ∧
    (¬ fe → EvenAddr (s.readSys SysReg.eipc) →
      Runs (.reti len) s fun t =>
        EndsJump t (s.readSys SysReg.eipc) ∧ t.psw = s.readSys SysReg.eipsw ∧
        Kept s t [] [] (List.range 32) ∧ MemKept s t ∧ t.draws = s.draws) ∧
    (¬ fe → ¬ EvenAddr (s.readSys SysReg.eipc) → exec (.reti len) s = .fault .oddTarget)

/-- 60_exceptions.md R407: a RETI after a trap, whatever the handler did to registers and memory, goes to the instruction
after the TRAP with the PSW saved at entry. -/
def Obligations.RetiUndoesTrapEntry : Prop :=
  ∀ (s t h u : State) (code : BitVec 5) (len len' : Len), code.toNat ≤ 30 →
    exec (.trap code len) s = .next t →
    h.psw.getLsbD 6 = true → h.readSys SysReg.eipc = t.readSys SysReg.eipc →
    h.readSys SysReg.eipsw = t.readSys SysReg.eipsw →
    exec (.reti len') h = .next u → u.pc = s.pc + 4 ∧ u.psw = s.psw

/-- 45_system.md R286, R287; 10_state.md R28. -/
def Obligations.SystemRegistersAreReadAndWrittenWhole : Prop :=
  ∀ (s : State) (r : Reg) (n : SysReg) (len : Len), EvenAddr (s.pc + lenBytes len) →
    (Runs (.ldsr r n len) s fun t =>
      t.readSys n = s.readReg r ∧ (n = SysReg.psw → t.psw = s.readReg r) ∧
      Kept s t [] [n] (if n = SysReg.psw then List.range 32 else []) ∧ MemKept s t ∧
      EndsNext s t (lenBytes len) ∧ t.draws = s.draws) ∧
    (Runs (.stsr r n len) s fun t => t.readReg r = s.readSys n ∧ Plain s t [r] [] len ∧ t.draws = s.draws)

/-- 45_system.md R288. -/
def Obligations.BreakpointChangesNothing : Prop :=
  ∀ s : State, Runs .brkpt s fun t => t.lastOutcome = some .brk ∧ t.pc = s.pc ∧ Kept s t [] [] [] ∧ MemKept s t ∧
    t.draws = s.draws

/-- 45_system.md R283: exit ends the run with `EXIT_DECODE(x[7])`, and EXIT_DECODE(0) is the status 0. -/
def Obligations.HostExitEndsTheRun : Prop :=
  Config.exitDecode 0 = .status 0 ∧
  ∀ (s : State) (len : Len), s.readReg 6 = s.params.selectors.exit →
    ∃ t, exec (.trap 31 len) s = .next t ∧
      t.lastOutcome = some (.exit (Config.exitDecode (s.readReg 7))) ∧
      t = { s with status := .exited (Config.exitDecode (s.readReg 7)), lastOutcome := t.lastOutcome }

/-- The word is one of the selector numbers (45_system.md R282). -/
def Sys2Proof.Claims.IsSelector (t : Selectors) (w : Word) : Prop :=
  w ∈ [t.read, t.write, t.open', t.close, t.lseek, t.stat, t.chmod, t.chown, t.time, t.times, t.gettimeofday, t.utime,
       t.fork, t.execve, t.exit]

/-- 45_system.md R284. -/
def Obligations.UnknownSelectorAborts : Prop :=
  ∀ (s : State) (len : Len), ¬ IsSelector s.params.selectors (s.readReg 6) →
    ∃ t, exec (.trap 31 len) s = .next t ∧ t.lastOutcome = some .abort ∧
      t = { s with status := .aborted, lastOutcome := t.lastOutcome }

/-- 45_system.md R281, R282: a served call writes x[10], x[11] and memory and ends with `Next(4)`. The answers are free
(log 12). That a call of `write`, `close`, `lseek`, `fork` and the like leaves memory alone, and `read` all but its buffer, is
the model's reading of R282's last column (log 12). -/
def Obligations.ServedHostCallWritesOnlyItsAnswers : Prop :=
  ∀ (s : State) (len : Len), IsSelector s.params.selectors (s.readReg 6) →
    s.readReg 6 ≠ s.params.selectors.exit → EvenAddr (s.pc + 4) →
    Runs (.trap 31 len) s fun t =>
      EndsNext s t 4 ∧ KeptByStore s t [10, 11] [] [] ∧
      (∀ f, hostFn s.params.selectors (s.readReg 6) = some f →
        (f ∈ [.write, .open', .close, .lseek, .chmod, .chown, .utime, .fork, .execve] → MemKept s t) ∧
        (f = .read → MemKeptOutside s t (s.readReg 8) (s.readReg 9).toNat) ∧
        (f = .time → MemKeptOutside s t (s.readReg 7) (if s.readReg 7 = 0 then 0 else 4)))

/-! ## Register-list transfers -/

/-- 44_transfer.md R250: what each table holds, each slot once, in ascending order of index. -/
def Obligations.TablesHoldTheirSlotsInOrder : Prop :=
  ∀ (m : BitVec 18) (pair : SysReg × SysReg),
    (tableA m = ((List.range 12).filter fun i => m.getLsbD i).map fun i => .reg (Fin.ofNat 32 (20 + i))) ∧
    (tableB m pair = ((List.range 16).filter fun i => m.getLsbD i).map (fun i => .reg (Fin.ofNat 32 (16 + i))) ++
      ((if m.getLsbD 16 then [.sys pair.2] else []) ++ (if m.getLsbD 17 then [.sys pair.1] else []))) ∧
    (tableC m pair = ((List.range 15).filter fun i => m.getLsbD i).map (fun i => .reg (Fin.ofNat 32 (1 + i))) ++
      ((if m.getLsbD 15 then [.sys SysReg.psw] else []) ++ (if m.getLsbD 16 then [.sys pair.2, .sys pair.1] else []))) ∧
    (tableA m).Nodup ∧ (tableA m).length ≤ 12 ∧
    (pair = (SysReg.eipc, SysReg.eipsw) ∨ pair = (SysReg.fepc, SysReg.fepsw) →
      (tableB m pair).Nodup ∧ (tableB m pair).length ≤ 18 ∧ (tableC m pair).Nodup ∧ (tableC m pair).length ≤ 18)

/-- 44_transfer.md R253. -/
def Obligations.ContextPairFollowsNpAndEp : Prop :=
  ∀ s : State,
    (s.psw.getLsbD 7 = true ∧ s.psw.getLsbD 6 = false → contextPair s = (SysReg.fepc, SysReg.fepsw)) ∧
    (¬ (s.psw.getLsbD 7 = true ∧ s.psw.getLsbD 6 = false) → contextPair s = (SysReg.eipc, SysReg.eipsw))

/-- 44_transfer.md R255. -/
def Obligations.PrepareStoresTheListThenAllocates : Prop :=
  ∀ (s : State) (m : BitVec 18) (f : BitVec 5) (e : EpOption) (len : Len), EvenAddr (s.pc + lenBytes len) →
    Runs (.prepare m f e len) s fun t =>
      let sp := s.readReg 3 - BitVec.ofNat 32 (4 * (tableA m).length) - BitVec.ofNat 32 (4 * f.toNat)
      Pushed s t (tableA m) ∧ t.readReg 3 = sp ∧
      (e = .sp → t.readReg 30 = sp) ∧
      (∀ v, e = .simm16 v → t.readReg 30 = v.signExtend 32) ∧
      (∀ v, e = .himm16 v → t.readReg 30 = v ++ 0#16) ∧
      (∀ v, e = .imm32 v → t.readReg 30 = v) ∧
      KeptByStore s t (if e = .none then [3] else [3, 30]) [] [] ∧ EndsNext s t (lenBytes len) ∧ t.draws = s.draws

/-- 44_transfer.md R256. -/
def Obligations.DisposeReleasesRestoresAndMayJump : Prop :=
  ∀ (s : State) (m : BitVec 18) (f : BitVec 5) (len : Len),
    let t0 := s.readReg 3 + BitVec.ofNat 32 (4 * f.toNat)
    let restores := fun t : State =>
      Popped s t (tableA m) t0 ∧ Kept s t (regWrites (.dispose m f none len)) [] [] ∧ MemKept s t ∧ t.draws = s.draws
    (EvenAddr (s.pc + lenBytes len) →
      Runs (.dispose m f none len) s fun t => restores t ∧ EndsNext s t (lenBytes len)) ∧
    (∀ ra : Reg,
      let target := (popList (tableA m) (s.readReg 3 + frameBytes f) s).readReg ra
      (EvenAddr target → Runs (.dispose m f (some ra) len) s fun t => restores t ∧ EndsJump t (t.readReg ra)) ∧
      (¬ EvenAddr target → exec (.dispose m f (some ra) len) s = .fault .oddTarget))

/-- 44_transfer.md R257, R259. -/
def Obligations.PushesStoreTheirListBelowTheStackPointer : Prop :=
  ∀ (s : State) (m : BitVec 18) (len : Len), EvenAddr (s.pc + lenBytes len) →
    let leaves := fun (xs : List Slot) (t : State) =>
      Pushed s t xs ∧ t.readReg 3 = s.readReg 3 - BitVec.ofNat 32 (4 * xs.length) ∧ KeptByStore s t [3] [] [] ∧
      EndsNext s t (lenBytes len) ∧ t.draws = s.draws
    Runs (.pushmh m len) s (leaves (tableB m (contextPair s))) ∧
    Runs (.pushml m len) s (leaves (tableC m (contextPair s)))

/-- 44_transfer.md R258, R260. -/
def Obligations.PopsLoadTheirListFromTheStackPointer : Prop :=
  ∀ (s : State) (m : BitVec 18) (len : Len), EvenAddr (s.pc + lenBytes len) →
    (Runs (.popmh m len) s fun t =>
      Popped s t (tableB m (contextPair s)) (s.readReg 3) ∧
      Kept s t (regWrites (.popmh m len)) (sysWrites s (.popmh m len)) [] ∧ MemKept s t ∧
      EndsNext s t (lenBytes len) ∧ t.draws = s.draws) ∧
    (Runs (.popml m len) s fun t =>
      Popped s t (tableC m (contextPair s)) (s.readReg 3) ∧
      Kept s t (regWrites (.popml m len)) (sysWrites s (.popml m len)) (if m.getLsbD 15 then List.range 32 else []) ∧
      MemKept s t ∧ EndsNext s t (lenBytes len) ∧ t.draws = s.draws)

/-- 44_transfer.md R261: after a push, a pop of the same list from the same stack pointer over the same memory restores
every transferred word and x[3], whatever happened to the registers in between. That at once after the push the pop selects
the same context pair, and that x[30] comes back from a DISPOSE only where its mask bit is set, are inferences R261 marks as
its own (derived). -/
def Obligations.PopUndoesPush : Prop :=
  ∀ (s t t' u : State) (m : BitVec 18) (f : BitVec 5) (e : EpOption) (l l' : Len),
    (exec (.pushmh m l) s = .next t ∨ exec (.pushml m l) s = .next t ∨ exec (.prepare m f e l) s = .next t →
      contextPair t = contextPair s) ∧
    (t'.readReg 3 = t.readReg 3 → MemKept t t' → contextPair t' = contextPair s →
      let restored := fun xs : List Slot => (∀ x ∈ xs, slotValue u x = slotValue s x) ∧ u.readReg 3 = s.readReg 3
      (exec (.pushmh m l) s = .next t → exec (.popmh m l') t' = .next u → restored (tableB m (contextPair s))) ∧
      (exec (.pushml m l) s = .next t → exec (.popml m l') t' = .next u → restored (tableC m (contextPair s))) ∧
      (exec (.prepare m f e l) s = .next t → exec (.dispose m f none l') t' = .next u →
        restored (tableA m) ∧ (m.getLsbD 10 = false → u.readReg 30 = t'.readReg 30)))
end

