-- ==== Sys2Proof/Laws/Encoding.lean ====
section
/-! SUPPORT. The laws of the record's fields, of its packing into bits and of the bits' bytes (30_encoding.md R91, R92). -/

namespace Sys2Proof

/-! ## Operations -/

/-- Every op value of the table selects its operation (30_encoding.md R92). -/
theorem Op.ofCode_code (o : Op) : Op.ofCode o.code = some o := by cases o <;> decide

/-- An op value selects the one operation that has it (30_encoding.md R92, R99). -/
theorem Op.code_of_ofCode {c : BitVec 8} {o : Op} (h : Op.ofCode c = some o) : o.code = c := by
  simpa using List.find?_some h

/-- Every operation is in the table. -/
theorem Op.mem_all (o : Op) : o ∈ Op.all := by cases o <;> decide

/-- An op value selects nothing just where no operation of the table has it (30_encoding.md R99). -/
theorem Op.ofCode_eq_none (c : BitVec 8) : Op.ofCode c = none ↔ ∀ o : Op, o.code ≠ c := by
  simp only [Op.ofCode, List.find?_eq_none, beq_iff_eq]
  exact ⟨fun h o => h o (Op.mem_all o), fun h o _ => h o⟩

/-! ## Fields -/

@[simp] theorem regOf_bitsOf (r : Fin 32) : regOf (bitsOf r) = r := rfl
@[simp] theorem bitOf_bitBits (b : Fin 8) : bitOf (bitBits b) = b := rfl
@[simp] theorem extOf_toBits (e : Ext) : Ext.ofBits e.toBits = e := by cases e <;> decide

@[simp] theorem optReg_optBits (r : Option Reg) : optReg (optFlag r) (optBits r) = r := by
  cases r <;> simp [optReg, optFlag, optBits]

@[simp] theorem immOf_withImm (i : Imm) (c : Command) : immOf (withImm i c) = i := by simp [immOf, withImm]

@[simp] theorem operandOf_withOperand (b : OperandB) (c : Command) : operandOf (withOperand b c) = b := by
  cases b with
  | reg rb => simp [operandOf, withOperand]
  | imm i => simp [operandOf, withOperand, immOf, withImm]

@[simp] theorem withOperand_op (b : OperandB) (c : Command) : (withOperand b c).op = c.op := by cases b <;> rfl
@[simp] theorem withEp_op (e : EpOption) (c : Command) : (withEp e c).op = c.op := by cases e <;> rfl

/-- A field in the low bits of a wider one is read back. -/
theorem extractLsb'_setWidth_self {w v : Nat} (h : w ≤ v) (x : BitVec w) : (x.setWidth v).extractLsb' 0 w = x := by
  apply BitVec.eq_of_getLsbD_eq
  intro i hi
  have : i < v := by omega
  simp [hi, this]

/-- A base-pointer option is read back from the two fields it is put in. -/
theorem epOf_of_fields (e : EpOption) (c d : Command) (h1 : d.epm = (withEp e c).epm) (h2 : d.imm = (withEp e c).imm) :
    epOf d = e := by
  cases e with
  | none => simp [epOf, h1, withEp]
  | sp => simp [epOf, h1, withEp]
  | simm16 v => simp [epOf, h1, h2, withEp, extractLsb'_setWidth_self]
  | himm16 v => simp [epOf, h1, h2, withEp, extractLsb'_setWidth_self]
  | imm32 v => simp [epOf, h1, h2, withEp]
  | reserved k => fin_cases k <;> simp [epOf, h1, withEp]

/-- A second operand is read back from the fields it is put in. -/
theorem operandOf_of_fields (b : OperandB) (c d : Command) (h1 : d.bsel = (withOperand b c).bsel)
    (h2 : d.rb = (withOperand b c).rb) (h3 : immOf d = immOf (withOperand b c)) : operandOf d = b := by
  have := operandOf_withOperand b c
  simpa only [operandOf, h1, h2, h3] using this

/-! ## The decoder reads back the encoder's record -/

/-- The decoder on the fields of an encoded instruction. -/
theorem decodeOp_encode (i : Instr) : decodeOp i.op (encode i) = i := by
  cases i
  all_goals
    simp only [decodeOp, encode, Instr.op, Op.blank, Command.zero, immOf, withImm, regOf_bitsOf, bitOf_bitBits,
      extOf_toBits, optReg_optBits, extractLsb'_setWidth_self, Nat.reduceLeDiff]
  all_goals
    congr 1
    first
      | exact operandOf_of_fields _ _ _ rfl rfl rfl
      | exact epOf_of_fields _ _ _ rfl rfl

/-- The op field of an encoded instruction is its operation's (30_encoding.md R92). -/
theorem encode_op (i : Instr) : (encode i).op = i.op.code := by
  cases i <;> simp only [encode, Instr.op, withOperand_op, withEp_op, withImm, Op.blank]

/-- Decoding the record of an instruction gives it back, well-formed or not. -/
theorem decode_encode (i : Instr) : decode (encode i) = .ok i := by
  simp only [decode, encode_op, Op.ofCode_code, decodeOp_encode]

/-- The operation the decoder reads is the op field's. -/
theorem op_of_decode {c : Command} {i : Instr} (h : decode c = .ok i) : i.op.code = c.op := by
  simp only [decode] at h
  split at h
  · rename_i o ho
    cases h
    rw [← Op.code_of_ofCode ho]
    cases o <;> rfl
  · cases h

/-- The decoder refuses a record only for its op field (30_encoding.md R99). -/
theorem decode_ok_iff (c : Command) : (∃ i, decode c = .ok i) ↔ Op.ofCode c.op ≠ none := by
  simp only [decode]
  cases h : Op.ofCode c.op <;> simp

/-! ## The packing -/

/-- The lower part of a joined word. -/
theorem extractLsb'_append_low {n m : Nat} (x : BitVec n) (y : BitVec m) : (x ++ y).extractLsb' 0 m = y := by
  apply BitVec.eq_of_getLsbD_eq
  intro i hi
  simp [BitVec.getLsbD_append, hi]

/-- A field above the lower part of a joined word. -/
theorem extractLsb'_append_high {n m s w : Nat} (x : BitVec n) (y : BitVec m) (h : m ≤ s) :
    (x ++ y).extractLsb' s w = x.extractLsb' (s - m) w := by
  apply BitVec.eq_of_getLsbD_eq
  intro i hi
  have h1 : ¬ s + i < m := by omega
  have h2 : s + i - m = s - m + i := by omega
  simp [BitVec.getLsbD_append, hi, h1, h2]

/-- The fields of the packed record are the record's. -/
theorem ofBits_toBits (c : Command) : Command.ofBits c.toBits = c := by
  obtain ⟨⟩ := c
  simp only [Command.ofBits, Command.toBits, Command.mk.injEq]
  refine ⟨?_, ?_, ?_, ?_, ?_, ?_, ?_, ?_, ?_, ?_, ?_, ?_, ?_, ?_, ?_, ?_, ?_, ?_, ?_, ?_, ?_⟩ <;>
    simp (disch := decide) only [extractLsb'_append_low, extractLsb'_append_high, Nat.reduceSub]

/-- The three bits above the record are 0 (log 1). -/
theorem toBits_padding (c : Command) : c.toBits.extractLsb' 125 3 = 0 := by
  simp (disch := decide) only [Command.toBits, extractLsb'_append_high, Nat.reduceSub]
  decide

/-- A number of `n` bytes is read back from its bytes. -/
theorem littleEndian_bytesOf (n v : Nat) (h : v < 256 ^ n) : littleEndian (bytesOf n v) = v := by
  induction n generalizing v with
  | zero => simp at h; simp [bytesOf, littleEndian, h]
  | succ n ih =>
    rw [bytesOf, littleEndian, ih _ (by rw [Nat.div_lt_iff_lt_mul (by omega)]; rwa [pow_succ] at h)]
    simp only [BitVec.toNat_ofNat, Nat.reducePow]
    omega

@[simp] theorem length_bytesOf (n v : Nat) : (bytesOf n v).length = n := by
  induction n generalizing v with
  | zero => rfl
  | succ n ih => simp [bytesOf, ih]

/-- The 16 bytes of a word of 128 bits are read back, whatever follows them. -/
theorem decodeBytes_bytesOf (w : BitVec 128) (rest : List Byte) (h : w.extractLsb' 125 3 = 0) :
    decodeBytes (bytesOf 16 w.toNat ++ rest) =
      match decode (Command.ofBits w) with
      | .ok i => .ok (i, rest)
      | .error e => .error e := by
  have ht : (bytesOf 16 w.toNat ++ rest).take 16 = bytesOf 16 w.toNat := List.take_left' (length_bytesOf ..)
  have hd : (bytesOf 16 w.toNat ++ rest).drop 16 = rest := List.drop_left' (length_bytesOf ..)
  have hw : BitVec.ofNat 128 (littleEndian (bytesOf 16 w.toNat)) = w := by
    rw [littleEndian_bytesOf _ _ (by have := w.isLt; simpa using this)]
    exact BitVec.eq_of_toNat_eq (by simp)
  have hl : ¬ (bytesOf 16 w.toNat ++ rest).length < 16 := by simp
  cases hc : decode (Command.ofBits w) <;>
    simp only [decodeBytes, hl, if_false, ht, hd, hw, h, ne_eq, not_true_eq_false, hc]

/-- The command the host's word stands for decodes to what `decodeTableWord` answers, where its padding is clear. -/
theorem decodeTableWord_eq (nbits w : Nat) (h : (tableBits nbits w).extractLsb' 125 3 = 0) :
    decodeTableWord nbits w = (decode (Command.ofBits (tableBits nbits w))).toOption := by
  have := decodeBytes_bytesOf (tableBits nbits w) [] h
  rw [List.append_nil] at this
  rw [decodeTableWord, this]
  cases decode (Command.ofBits (tableBits nbits w)) <;> rfl

end Sys2Proof
end

