-- ==== Sys2Proof/Laws/State.lean ====
section
/-! SUPPORT. One lemma per field per update of the state, all true by rfl. -/

namespace Sys2Proof.Machine

section SetPc

variable (s : State) (a : Word)

@[simp] theorem State.setPc_regs : (s.setPc a).regs = s.regs := rfl
@[simp] theorem State.setPc_sregs : (s.setPc a).sregs = s.sregs := rfl
@[simp] theorem State.setPc_pc : (s.setPc a).pc = a := rfl
@[simp] theorem State.setPc_status : (s.setPc a).status = s.status := rfl
@[simp] theorem State.setPc_mem : (s.setPc a).mem = s.mem := rfl
@[simp] theorem State.setPc_program : (s.setPc a).program = s.program := rfl
@[simp] theorem State.setPc_lastOutcome : (s.setPc a).lastOutcome = s.lastOutcome := rfl
@[simp] theorem State.setPc_draws : (s.setPc a).draws = s.draws := rfl
@[simp] theorem State.setPc_params : (s.setPc a).params = s.params := rfl

end SetPc

section SetMem

variable (s : State) (m : Memory)

@[simp] theorem State.setMem_regs : (s.setMem m).regs = s.regs := rfl
@[simp] theorem State.setMem_sregs : (s.setMem m).sregs = s.sregs := rfl
@[simp] theorem State.setMem_pc : (s.setMem m).pc = s.pc := rfl
@[simp] theorem State.setMem_status : (s.setMem m).status = s.status := rfl
@[simp] theorem State.setMem_mem : (s.setMem m).mem = m := rfl
@[simp] theorem State.setMem_program : (s.setMem m).program = s.program := rfl
@[simp] theorem State.setMem_lastOutcome : (s.setMem m).lastOutcome = s.lastOutcome := rfl
@[simp] theorem State.setMem_draws : (s.setMem m).draws = s.draws := rfl
@[simp] theorem State.setMem_params : (s.setMem m).params = s.params := rfl

end SetMem

section SetStatus

variable (s : State) (r : RunStatus)

@[simp] theorem State.setStatus_regs : (s.setStatus r).regs = s.regs := rfl
@[simp] theorem State.setStatus_sregs : (s.setStatus r).sregs = s.sregs := rfl
@[simp] theorem State.setStatus_pc : (s.setStatus r).pc = s.pc := rfl
@[simp] theorem State.setStatus_status : (s.setStatus r).status = r := rfl
@[simp] theorem State.setStatus_mem : (s.setStatus r).mem = s.mem := rfl
@[simp] theorem State.setStatus_program : (s.setStatus r).program = s.program := rfl
@[simp] theorem State.setStatus_lastOutcome : (s.setStatus r).lastOutcome = s.lastOutcome := rfl
@[simp] theorem State.setStatus_draws : (s.setStatus r).draws = s.draws := rfl
@[simp] theorem State.setStatus_params : (s.setStatus r).params = s.params := rfl

end SetStatus

section SetOutcome

variable (s : State) (o : BlockOutcome)

@[simp] theorem State.setOutcome_regs : (s.setOutcome o).regs = s.regs := rfl
@[simp] theorem State.setOutcome_sregs : (s.setOutcome o).sregs = s.sregs := rfl
@[simp] theorem State.setOutcome_pc : (s.setOutcome o).pc = s.pc := rfl
@[simp] theorem State.setOutcome_status : (s.setOutcome o).status = s.status := rfl
@[simp] theorem State.setOutcome_mem : (s.setOutcome o).mem = s.mem := rfl
@[simp] theorem State.setOutcome_program : (s.setOutcome o).program = s.program := rfl
@[simp] theorem State.setOutcome_lastOutcome : (s.setOutcome o).lastOutcome = some o := rfl
@[simp] theorem State.setOutcome_draws : (s.setOutcome o).draws = s.draws := rfl
@[simp] theorem State.setOutcome_params : (s.setOutcome o).params = s.params := rfl

end SetOutcome

section SetProgram

variable (s : State) (p : List (Nat × Command))

@[simp] theorem State.setProgram_regs : (s.setProgram p).regs = s.regs := rfl
@[simp] theorem State.setProgram_sregs : (s.setProgram p).sregs = s.sregs := rfl
@[simp] theorem State.setProgram_pc : (s.setProgram p).pc = s.pc := rfl
@[simp] theorem State.setProgram_status : (s.setProgram p).status = s.status := rfl
@[simp] theorem State.setProgram_mem : (s.setProgram p).mem = s.mem := rfl
@[simp] theorem State.setProgram_program : (s.setProgram p).program = p := rfl
@[simp] theorem State.setProgram_lastOutcome : (s.setProgram p).lastOutcome = s.lastOutcome := rfl
@[simp] theorem State.setProgram_draws : (s.setProgram p).draws = s.draws := rfl
@[simp] theorem State.setProgram_params : (s.setProgram p).params = s.params := rfl

end SetProgram

section BumpDraws

variable (s : State)

@[simp] theorem State.bumpDraws_regs : s.bumpDraws.regs = s.regs := rfl
@[simp] theorem State.bumpDraws_sregs : s.bumpDraws.sregs = s.sregs := rfl
@[simp] theorem State.bumpDraws_pc : s.bumpDraws.pc = s.pc := rfl
@[simp] theorem State.bumpDraws_status : s.bumpDraws.status = s.status := rfl
@[simp] theorem State.bumpDraws_mem : s.bumpDraws.mem = s.mem := rfl
@[simp] theorem State.bumpDraws_program : s.bumpDraws.program = s.program := rfl
@[simp] theorem State.bumpDraws_lastOutcome : s.bumpDraws.lastOutcome = s.lastOutcome := rfl
@[simp] theorem State.bumpDraws_draws : s.bumpDraws.draws = s.draws + 1 := rfl
@[simp] theorem State.bumpDraws_params : s.bumpDraws.params = s.params := rfl

end BumpDraws

section WriteReg

variable (s : State) (r : Reg) (v : Word)

@[simp] theorem State.writeReg_sregs : (s.writeReg r v).sregs = s.sregs := rfl
@[simp] theorem State.writeReg_pc : (s.writeReg r v).pc = s.pc := rfl
@[simp] theorem State.writeReg_status : (s.writeReg r v).status = s.status := rfl
@[simp] theorem State.writeReg_mem : (s.writeReg r v).mem = s.mem := rfl
@[simp] theorem State.writeReg_program : (s.writeReg r v).program = s.program := rfl
@[simp] theorem State.writeReg_lastOutcome : (s.writeReg r v).lastOutcome = s.lastOutcome := rfl
@[simp] theorem State.writeReg_draws : (s.writeReg r v).draws = s.draws := rfl
@[simp] theorem State.writeReg_params : (s.writeReg r v).params = s.params := rfl

end WriteReg

section WriteSys

variable (s : State) (n : SysReg) (v : Word)

@[simp] theorem State.writeSys_regs : (s.writeSys n v).regs = s.regs := rfl
@[simp] theorem State.writeSys_sregs : (s.writeSys n v).sregs = s.sregs.set n v := rfl
@[simp] theorem State.writeSys_pc : (s.writeSys n v).pc = s.pc := rfl
@[simp] theorem State.writeSys_status : (s.writeSys n v).status = s.status := rfl
@[simp] theorem State.writeSys_mem : (s.writeSys n v).mem = s.mem := rfl
@[simp] theorem State.writeSys_program : (s.writeSys n v).program = s.program := rfl
@[simp] theorem State.writeSys_lastOutcome : (s.writeSys n v).lastOutcome = s.lastOutcome := rfl
@[simp] theorem State.writeSys_draws : (s.writeSys n v).draws = s.draws := rfl
@[simp] theorem State.writeSys_params : (s.writeSys n v).params = s.params := rfl

end WriteSys

@[simp] theorem State.writeReg_regs (s : State) (r : Reg) (v : Word) : (s.writeReg r v).regs = s.regs.set r v := rfl

/-! The updates built from these: PSW, one flag, an optional register, memory. -/

section WritePsw

variable (s : State) (v : Word)

@[simp] theorem State.writePsw_regs : (s.writePsw v).regs = s.regs := rfl
@[simp] theorem State.writePsw_pc : (s.writePsw v).pc = s.pc := rfl
@[simp] theorem State.writePsw_status : (s.writePsw v).status = s.status := rfl
@[simp] theorem State.writePsw_mem : (s.writePsw v).mem = s.mem := rfl
@[simp] theorem State.writePsw_program : (s.writePsw v).program = s.program := rfl
@[simp] theorem State.writePsw_lastOutcome : (s.writePsw v).lastOutcome = s.lastOutcome := rfl
@[simp] theorem State.writePsw_draws : (s.writePsw v).draws = s.draws := rfl
@[simp] theorem State.writePsw_params : (s.writePsw v).params = s.params := rfl

end WritePsw

section SetFlag

variable (s : State) (f : Flag) (b : Bool)

@[simp] theorem State.setFlag_regs : (s.setFlag f b).regs = s.regs := rfl
@[simp] theorem State.setFlag_pc : (s.setFlag f b).pc = s.pc := rfl
@[simp] theorem State.setFlag_status : (s.setFlag f b).status = s.status := rfl
@[simp] theorem State.setFlag_mem : (s.setFlag f b).mem = s.mem := rfl
@[simp] theorem State.setFlag_program : (s.setFlag f b).program = s.program := rfl
@[simp] theorem State.setFlag_lastOutcome : (s.setFlag f b).lastOutcome = s.lastOutcome := rfl
@[simp] theorem State.setFlag_draws : (s.setFlag f b).draws = s.draws := rfl
@[simp] theorem State.setFlag_params : (s.setFlag f b).params = s.params := rfl

end SetFlag

section MemWrite

variable (s : State) (a : Word) (n : Nat) (v : Word)

@[simp] theorem State.memWrite_regs : (s.memWrite a n v).regs = s.regs := rfl
@[simp] theorem State.memWrite_sregs : (s.memWrite a n v).sregs = s.sregs := rfl
@[simp] theorem State.memWrite_pc : (s.memWrite a n v).pc = s.pc := rfl
@[simp] theorem State.memWrite_status : (s.memWrite a n v).status = s.status := rfl
@[simp] theorem State.memWrite_mem : (s.memWrite a n v).mem = s.mem.write a n v := rfl
@[simp] theorem State.memWrite_program : (s.memWrite a n v).program = s.programAfterStore a n := rfl
@[simp] theorem State.memWrite_lastOutcome : (s.memWrite a n v).lastOutcome = s.lastOutcome := rfl
@[simp] theorem State.memWrite_draws : (s.memWrite a n v).draws = s.draws := rfl
@[simp] theorem State.memWrite_params : (s.memWrite a n v).params = s.params := rfl

end MemWrite

section WriteRegOpt

variable (s : State) (r : Option Reg) (v : Word)

@[simp] theorem State.writeRegOpt_sregs : (s.writeRegOpt r v).sregs = s.sregs := by cases r <;> rfl
@[simp] theorem State.writeRegOpt_pc : (s.writeRegOpt r v).pc = s.pc := by cases r <;> rfl
@[simp] theorem State.writeRegOpt_status : (s.writeRegOpt r v).status = s.status := by cases r <;> rfl
@[simp] theorem State.writeRegOpt_mem : (s.writeRegOpt r v).mem = s.mem := by cases r <;> rfl
@[simp] theorem State.writeRegOpt_program : (s.writeRegOpt r v).program = s.program := by cases r <;> rfl
@[simp] theorem State.writeRegOpt_lastOutcome : (s.writeRegOpt r v).lastOutcome = s.lastOutcome := by cases r <;> rfl
@[simp] theorem State.writeRegOpt_draws : (s.writeRegOpt r v).draws = s.draws := by cases r <;> rfl
@[simp] theorem State.writeRegOpt_params : (s.writeRegOpt r v).params = s.params := by cases r <;> rfl

end WriteRegOpt

end Sys2Proof.Machine
end

