-- ==== Sys2Proof/Laws/Registers.lean ====
section
/-! SUPPORT. Reading a register, a system register, PSW or a flag after each update. -/

namespace Sys2Proof.Machine

theorem readReg_eq (s : State) (r : Reg) : s.readReg r = s.regs.get r := rfl

theorem get_set_vec (v : Vector Word 32) (i j : Fin 32) (w : Word) :
    (v.set i w).get j = if i = j then w else v.get j := by
  simp only [Vector.get_eq_getElem, Vector.getElem_set, Fin.ext_iff]

/-- A register write is read back, and every other register keeps its value (10_state.md R20, R21). -/
theorem readReg_writeReg (s : State) (r q : Reg) (v : Word) :
    (s.writeReg r v).readReg q = if r = q then v else s.readReg q := get_set_vec ..

/-- A system-register write is read back, and every other entry keeps its value (10_state.md R29). -/
theorem readSys_writeSys (s : State) (n k : SysReg) (v : Word) :
    (s.writeSys n v).readSys k = if n = k then v else s.readSys k := get_set_vec ..

theorem readReg_writeRegOpt (s : State) (r : Option Reg) (q : Reg) (v : Word) :
    (s.writeRegOpt r v).readReg q = if r = some q then v else s.readReg q := by
  cases r with
  | none => simp [State.writeRegOpt]
  | some r => simp only [State.writeRegOpt, readReg_writeReg, Option.some.injEq]

/-! ## Registers through the other updates -/

theorem readReg_setPc (s : State) (a : Word) (q : Reg) : (s.setPc a).readReg q = s.readReg q := rfl
theorem readReg_setMem (s : State) (m : Memory) (q : Reg) : (s.setMem m).readReg q = s.readReg q := rfl
theorem readReg_setStatus (s : State) (r : RunStatus) (q : Reg) : (s.setStatus r).readReg q = s.readReg q := rfl
theorem readReg_setOutcome (s : State) (o : BlockOutcome) (q : Reg) : (s.setOutcome o).readReg q = s.readReg q := rfl
theorem readReg_bumpDraws (s : State) (q : Reg) : s.bumpDraws.readReg q = s.readReg q := rfl
theorem readReg_writeSys (s : State) (n : SysReg) (v : Word) (q : Reg) : (s.writeSys n v).readReg q = s.readReg q := rfl
theorem readReg_writePsw (s : State) (v : Word) (q : Reg) : (s.writePsw v).readReg q = s.readReg q := rfl
theorem readReg_setFlag (s : State) (f : Flag) (b : Bool) (q : Reg) : (s.setFlag f b).readReg q = s.readReg q := rfl
theorem readReg_memWrite (s : State) (a : Word) (n : Nat) (v : Word) (q : Reg) :
    (s.memWrite a n v).readReg q = s.readReg q := rfl

theorem readSys_setPc (s : State) (a : Word) (k : SysReg) : (s.setPc a).readSys k = s.readSys k := rfl
theorem readSys_setMem (s : State) (m : Memory) (k : SysReg) : (s.setMem m).readSys k = s.readSys k := rfl
theorem readSys_setStatus (s : State) (r : RunStatus) (k : SysReg) : (s.setStatus r).readSys k = s.readSys k := rfl
theorem readSys_setOutcome (s : State) (o : BlockOutcome) (k : SysReg) : (s.setOutcome o).readSys k = s.readSys k := rfl
theorem readSys_bumpDraws (s : State) (k : SysReg) : s.bumpDraws.readSys k = s.readSys k := rfl
theorem readSys_writeReg (s : State) (r : Reg) (v : Word) (k : SysReg) : (s.writeReg r v).readSys k = s.readSys k := rfl
theorem readSys_writeRegOpt (s : State) (r : Option Reg) (v : Word) (k : SysReg) :
    (s.writeRegOpt r v).readSys k = s.readSys k := by cases r <;> rfl
theorem readSys_memWrite (s : State) (a : Word) (n : Nat) (v : Word) (k : SysReg) :
    (s.memWrite a n v).readSys k = s.readSys k := rfl

/-- PSW is the bank entry 5 (10_state.md R28). -/
theorem psw_eq_readSys (s : State) : s.psw = s.readSys SysReg.psw := rfl

theorem readSys_writePsw (s : State) (v : Word) (k : SysReg) :
    (s.writePsw v).readSys k = if SysReg.psw = k then v else s.readSys k := readSys_writeSys ..

theorem readSys_setFlag (s : State) (f : Flag) (b : Bool) (k : SysReg) :
    (s.setFlag f b).readSys k = if SysReg.psw = k then setBit s.psw (flagBit f) b else s.readSys k :=
  readSys_writeSys ..

theorem psw_writePsw (s : State) (v : Word) : (s.writePsw v).psw = v := by
  rw [psw_eq_readSys, readSys_writePsw, if_pos rfl]

theorem psw_setFlag (s : State) (f : Flag) (b : Bool) : (s.setFlag f b).psw = setBit s.psw (flagBit f) b :=
  psw_writePsw ..

theorem psw_writeSys (s : State) (n : SysReg) (v : Word) :
    (s.writeSys n v).psw = if n = SysReg.psw then v else s.psw := readSys_writeSys ..

theorem psw_writeReg (s : State) (r : Reg) (v : Word) : (s.writeReg r v).psw = s.psw := rfl
theorem psw_writeRegOpt (s : State) (r : Option Reg) (v : Word) : (s.writeRegOpt r v).psw = s.psw := by cases r <;> rfl
theorem psw_setPc (s : State) (a : Word) : (s.setPc a).psw = s.psw := rfl
theorem psw_setMem (s : State) (m : Memory) : (s.setMem m).psw = s.psw := rfl
theorem psw_setOutcome (s : State) (o : BlockOutcome) : (s.setOutcome o).psw = s.psw := rfl
theorem psw_bumpDraws (s : State) : s.bumpDraws.psw = s.psw := rfl
theorem psw_memWrite (s : State) (a : Word) (n : Nat) (v : Word) : (s.memWrite a n v).psw = s.psw := rfl

/-! ## Bits of PSW -/

/-- Replacing a bit changes that bit alone (10_state.md R26). -/
theorem getLsbD_setBit (w : Word) (i k : Nat) (b : Bool) (hi : i < 32) :
    (setBit w i b).getLsbD k = if k = i then b else w.getLsbD k := by
  have hs : (1#32 <<< i).getLsbD k = decide (k = i) := by
    rw [BitVec.getLsbD_shiftLeft, BitVec.getLsbD_one]
    by_cases h : k = i
    · subst h; simp [hi]
    · by_cases h' : k < i
      · simp [h', h]
      · have : k - i ≠ 0 := by omega
        simp [this, h]
  cases b
  · simp only [setBit, Bool.false_eq_true, if_false, BitVec.getLsbD_and, BitVec.getLsbD_not, hs]
    by_cases h : k = i
    · simp [h]
    · by_cases hk : k < 32
      · simp [h, hk]
      · simp [h, hk, BitVec.getLsbD_of_ge w k (by omega)]
  · simp only [setBit, if_true, BitVec.getLsbD_or, hs]
    by_cases h : k = i <;> simp [h]

theorem flagBit_lt (f : Flag) : flagBit f < 32 := by cases f <;> decide

theorem flagBit_inj (f g : Flag) : flagBit f = flagBit g ↔ f = g := by
  cases f <;> cases g <;> decide

/-- `PSW.F <- b` writes bit F alone (00_scope.md R10). -/
theorem getLsbD_psw_setFlag (s : State) (f : Flag) (b : Bool) (k : Nat) :
    (s.setFlag f b).psw.getLsbD k = if k = flagBit f then b else s.psw.getLsbD k := by
  rw [psw_setFlag, getLsbD_setBit _ _ _ _ (flagBit_lt f)]

theorem flag_setFlag (s : State) (f g : Flag) (b : Bool) :
    (s.setFlag f b).flag g = if g = f then b else s.flag g := by
  simp only [State.flag, getLsbD_psw_setFlag, flagBit_inj]

end Sys2Proof.Machine
end

