-- ==== Sys2Proof/Laws/Flags.lean ====
section
/-! SUPPORT. The bits of PSW after each group of flags is written (41_alu.md R150), and that nothing else changes. -/

namespace Sys2Proof.Machine

/-- Z and S: bits 0 and 1. -/
theorem getLsbD_psw_setZS (r : Word) (s : State) (k : Nat) :
    (setZS r s).psw.getLsbD k = if k = 1 then sf r else if k = 0 then zf r else s.psw.getLsbD k := by
  simp only [setZS, getLsbD_psw_setFlag, flagBit]
  rfl

/-- Z, S, CY and OV: bits 0 to 3. -/
theorem getLsbD_psw_setArith (r : Word) (cy ov : Bool) (s : State) (k : Nat) :
    (setArith r cy ov s).psw.getLsbD k =
      if k = 2 then ov else if k = 3 then cy else if k = 1 then sf r else if k = 0 then zf r else s.psw.getLsbD k := by
  simp only [setArith, getLsbD_psw_setFlag, getLsbD_psw_setZS, flagBit]

/-- SAT: bit 4, set on overflow only. -/
theorem getLsbD_psw_setSat (ov : Bool) (s : State) (k : Nat) :
    (setSat ov s).psw.getLsbD k = if k = 4 then (s.psw.getLsbD 4 || ov) else s.psw.getLsbD k := by
  cases ov
  · simp only [setSat, Bool.false_eq_true, if_false, Bool.or_false]
    by_cases h : k = 4 <;> simp [h]
  · simp only [setSat, if_true, getLsbD_psw_setFlag, flagBit, Bool.or_true]
    rfl

/-- Z, S, and OV cleared. -/
theorem getLsbD_psw_setLogic (r : Word) (s : State) (k : Nat) :
    (setLogic r s).psw.getLsbD k =
      if k = 2 then false else if k = 1 then sf r else if k = 0 then zf r else s.psw.getLsbD k := by
  simp only [setLogic, getLsbD_psw_setFlag, getLsbD_psw_setZS, flagBit]

/-- CY, Z, S, and OV cleared. -/
theorem getLsbD_psw_setShift (r : Word) (cy : Bool) (s : State) (k : Nat) :
    (setShift r cy s).psw.getLsbD k =
      if k = 2 then false else if k = 1 then sf r else if k = 0 then zf r else if k = 3 then cy
      else s.psw.getLsbD k := by
  simp only [setShift, getLsbD_psw_setFlag, getLsbD_psw_setZS, flagBit]
  rfl

/-- Z, S and OV. -/
theorem getLsbD_psw_setDiv (q : Word) (ov : Bool) (s : State) (k : Nat) :
    (setDiv q ov s).psw.getLsbD k =
      if k = 2 then ov else if k = 1 then sf q else if k = 0 then zf q else s.psw.getLsbD k := by
  simp only [setDiv, getLsbD_psw_setFlag, getLsbD_psw_setZS, flagBit]

section SetZS

variable (r : Word) (s : State)

@[simp] theorem setZS_regs : (setZS r s).regs = s.regs := rfl
@[simp] theorem setZS_pc : (setZS r s).pc = s.pc := rfl
@[simp] theorem setZS_status : (setZS r s).status = s.status := rfl
@[simp] theorem setZS_mem : (setZS r s).mem = s.mem := rfl
@[simp] theorem setZS_program : (setZS r s).program = s.program := rfl
@[simp] theorem setZS_lastOutcome : (setZS r s).lastOutcome = s.lastOutcome := rfl
@[simp] theorem setZS_draws : (setZS r s).draws = s.draws := rfl
@[simp] theorem setZS_params : (setZS r s).params = s.params := rfl
theorem readReg_setZS (q : Reg) : (setZS r s).readReg q = s.readReg q := rfl
theorem readSys_setZS (k : SysReg) (h : k ≠ SysReg.psw) : (setZS r s).readSys k = s.readSys k := by
  simp only [setZS, setZS, readSys_setFlag, if_neg (Ne.symm h)]

end SetZS

section SetArith

variable (r : Word) (cy ov : Bool) (s : State)

@[simp] theorem setArith_regs : (setArith r cy ov s).regs = s.regs := rfl
@[simp] theorem setArith_pc : (setArith r cy ov s).pc = s.pc := rfl
@[simp] theorem setArith_status : (setArith r cy ov s).status = s.status := rfl
@[simp] theorem setArith_mem : (setArith r cy ov s).mem = s.mem := rfl
@[simp] theorem setArith_program : (setArith r cy ov s).program = s.program := rfl
@[simp] theorem setArith_lastOutcome : (setArith r cy ov s).lastOutcome = s.lastOutcome := rfl
@[simp] theorem setArith_draws : (setArith r cy ov s).draws = s.draws := rfl
@[simp] theorem setArith_params : (setArith r cy ov s).params = s.params := rfl
theorem readReg_setArith (q : Reg) : (setArith r cy ov s).readReg q = s.readReg q := rfl
theorem readSys_setArith (k : SysReg) (h : k ≠ SysReg.psw) : (setArith r cy ov s).readSys k = s.readSys k := by
  simp only [setArith, setZS, readSys_setFlag, if_neg (Ne.symm h)]

end SetArith

section SetSat

variable (ov : Bool) (s : State)

@[simp] theorem setSat_regs : (setSat ov s).regs = s.regs := by cases ov <;> rfl
@[simp] theorem setSat_pc : (setSat ov s).pc = s.pc := by cases ov <;> rfl
@[simp] theorem setSat_status : (setSat ov s).status = s.status := by cases ov <;> rfl
@[simp] theorem setSat_mem : (setSat ov s).mem = s.mem := by cases ov <;> rfl
@[simp] theorem setSat_program : (setSat ov s).program = s.program := by cases ov <;> rfl
@[simp] theorem setSat_lastOutcome : (setSat ov s).lastOutcome = s.lastOutcome := by cases ov <;> rfl
@[simp] theorem setSat_draws : (setSat ov s).draws = s.draws := by cases ov <;> rfl
@[simp] theorem setSat_params : (setSat ov s).params = s.params := by cases ov <;> rfl
theorem readReg_setSat (q : Reg) : (setSat ov s).readReg q = s.readReg q := by cases ov <;> rfl
theorem readSys_setSat (k : SysReg) (h : k ≠ SysReg.psw) : (setSat ov s).readSys k = s.readSys k := by
  cases ov
  · rfl
  · simp only [setSat, if_true, readSys_setFlag, if_neg (Ne.symm h)]

end SetSat

section SetLogic

variable (r : Word) (s : State)

@[simp] theorem setLogic_regs : (setLogic r s).regs = s.regs := rfl
@[simp] theorem setLogic_pc : (setLogic r s).pc = s.pc := rfl
@[simp] theorem setLogic_status : (setLogic r s).status = s.status := rfl
@[simp] theorem setLogic_mem : (setLogic r s).mem = s.mem := rfl
@[simp] theorem setLogic_program : (setLogic r s).program = s.program := rfl
@[simp] theorem setLogic_lastOutcome : (setLogic r s).lastOutcome = s.lastOutcome := rfl
@[simp] theorem setLogic_draws : (setLogic r s).draws = s.draws := rfl
@[simp] theorem setLogic_params : (setLogic r s).params = s.params := rfl
theorem readReg_setLogic (q : Reg) : (setLogic r s).readReg q = s.readReg q := rfl
theorem readSys_setLogic (k : SysReg) (h : k ≠ SysReg.psw) : (setLogic r s).readSys k = s.readSys k := by
  simp only [setLogic, setZS, readSys_setFlag, if_neg (Ne.symm h)]

end SetLogic

section SetShift

variable (r : Word) (cy : Bool) (s : State)

@[simp] theorem setShift_regs : (setShift r cy s).regs = s.regs := rfl
@[simp] theorem setShift_pc : (setShift r cy s).pc = s.pc := rfl
@[simp] theorem setShift_status : (setShift r cy s).status = s.status := rfl
@[simp] theorem setShift_mem : (setShift r cy s).mem = s.mem := rfl
@[simp] theorem setShift_program : (setShift r cy s).program = s.program := rfl
@[simp] theorem setShift_lastOutcome : (setShift r cy s).lastOutcome = s.lastOutcome := rfl
@[simp] theorem setShift_draws : (setShift r cy s).draws = s.draws := rfl
@[simp] theorem setShift_params : (setShift r cy s).params = s.params := rfl
theorem readReg_setShift (q : Reg) : (setShift r cy s).readReg q = s.readReg q := rfl
theorem readSys_setShift (k : SysReg) (h : k ≠ SysReg.psw) : (setShift r cy s).readSys k = s.readSys k := by
  simp only [setShift, setZS, readSys_setFlag, if_neg (Ne.symm h)]

end SetShift

section SetDiv

variable (q : Word) (ov : Bool) (s : State)

@[simp] theorem setDiv_regs : (setDiv q ov s).regs = s.regs := rfl
@[simp] theorem setDiv_pc : (setDiv q ov s).pc = s.pc := rfl
@[simp] theorem setDiv_status : (setDiv q ov s).status = s.status := rfl
@[simp] theorem setDiv_mem : (setDiv q ov s).mem = s.mem := rfl
@[simp] theorem setDiv_program : (setDiv q ov s).program = s.program := rfl
@[simp] theorem setDiv_lastOutcome : (setDiv q ov s).lastOutcome = s.lastOutcome := rfl
@[simp] theorem setDiv_draws : (setDiv q ov s).draws = s.draws := rfl
@[simp] theorem setDiv_params : (setDiv q ov s).params = s.params := rfl
theorem readReg_setDiv (q : Reg) : (setDiv q ov s).readReg q = s.readReg q := rfl
theorem readSys_setDiv (k : SysReg) (h : k ≠ SysReg.psw) : (setDiv q ov s).readSys k = s.readSys k := by
  simp only [setDiv, setZS, readSys_setFlag, if_neg (Ne.symm h)]

end SetDiv

section CountDraw

variable (d : Bool) (s : State)

@[simp] theorem countDraw_regs : (countDraw d s).regs = s.regs := by cases d <;> rfl
@[simp] theorem countDraw_pc : (countDraw d s).pc = s.pc := by cases d <;> rfl
@[simp] theorem countDraw_status : (countDraw d s).status = s.status := by cases d <;> rfl
@[simp] theorem countDraw_mem : (countDraw d s).mem = s.mem := by cases d <;> rfl
@[simp] theorem countDraw_program : (countDraw d s).program = s.program := by cases d <;> rfl
@[simp] theorem countDraw_lastOutcome : (countDraw d s).lastOutcome = s.lastOutcome := by cases d <;> rfl
@[simp] theorem countDraw_params : (countDraw d s).params = s.params := by cases d <;> rfl
@[simp] theorem countDraw_sregs : (countDraw d s).sregs = s.sregs := by cases d <;> rfl
theorem readReg_countDraw (q : Reg) : (countDraw d s).readReg q = s.readReg q := by cases d <;> rfl
theorem readSys_countDraw (k : SysReg) : (countDraw d s).readSys k = s.readSys k := by cases d <;> rfl

end CountDraw

theorem countDraw_psw (d : Bool) (s : State) : (countDraw d s).psw = s.psw := by cases d <;> rfl

theorem zf_eq (r : Word) : zf r = decide (r = 0) := by
  simp only [zf]; exact Bool.eq_iff_iff.2 (by simp)

end Sys2Proof.Machine
end

