-- ==== Sys2Proof/Laws/Memory.lean ====
section
/-! SUPPORT. The laws of the tables keyed by address and of the memory port (20_memory.md R61, R62). -/

namespace Sys2Proof.Machine

variable {α : Type}

/-! ## Tables -/

theorem lookupKey_insertKey_self (a : Nat) (v : α) (m : List (Nat × α)) (h : lookupKey a m = none) :
    lookupKey a (insertKey a v m) = some v := by
  induction m with
  | nil => simp [insertKey, lookupKey]
  | cons p m ih =>
    obtain ⟨k, w⟩ := p
    have hk : k ≠ a := by
      intro hk; simp [lookupKey, hk] at h
    simp only [lookupKey, hk, if_false] at h
    by_cases hlt : a < k
    · simp [insertKey, hlt, lookupKey]
    · simp [insertKey, hlt, lookupKey, hk, ih h]

theorem lookupKey_insertKey_ne (a b : Nat) (v : α) (m : List (Nat × α)) (h : b ≠ a) :
    lookupKey b (insertKey a v m) = lookupKey b m := by
  induction m with
  | nil => simp [insertKey, lookupKey, Ne.symm h]
  | cons p m ih =>
    obtain ⟨k, w⟩ := p
    by_cases hlt : a < k
    · simp [insertKey, hlt, lookupKey, Ne.symm h]
    · simp [insertKey, hlt, lookupKey, ih]

theorem lookupKey_eraseKey (a b : Nat) (m : List (Nat × α)) :
    lookupKey b (eraseKey a m) = if b = a then none else lookupKey b m := by
  unfold eraseKey
  induction m with
  | nil => simp [lookupKey]
  | cons p m ih =>
    obtain ⟨k, w⟩ := p
    by_cases hk : k = a
    · subst hk
      simp only [bne_self_eq_false, Bool.false_eq_true, not_false_eq_true, List.filter_cons_of_neg, ih, lookupKey]
      by_cases hb : b = k
      · simp [hb]
      · simp [hb, Ne.symm hb]
    · simp only [bne_iff_ne, ne_eq, hk, not_false_eq_true, List.filter_cons_of_pos, lookupKey, ih]
      by_cases hkb : k = b
      · simp [hkb, show ¬ b = a from fun h => hk (hkb.trans h)]
      · simp [hkb]

/-- What is put at a key is found there, and every other key keeps its value. -/
theorem lookupKey_put (a b : Nat) (v : α) (m : List (Nat × α)) :
    lookupKey b (insertKey a v (eraseKey a m)) = if b = a then some v else lookupKey b m := by
  by_cases h : b = a
  · subst h
    rw [if_pos rfl, lookupKey_insertKey_self]
    rw [lookupKey_eraseKey, if_pos rfl]
  · rw [if_neg h, lookupKey_insertKey_ne _ _ _ _ h, lookupKey_eraseKey, if_neg h]

/-- Every key of the table is at least `a`'s bound: the head bound that rising keys give. -/
theorem keysRise_iff_pairwise (m : List (Nat × α)) :
    keysRise m = true ↔ m.Pairwise (fun p q => p.1 < q.1) := by
  induction m with
  | nil => simp [keysRise]
  | cons p m ih =>
    cases m with
    | nil => simp [keysRise]
    | cons q m =>
      simp only [keysRise, Bool.and_eq_true, decide_eq_true_eq, ih]
      constructor
      · rintro ⟨hpq, hr⟩
        rw [List.pairwise_cons]
        refine ⟨?_, hr⟩
        intro x hx
        rcases List.mem_cons.1 hx with rfl | hx
        · exact hpq
        · exact lt_trans hpq ((List.pairwise_cons.1 hr).1 x hx)
      · intro h
        exact ⟨(List.pairwise_cons.1 h).1 q (List.mem_cons_self ..), (List.pairwise_cons.1 h).2⟩

/-- Taking pairs out keeps the keys rising. -/
theorem keysRise_filter (f : Nat × α → Bool) (m : List (Nat × α)) (h : keysRise m = true) :
    keysRise (m.filter f) = true := by
  rw [keysRise_iff_pairwise] at *
  exact h.filter _

theorem keysRise_eraseKey (a : Nat) (m : List (Nat × α)) (h : keysRise m = true) : keysRise (eraseKey a m) = true :=
  keysRise_filter _ m h

theorem mem_insertKey (a : Nat) (v : α) (m : List (Nat × α)) (x : Nat × α) :
    x ∈ insertKey a v m ↔ x = (a, v) ∨ x ∈ m := by
  induction m with
  | nil => simp [insertKey]
  | cons p m ih =>
    by_cases hlt : a < p.1
    · simp [insertKey, hlt]
    · simp only [insertKey, hlt, if_false, List.mem_cons, ih]
      tauto

theorem keysRise_insertKey (a : Nat) (v : α) (m : List (Nat × α)) (h : keysRise m = true)
    (ha : ∀ p ∈ m, p.1 ≠ a) : keysRise (insertKey a v m) = true := by
  rw [keysRise_iff_pairwise] at *
  induction m with
  | nil => simp [insertKey]
  | cons p m ih =>
    have hc := List.pairwise_cons.1 h
    by_cases hlt : a < p.1
    · simp only [insertKey, hlt, if_true]
      rw [List.pairwise_cons]
      refine ⟨?_, h⟩
      intro x hx
      rcases List.mem_cons.1 hx with rfl | hx
      · exact hlt
      · exact lt_trans hlt (hc.1 x hx)
    · simp only [insertKey, hlt, if_false]
      rw [List.pairwise_cons]
      refine ⟨?_, ih hc.2 fun q hq => ha q (List.mem_cons_of_mem _ hq)⟩
      intro x hx
      rcases (mem_insertKey a v m x).1 hx with rfl | hx
      · have := ha p (List.mem_cons_self ..)
        show p.1 < a
        omega
      · exact hc.1 x hx

/-- Putting a pair keeps the keys rising. -/
theorem keysRise_put (a : Nat) (v : α) (m : List (Nat × α)) (h : keysRise m = true) :
    keysRise (insertKey a v (eraseKey a m)) = true := by
  apply keysRise_insertKey _ _ _ (keysRise_eraseKey a m h)
  intro p hp
  simpa [eraseKey] using (List.mem_filter.1 hp).2

/-! ## Bytes -/

/-- A byte write is read back, and every other byte keeps its value (20_memory.md R62). -/
theorem readByte_writeByte (m : Memory) (a b : Word) (v : Byte) :
    (m.writeByte a v).readByte b = if b = a then v else m.readByte b := by
  have hab : b.toNat = a.toNat ↔ b = a := by rw [BitVec.toNat_inj]
  unfold Memory.writeByte Memory.readByte
  by_cases hv : v = Memory.unlisted
  · rw [if_pos hv, lookupKey_eraseKey]
    by_cases h : b = a
    · simp [h, hv]
    · simp [h, hab]
  · rw [if_neg hv, lookupKey_put]
    by_cases h : b = a
    · simp [h]
    · simp [h, hab]

/-- A byte write keeps the canonical form. -/
theorem wf_writeByte (m : Memory) (a : Word) (v : Byte) (h : m.wf = true) : (m.writeByte a v).wf = true := by
  simp only [Memory.wf, Bool.and_eq_true, List.all_eq_true, decide_eq_true_eq, bne_iff_ne, ne_eq] at h ⊢
  obtain ⟨hk, hb⟩ := h
  have herase : ∀ x ∈ eraseKey a.toNat m, x ∈ m := fun x hx => (List.mem_filter.1 hx).1
  unfold Memory.writeByte
  by_cases hv : v = Memory.unlisted
  · rw [if_pos hv]
    exact ⟨keysRise_eraseKey _ _ hk, fun x hx => hb x (herase x hx)⟩
  · rw [if_neg hv]
    refine ⟨keysRise_put _ _ _ hk, ?_⟩
    intro x hx
    rcases (mem_insertKey _ _ _ _).1 hx with rfl | hx
    · exact ⟨a.isLt, hv⟩
    · exact hb x (herase x hx)

/-- A write of any width keeps the canonical form. -/
theorem wf_write (m : Memory) (a : Word) (n : Nat) (v : Word) (h : m.wf = true) : (m.write a n v).wf = true := by
  induction n generalizing m a v with
  | zero => exact h
  | succ n ih => exact ih _ _ _ (wf_writeByte m a _ h)

/-- Writes of the host keep the canonical form. -/
theorem wf_writeAll (ws : List (Word × Byte)) (s : State) (h : s.mem.wf = true) : (writeAll s ws).mem.wf = true := by
  induction ws generalizing s with
  | nil => exact h
  | cons w ws ih => exact ih _ (wf_write _ _ _ _ h)

/-- Reset memory is in the canonical form. -/
theorem wf_reset : State.reset.mem.wf = true := rfl

/-! ## Wider accesses -/

/-- Distance in bytes decides which byte of a write an address takes. -/
theorem readByte_write (m : Memory) (a b : Word) (n : Nat) (v : Word) (hn : n < 2 ^ 32) :
    (m.write a n v).readByte b =
      if (b - a).toNat < n then (v >>> (8 * (b - a).toNat)).setWidth 8 else m.readByte b := by
  induction n generalizing m a v with
  | zero => simp [Memory.write]
  | succ n ih =>
    rw [Memory.write, ih _ _ _ (by omega), readByte_writeByte]
    by_cases h : b = a
    · subst h
      have h1 : (b - (b + 1)).toNat = 2 ^ 32 - 1 := by bv_omega
      rw [if_neg (by omega), if_pos rfl, if_pos (by simp)]
      simp
    · have hne : (b - a).toNat ≠ 0 := by
        intro h0; exact h (by bv_omega)
      have h1 : (b - (a + 1)).toNat = (b - a).toNat - 1 := by bv_omega
      rw [h1]
      by_cases hlt : (b - a).toNat < n + 1
      · rw [if_pos (by omega), if_pos hlt]
        congr 1
        rw [BitVec.shiftRight_add v 8 (8 * ((b - a).toNat - 1)) |>.symm]
        congr 1
        omega
      · rw [if_neg (by omega), if_neg hlt, if_neg h]

/-- A write leaves every byte outside its `n` bytes alone (20_memory.md R62). -/
theorem readByte_write_outside (m : Memory) (a b : Word) (n : Nat) (v : Word) (hn : n < 2 ^ 32)
    (h : n ≤ (b - a).toNat) : (m.write a n v).readByte b = m.readByte b := by
  rw [readByte_write _ _ _ _ _ hn, if_neg (by omega)]

/-- Bit `i` of a read is bit `i mod 8` of the byte `i / 8` above the address (20_memory.md R61, R63). -/
theorem getLsbD_read (m : Memory) (a : Word) (n i : Nat) (hi : i < 8 * n) (h32 : i < 32) :
    (m.read a n).getLsbD i = (m.readByte (a + BitVec.ofNat 32 (i / 8))).getLsbD (i % 8) := by
  induction n generalizing a i with
  | zero => omega
  | succ n ih =>
    rw [Memory.read, BitVec.getLsbD_or, BitVec.getLsbD_shiftLeft, BitVec.getLsbD_setWidth]
    by_cases h8 : i < 8
    · have h0 : i / 8 = 0 := by omega
      have hm : i % 8 = i := by omega
      simp [h8, h32, h0, hm]
    · have hz : (m.readByte a).getLsbD i = false := BitVec.getLsbD_of_ge _ _ (by omega)
      have hs : a + 1 + BitVec.ofNat 32 ((i - 8) / 8) = a + BitVec.ofNat 32 (i / 8) := by bv_omega
      rw [ih (a + 1) (i - 8) (by omega) (by omega), hs, hz]
      have hm : (i - 8) % 8 = i % 8 := by omega
      simp [h8, h32, hm]

/-- A read of `n` bytes has no bit above them (20_memory.md R61). -/
theorem getLsbD_read_high (m : Memory) (a : Word) (n i : Nat) (hi : 8 * n ≤ i) : (m.read a n).getLsbD i = false := by
  induction n generalizing a i with
  | zero => simp [Memory.read]
  | succ n ih =>
    rw [Memory.read, BitVec.getLsbD_or, BitVec.getLsbD_shiftLeft, BitVec.getLsbD_setWidth]
    rw [ih (a + 1) (i - 8) (by omega), BitVec.getLsbD_of_ge (m.readByte a) i (by omega)]
    simp

/-- A read sees only its own bytes. -/
theorem read_congr (m m' : Memory) (a : Word) (n : Nat)
    (h : ∀ k < n, m.readByte (a + BitVec.ofNat 32 k) = m'.readByte (a + BitVec.ofNat 32 k)) :
    m.read a n = m'.read a n := by
  induction n generalizing a with
  | zero => rfl
  | succ n ih =>
    rw [Memory.read, Memory.read, ih (a + 1)]
    · have := h 0 (by omega)
      rw [show a + BitVec.ofNat 32 0 = a by simp] at this
      rw [this]
    · intro k hk
      have := h (k + 1) (by omega)
      rwa [show a + BitVec.ofNat 32 (k + 1) = a + 1 + BitVec.ofNat 32 k by bv_omega] at this

/-- A word read back after it was written (20_memory.md R61, R62). -/
theorem read_write_word (m : Memory) (a v : Word) : (m.write a 4 v).read a 4 = v := by
  apply BitVec.eq_of_getLsbD_eq
  intro i hi
  rw [getLsbD_read _ _ _ _ (by omega) hi, readByte_write _ _ _ _ _ (by omega)]
  have hd : (a + BitVec.ofNat 32 (i / 8) - a).toNat = i / 8 := by bv_omega
  rw [hd, if_pos (by omega), BitVec.getLsbD_setWidth, BitVec.getLsbD_ushiftRight]
  have : 8 * (i / 8) + i % 8 = i := by omega
  rw [this]
  simp; omega

/-- A word read is not changed by a write of a word it does not overlap. -/
theorem read_write_word_apart (m : Memory) (a b v : Word) (h1 : 4 ≤ (b - a).toNat) (h2 : 4 ≤ (a - b).toNat) :
    (m.write a 4 v).read b 4 = m.read b 4 := by
  apply read_congr
  intro k hk
  apply readByte_write_outside _ _ _ _ _ (by omega)
  bv_omega

/-! ## The fetcher's view of a store (20_memory.md R74; log 4) -/

/-- Two short byte ranges meet exactly when a byte of the second is one of the first. -/
theorem rangesMeet_iff (a b : Word) (n k : Nat) (hn : 0 < n) (hk : 0 < k) (hk' : k < 2 ^ 32) :
    rangesMeet a n b k = true ↔ ∃ j < k, (b + BitVec.ofNat 32 j - a).toNat < n := by
  simp only [rangesMeet, Bool.or_eq_true, decide_eq_true_eq]
  constructor
  · rintro (h | h)
    · exact ⟨0, hk, by simpa using h⟩
    · exact ⟨(a - b).toNat, h, by rw [BitVec.ofNat_toNat, BitVec.setWidth_eq]; bv_omega⟩
  · rintro ⟨j, hj, h⟩
    bv_omega

theorem instrLen_bounds (c : Command) : 0 < instrLen c ∧ instrLen c ≤ 8 := by
  unfold instrLen Len.wf
  split
  · rename_i h
    simp only [Bool.or_eq_true, beq_iff_eq] at h
    rcases h with ((h | h) | h) | h <;> rw [h] <;> decide
  · decide

/-- All that a store can do to the program: where fetches see stores it takes out exactly the commands of which it stores
to a byte. -/
theorem mem_programAfterStore (s : State) (a : Word) (n : Nat) (hn : 0 < n) (p : Nat × Command) :
    p ∈ s.programAfterStore a n ↔ p ∈ s.program ∧
      (s.params.fetchSeesStores = true →
        ∀ k < instrLen p.2, n ≤ (BitVec.ofNat 32 p.1 + BitVec.ofNat 32 k - a).toNat) := by
  have hl := instrLen_bounds p.2
  have hm := rangesMeet_iff a (BitVec.ofNat 32 p.1) n (instrLen p.2) hn hl.1 (by omega)
  unfold State.programAfterStore
  cases s.params.fetchSeesStores with
  | false => simp
  | true =>
    simp only [if_true, List.mem_filter, Bool.not_eq_true', true_implies, ← Bool.not_eq_true, hm, not_exists, not_and,
      not_lt]

theorem programAfterStore_sublist (s : State) (a : Word) (n : Nat) : (s.programAfterStore a n).Sublist s.program := by
  unfold State.programAfterStore
  split
  · exact List.filter_sublist
  · exact List.Sublist.refl _

/-- Where fetches do not see stores, a store leaves the program alone. -/
theorem programAfterStore_of_unseen (s : State) (a : Word) (n : Nat) (h : s.params.fetchSeesStores = false) :
    s.programAfterStore a n = s.program := by
  simp [State.programAfterStore, h]

/-- A store keeps one command an address, in rising order. -/
theorem keysRise_programAfterStore (s : State) (a : Word) (n : Nat) (h : keysRise s.program = true) :
    keysRise (s.programAfterStore a n) = true := by
  unfold State.programAfterStore
  split
  · exact keysRise_filter _ _ h
  · exact h

end Sys2Proof.Machine
end

