-- ==== Sys2Proof/Laws/Outcomes.lean ====
section
/-! SUPPORT. What each way of ending a command can answer (30_encoding.md R96, R97), and what the step adds to it. -/

namespace Sys2Proof.Machine

/-- `Next(d)` to an even address (30_encoding.md R97). -/
theorem advance_of_even (d : Word) (s : State) (h : (s.pc + d).getLsbD 0 = false) :
    advance d s = .next ((s.setPc (s.pc + d)).setOutcome (.next d)) := by
  simp only [advance, h, Bool.false_eq_true, if_false]

/-- A `Jump` to an even address (10_state.md R24). -/
theorem jumpTo_of_even (a : Word) (s : State) (h : a.getLsbD 0 = false) :
    jumpTo a s = .next ((s.setPc a).setOutcome .jump) := by
  simp only [jumpTo, h, Bool.false_eq_true, if_false]

/-- `Next(d)` to an odd address (30_encoding.md R97). -/
theorem advance_of_odd (d : Word) (s : State) (h : (s.pc + d).getLsbD 0 = true) :
    advance d s = .fault .oddTarget := by
  simp only [advance, h, if_true]

/-- A `Jump` to an odd address (10_state.md R24). -/
theorem jumpTo_of_odd (a : Word) (s : State) (h : a.getLsbD 0 = true) : jumpTo a s = .fault .oddTarget := by
  simp only [jumpTo, h, if_true]

/-- All that `Next(d)` can answer as a next state. -/
theorem advance_next {d : Word} {s t : State} (h : advance d s = .next t) :
    (s.pc + d).getLsbD 0 = false ∧ t = (s.setPc (s.pc + d)).setOutcome (.next d) := by
  by_cases hb : (s.pc + d).getLsbD 0 = true
  · rw [advance_of_odd _ _ hb] at h; cases h
  · have hb' : (s.pc + d).getLsbD 0 = false := by simpa using hb
    rw [advance_of_even _ _ hb'] at h
    cases h
    exact ⟨hb', rfl⟩

/-- All that a `Jump` can answer as a next state. -/
theorem jumpTo_next {a : Word} {s t : State} (h : jumpTo a s = .next t) :
    a.getLsbD 0 = false ∧ t = (s.setPc a).setOutcome .jump := by
  by_cases hb : a.getLsbD 0 = true
  · rw [jumpTo_of_odd _ _ hb] at h; cases h
  · have hb' : a.getLsbD 0 = false := by simpa using hb
    rw [jumpTo_of_even _ _ hb'] at h
    cases h
    exact ⟨hb', rfl⟩

/-- `Next(d)` answers a next state or Fault(OddTarget). -/
theorem advance_cases (d : Word) (s : State) :
    advance d s = .fault .oddTarget ∨ ∃ t, advance d s = .next t := by
  by_cases hb : (s.pc + d).getLsbD 0 = true
  · exact .inl (advance_of_odd _ _ hb)
  · exact .inr ⟨_, advance_of_even _ _ (by simpa using hb)⟩

/-- A `Jump` answers a next state or Fault(OddTarget). -/
theorem jumpTo_cases (a : Word) (s : State) :
    jumpTo a s = .fault .oddTarget ∨ ∃ t, jumpTo a s = .next t := by
  by_cases hb : a.getLsbD 0 = true
  · exact .inl (jumpTo_of_odd _ _ hb)
  · exact .inr ⟨_, jumpTo_of_even _ _ (by simpa using hb)⟩

/-- All that a step can do when it answers a next state: the block is running, a command is presented, it decodes to a
well-formed admitted instruction, and the state is that instruction's. -/
theorem step_next {s t : State} (h : step s = .next t) :
    s.status = .running ∧ ∃ c i, presented s = some c ∧ decode c = .ok i ∧ accepts i s = true ∧ exec i s = .next t := by
  unfold step at h
  split at h
  · rename_i hrun
    refine ⟨hrun, ?_⟩
    split at h
    · rename_i c hc
      unfold runCommand at h
      split at h
      · cases h
      · rename_i i hi
        split at h
        · rename_i ha
          exact ⟨c, i, hc, hi, ha, h⟩
        · cases h
    · cases h
  · cases h
  · cases h

/-- A step on a presented command that decodes and is accepted is its meaning (30_encoding.md R90, R95). -/
theorem step_eq_exec {s : State} {c : Command} {i : Instr} (hrun : s.status = .running) (hc : presented s = some c)
    (hi : decode c = .ok i) (ha : accepts i s = true) : step s = exec i s := by
  simp only [step, hrun, hc, runCommand, hi, ha, if_true]

/-- A listed command is the one presented. -/
theorem presented_of_listed {s : State} {c : Command} (h : lookupKey s.pc.toNat s.program = some c) :
    presented s = some c := by
  simp only [presented, h]

/-- An unlisted address presents the external decoder's answer where fetches see stores, and nothing where they do not
(log 4, log 5). -/
theorem presented_of_unlisted {s : State} (h : lookupKey s.pc.toNat s.program = none) :
    presented s =
      if s.params.fetchSeesStores then some (Config.externalDecode s.pc (s.mem.bytes s.pc 8)) else none := by
  simp only [presented, h]

end Sys2Proof.Machine
end

