-- ==== Sys2Proof/Laws/Transfer.lean ====
section
/-! SUPPORT. What the store and load sequences of the list transfers leave (44_transfer.md R250 to R254). -/

namespace Sys2Proof.Machine

/-! ## Aligned addresses -/

/-- Alignment rounds down to a multiple of 4 (20_memory.md R64). -/
theorem toNat_alignWord (a : Word) : (alignWord a).toNat = a.toNat / 4 * 4 := by
  have h : alignWord a = (a >>> 2) <<< 2 := by
    apply BitVec.eq_of_getLsbD_eq
    intro i hi
    simp only [alignWord, BitVec.getLsbD_and, BitVec.getLsbD_shiftLeft, BitVec.getLsbD_ushiftRight]
    interval_cases i <;> simp
  rw [h, BitVec.toNat_shiftLeft, BitVec.toNat_ushiftRight, Nat.shiftLeft_eq, Nat.shiftRight_eq_div_pow]
  have := a.isLt
  omega

/-- Words a positive multiple of 4 apart do not overlap once aligned. -/
theorem alignWord_apart (a : Word) (d : Nat) (h0 : 0 < d) (h1 : d < 2 ^ 30) :
    4 ≤ (alignWord (a + BitVec.ofNat 32 (4 * d)) - alignWord a).toNat ∧
    4 ≤ (alignWord a - alignWord (a + BitVec.ofNat 32 (4 * d))).toNat := by
  have e1 := toNat_alignWord a
  have e2 := toNat_alignWord (a + BitVec.ofNat 32 (4 * d))
  rw [BitVec.toNat_add, BitVec.toNat_ofNat] at e2
  rw [BitVec.toNat_sub, BitVec.toNat_sub, e1, e2]
  have := a.isLt
  omega

/-! ## The store sequence (R251) -/

theorem pushSlots_counter (xs : List Slot) (t : Word) (s : State) :
    (pushSlots xs t s).1 = t - BitVec.ofNat 32 (4 * xs.length) := by
  induction xs generalizing t s with
  | nil => simp [pushSlots]
  | cons x xs ih =>
    rw [pushSlots, ih, List.length_cons]
    bv_omega

section PushKept

variable (xs : List Slot) (t : Word) (s : State)

@[simp] theorem pushSlots_regs : (pushSlots xs t s).2.regs = s.regs := by
  induction xs generalizing t s with
  | nil => rfl
  | cons x xs ih => rw [pushSlots, ih, State.memWrite_regs]

@[simp] theorem pushSlots_sregs : (pushSlots xs t s).2.sregs = s.sregs := by
  induction xs generalizing t s with
  | nil => rfl
  | cons x xs ih => rw [pushSlots, ih, State.memWrite_sregs]

@[simp] theorem pushSlots_pc : (pushSlots xs t s).2.pc = s.pc := by
  induction xs generalizing t s with
  | nil => rfl
  | cons x xs ih => rw [pushSlots, ih, State.memWrite_pc]

@[simp] theorem pushSlots_status : (pushSlots xs t s).2.status = s.status := by
  induction xs generalizing t s with
  | nil => rfl
  | cons x xs ih => rw [pushSlots, ih, State.memWrite_status]

@[simp] theorem pushSlots_draws : (pushSlots xs t s).2.draws = s.draws := by
  induction xs generalizing t s with
  | nil => rfl
  | cons x xs ih => rw [pushSlots, ih, State.memWrite_draws]

@[simp] theorem pushSlots_params : (pushSlots xs t s).2.params = s.params := by
  induction xs generalizing t s with
  | nil => rfl
  | cons x xs ih => rw [pushSlots, ih, State.memWrite_params]

@[simp] theorem readReg_pushSlots (q : Reg) : (pushSlots xs t s).2.readReg q = s.readReg q := by
  simp only [State.readReg, pushSlots_regs]

@[simp] theorem readSys_pushSlots (k : SysReg) : (pushSlots xs t s).2.readSys k = s.readSys k := by
  simp only [State.readSys, pushSlots_sregs]

@[simp] theorem psw_pushSlots : (pushSlots xs t s).2.psw = s.psw := readSys_pushSlots xs t s SysReg.psw

theorem slotValue_pushSlots (y : Slot) : slotValue (pushSlots xs t s).2 y = slotValue s y := by
  cases y <;> simp only [slotValue, readReg_pushSlots, readSys_pushSlots]

end PushKept

/-- The store sequence writes its slots' words alone. -/
theorem readByte_pushSlots_outside (xs : List Slot) (t : Word) (s : State) (b : Word)
    (h : ∀ k < xs.length, 4 ≤ (b - alignWord (t - BitVec.ofNat 32 (4 * (k + 1)))).toNat) :
    (pushSlots xs t s).2.mem.readByte b = s.mem.readByte b := by
  induction xs generalizing t s with
  | nil => rfl
  | cons x xs ih =>
    rw [pushSlots, ih]
    · exact readByte_write_outside _ _ _ _ _ (by omega) (h 0 (by simp))
    · intro k hk
      have := h (k + 1) (by simpa using hk)
      rwa [show t - BitVec.ofNat 32 (4 * (k + 1 + 1)) = t - 4 - BitVec.ofNat 32 (4 * (k + 1)) by bv_omega] at this

/-- Slot `k` of the store sequence, highest index first, stands in the `k`-th word below the counter. -/
theorem read_pushSlots (xs : List Slot) (t : Word) (s : State) (hl : xs.length < 2 ^ 30) (k : Nat)
    (hk : k < xs.length) :
    (pushSlots xs t s).2.mem.read (alignWord (t - BitVec.ofNat 32 (4 * (k + 1)))) 4 = slotValue s xs[k] := by
  induction xs generalizing t s k with
  | nil => simp at hk
  | cons x xs ih =>
    simp only [List.length_cons] at hl hk
    rw [pushSlots]
    cases k with
    | zero =>
      refine Eq.trans ?_ (read_write_word s.mem (alignWord (t - 4)) (slotValue s x))
      apply read_congr
      intro j hj
      apply readByte_pushSlots_outside
      intro i hi
      have := (alignWord_apart (t - 4 - BitVec.ofNat 32 (4 * (i + 1))) (i + 1) (by omega) (by omega)).1
      rw [show t - 4 - BitVec.ofNat 32 (4 * (i + 1)) + BitVec.ofNat 32 (4 * (i + 1)) = t - 4 by bv_omega] at this
      have h2 := toNat_alignWord (t - 4)
      have h3 := toNat_alignWord (t - 4 - BitVec.ofNat 32 (4 * (i + 1)))
      rw [show t - BitVec.ofNat 32 (4 * (0 + 1)) = t - 4 by rfl]
      bv_omega
    | succ k =>
      have := ih (t - 4) (s.memWrite (alignWord (t - 4)) 4 (slotValue s x)) (by omega) k (by omega)
      rw [show t - BitVec.ofNat 32 (4 * (k + 1 + 1)) = t - 4 - BitVec.ofNat 32 (4 * (k + 1)) by bv_omega, this]
      rw [List.getElem_cons_succ]
      cases xs[k] <;> rfl

/-- The store sequence keeps the memory's canonical form. -/
theorem wf_pushSlots (xs : List Slot) (t : Word) (s : State) (h : s.mem.wf = true) :
    (pushSlots xs t s).2.mem.wf = true := by
  induction xs generalizing t s with
  | nil => exact h
  | cons x xs ih => exact ih _ _ (wf_write _ _ _ _ h)

/-- All that the store sequence does to the program: where fetches see stores it takes out exactly the commands of which it
stores to a byte (20_memory.md R74; log 4). -/
theorem mem_program_pushSlots (xs : List Slot) (t : Word) (s : State) (p : Nat × Command) :
    p ∈ (pushSlots xs t s).2.program ↔ p ∈ s.program ∧ (s.params.fetchSeesStores = true → ∀ k < instrLen p.2,
      ∀ j < xs.length, 4 ≤ (BitVec.ofNat 32 p.1 + BitVec.ofNat 32 k
        - alignWord (t - BitVec.ofNat 32 (4 * (j + 1)))).toNat) := by
  induction xs generalizing t s with
  | nil => simp [pushSlots]
  | cons x xs ih =>
    rw [pushSlots, ih, State.memWrite_params, State.memWrite_program, mem_programAfterStore _ _ _ (by omega), and_assoc]
    refine and_congr_right fun _ => ⟨fun h hs k hk j hj => ?_, fun h => ⟨fun hs k hk => ?_, fun hs k hk j hj => ?_⟩⟩
    · cases j with
      | zero => exact h.1 hs k hk
      | succ j =>
        have := h.2 hs k hk j (by simpa using hj)
        rwa [show t - 4 - BitVec.ofNat 32 (4 * (j + 1)) = t - BitVec.ofNat 32 (4 * (j + 1 + 1)) by bv_omega] at this
    · exact h hs k hk 0 (by simp)
    · have := h hs k hk (j + 1) (by simpa using hj)
      rwa [show t - BitVec.ofNat 32 (4 * (j + 1 + 1)) = t - 4 - BitVec.ofNat 32 (4 * (j + 1)) by bv_omega] at this

theorem pushSlots_program_sublist (xs : List Slot) (t : Word) (s : State) :
    (pushSlots xs t s).2.program.Sublist s.program := by
  induction xs generalizing t s with
  | nil => exact List.Sublist.refl _
  | cons x xs ih => exact (ih _ _).trans (programAfterStore_sublist s _ _)

theorem pushSlots_program_of_unseen (xs : List Slot) (t : Word) (s : State) (h : s.params.fetchSeesStores = false) :
    (pushSlots xs t s).2.program = s.program := by
  induction xs generalizing t s with
  | nil => rfl
  | cons x xs ih => rw [pushSlots, ih _ (s.memWrite _ _ _) h, State.memWrite_program, programAfterStore_of_unseen s _ _ h]

/-! ## The load sequence (R252) -/

theorem popSlots_counter (xs : List Slot) (t : Word) (s : State) :
    (popSlots xs t s).1 = t + BitVec.ofNat 32 (4 * xs.length) := by
  induction xs generalizing t s with
  | nil => simp [popSlots]
  | cons x xs ih =>
    rw [popSlots, ih, List.length_cons]
    bv_omega

/-- A loaded word changes its own slot alone. -/
theorem slotValue_loadSlot (x y : Slot) (v : Word) (s : State) (hx : x ≠ .reg Reg.sp) :
    slotValue (loadSlot x v s) y = if x = y then v else slotValue s y := by
  cases x with
  | reg r =>
    have hr : r ≠ Reg.sp := fun h => hx (by rw [h])
    simp only [loadSlot, if_neg hr]
    cases y with
    | reg q => simp only [slotValue, readReg_writeReg, Slot.reg.injEq]
    | sys k => simp [slotValue, readSys_writeReg]
  | sys n =>
    cases y with
    | reg q => simp [slotValue, loadSlot, readReg_writeSys]
    | sys k => simp only [slotValue, loadSlot, readSys_writeSys, Slot.sys.injEq]

/-- The word of x[3] is discarded (44_transfer.md R254). -/
theorem loadSlot_sp (v : Word) (s : State) : loadSlot (.reg Reg.sp) v s = s := rfl

section Kept

variable (x : Slot) (v : Word) (s : State)

theorem loadSlot_pc : (loadSlot x v s).pc = s.pc := by cases x <;> simp only [loadSlot] <;> first | rfl | (split <;> rfl)
theorem loadSlot_mem : (loadSlot x v s).mem = s.mem := by cases x <;> simp only [loadSlot] <;> first | rfl | (split <;> rfl)
theorem loadSlot_status : (loadSlot x v s).status = s.status := by
  cases x <;> simp only [loadSlot] <;> first | rfl | (split <;> rfl)
theorem loadSlot_program : (loadSlot x v s).program = s.program := by
  cases x <;> simp only [loadSlot] <;> first | rfl | (split <;> rfl)
theorem loadSlot_draws : (loadSlot x v s).draws = s.draws := by cases x <;> simp only [loadSlot] <;> first | rfl | (split <;> rfl)
theorem loadSlot_params : (loadSlot x v s).params = s.params := by
  cases x <;> simp only [loadSlot] <;> first | rfl | (split <;> rfl)

end Kept

section PopKept

variable (xs : List Slot) (t : Word) (s : State)

theorem popSlots_pc : (popSlots xs t s).2.pc = s.pc := by
  induction xs generalizing t s with
  | nil => rfl
  | cons x xs ih => rw [popSlots, ih, loadSlot_pc]

theorem popSlots_mem : (popSlots xs t s).2.mem = s.mem := by
  induction xs generalizing t s with
  | nil => rfl
  | cons x xs ih => rw [popSlots, ih, loadSlot_mem]

theorem popSlots_status : (popSlots xs t s).2.status = s.status := by
  induction xs generalizing t s with
  | nil => rfl
  | cons x xs ih => rw [popSlots, ih, loadSlot_status]

theorem popSlots_program : (popSlots xs t s).2.program = s.program := by
  induction xs generalizing t s with
  | nil => rfl
  | cons x xs ih => rw [popSlots, ih, loadSlot_program]

theorem popSlots_draws : (popSlots xs t s).2.draws = s.draws := by
  induction xs generalizing t s with
  | nil => rfl
  | cons x xs ih => rw [popSlots, ih, loadSlot_draws]

theorem popSlots_params : (popSlots xs t s).2.params = s.params := by
  induction xs generalizing t s with
  | nil => rfl
  | cons x xs ih => rw [popSlots, ih, loadSlot_params]

end PopKept

/-- The load sequence leaves every slot outside its list alone, and x[3] always. -/
theorem slotValue_popSlots_outside (xs : List Slot) (t : Word) (s : State) (y : Slot) (h : y ∉ xs ∨ y = .reg Reg.sp) :
    slotValue (popSlots xs t s).2 y = slotValue s y := by
  induction xs generalizing t s with
  | nil => rfl
  | cons x xs ih =>
    rw [popSlots, ih _ _ (by rcases h with h | h; exact .inl fun hm => h (List.mem_cons_of_mem _ hm); exact .inr h)]
    by_cases hx : x = .reg Reg.sp
    · rw [hx, loadSlot_sp]
    · rw [slotValue_loadSlot _ _ _ _ hx, if_neg]
      rcases h with h | h
      · exact fun he => h (he ▸ List.mem_cons_self ..)
      · exact fun he => hx (he.trans h)

/-- Slot `k` of the load sequence, lowest index first, takes the `k`-th word above the counter. -/
theorem slotValue_popSlots (xs : List Slot) (t : Word) (s : State) (hn : xs.Nodup) (k : Nat) (hk : k < xs.length)
    (hsp : xs[k] ≠ .reg Reg.sp) :
    slotValue (popSlots xs t s).2 xs[k] = s.memRead (alignWord (t + BitVec.ofNat 32 (4 * k))) 4 := by
  induction xs generalizing t s k with
  | nil => simp at hk
  | cons x xs ih =>
    rw [List.nodup_cons] at hn
    rw [popSlots]
    cases k with
    | zero =>
      simp only [List.getElem_cons_zero] at hsp ⊢
      rw [slotValue_popSlots_outside _ _ _ _ (.inl hn.1), slotValue_loadSlot _ _ _ _ hsp, if_pos rfl]
      simp
    | succ k =>
      simp only [List.getElem_cons_succ] at hsp ⊢
      rw [ih _ _ hn.2 k (by simpa using hk) hsp, State.memRead, State.memRead, loadSlot_mem]
      rw [show t + 4 + BitVec.ofNat 32 (4 * k) = t + BitVec.ofNat 32 (4 * (k + 1)) by bv_omega]
      rfl

/-! ## The lists (R250) -/

/-- The members of a register list. -/
theorem mem_regSlots (mask : BitVec 18) (count base : Nat) (x : Slot) :
    x ∈ regSlots mask count base ↔ ∃ i < count, mask.getLsbD i = true ∧ x = .reg (Fin.ofNat 32 (base + i)) := by
  simp only [regSlots, List.mem_filterMap, List.mem_range]
  constructor
  · rintro ⟨i, hi, h⟩
    split at h
    · exact ⟨i, hi, ‹_›, by simpa using h.symm⟩
    · cases h
  · rintro ⟨i, hi, hm, rfl⟩
    exact ⟨i, hi, by simp [hm]⟩

/-- A register list holds each register once. -/
theorem nodup_regSlots (mask : BitVec 18) (count base : Nat) (h : base + count ≤ 32) :
    (regSlots mask count base).Nodup := by
  unfold regSlots
  rw [List.nodup_iff_pairwise_ne, List.pairwise_filterMap]
  apply List.Pairwise.imp_of_mem _ List.pairwise_lt_range
  intro i j hi hj hlt a ha b hb
  rw [List.mem_range] at hi hj
  split at ha <;> split at hb <;> simp only [Option.some.injEq, reduceCtorEq] at ha hb
  subst ha hb
  simp only [ne_eq, Slot.reg.injEq, Fin.ext_iff, Fin.ofNat]
  omega

/-- A register list is no longer than its table. -/
theorem length_regSlots_le (mask : BitVec 18) (count base : Nat) : (regSlots mask count base).length ≤ count := by
  unfold regSlots
  exact (List.length_filterMap_le _ _).trans (by simp)

end Sys2Proof.Machine
end

