-- ==== Sys2Proof/Laws/Operations.lean ====
section
/-! SUPPORT. What each shared operation can do: one lemma that says how it ends, and what it changes. -/

namespace Sys2Proof.Machine

/-! ## Signs -/

/-- The sign bit of a word. -/
theorem getLsbD31_iff (x : Word) : x.getLsbD 31 = true ↔ 2 ^ 31 ≤ x.toNat := by
  have := BitVec.msb_eq_decide x
  rw [BitVec.msb_eq_getLsbD_last] at this
  simpa using congrArg (· = true) this

/-- The signed value of a word, by its unsigned value. -/
theorem toInt_cases (x : Word) :
    x.toInt = if 2 ^ 31 ≤ x.toNat then (x.toNat : Int) - (2 ^ 32 : Int) else (x.toNat : Int) := by
  rw [BitVec.toInt_eq_toNat_cond]
  split <;> split <;> omega

/-! ## Reads of one unit (20_memory.md R61) -/

/-- A byte read. -/
theorem read_byte (m : Memory) (a : Word) : m.read a 1 = (m.readByte a).setWidth 32 := by
  simp [Memory.read]

/-- A halfword read: the higher address is the higher byte (20_memory.md R63). -/
theorem read_half (m : Memory) (a : Word) : m.read a 2 = (m.readByte (a + 1) ++ m.readByte a).setWidth 32 := by
  apply BitVec.eq_of_getLsbD_eq
  intro i hi
  by_cases h : i < 16
  · rw [getLsbD_read _ _ _ _ (by omega) hi, BitVec.getLsbD_setWidth, BitVec.getLsbD_append]
    by_cases h8 : i < 8
    · simp [h8, hi, show i / 8 = 0 by omega, show i % 8 = i by omega]
    · simp [h8, hi, show i / 8 = 1 by omega, show i % 8 = i - 8 by omega]
  · rw [getLsbD_read_high _ _ _ _ (by omega), BitVec.getLsbD_setWidth, BitVec.getLsbD_append]
    rw [if_neg (by omega), BitVec.getLsbD_of_ge (m.readByte (a + 1)) (i - 8) (by omega), Bool.and_false]

/-! ## Divides (43_divide.md R223 to R225) -/

/-- The state a divide leaves before its outcome. -/
def divideState (ov : Bool) (q r : Word) (rd : Reg) (rem : Option Reg) (s : State) : State :=
  countDraw ov (setDiv q ov ((s.writeReg rd q).writeRegOpt rem r))

/-- Every divide ends with `Next(cmd.len)` from the state it leaves. -/
theorem divideInto_eq (sg : Signedness) (n : Nat) (a b : Word) (rd : Reg) (rem : Option Reg) (len : Len) (s : State) :
    divideInto sg n a b rd rem len s =
      advanceLen len (divideState (divOverflow sg n a b)
        (if divOverflow sg n a b then Config.divQuotient s.draws s else divQ sg a b)
        (if divOverflow sg n a b then Config.divRemainder s.draws s else divR sg a b) rd rem s) := rfl

theorem divideState_pc (ov : Bool) (q r : Word) (rd : Reg) (rem : Option Reg) (s : State) :
    (divideState ov q r rd rem s).pc = s.pc := by simp [divideState]

/-- The remainder's register is written after the quotient's. -/
theorem readReg_divideState (ov : Bool) (q r : Word) (rd : Reg) (rem : Option Reg) (s : State) (x : Reg) :
    (divideState ov q r rd rem s).readReg x = if rem = some x then r else if rd = x then q else s.readReg x := by
  rw [divideState, readReg_countDraw]
  exact (readReg_writeRegOpt _ _ _ _).trans (by rw [readReg_writeReg])

theorem readSys_divideState (ov : Bool) (q r : Word) (rd : Reg) (rem : Option Reg) (s : State) (k : SysReg)
    (h : k ≠ SysReg.psw) : (divideState ov q r rd rem s).readSys k = s.readSys k := by
  rw [divideState, readSys_countDraw, readSys_setDiv _ _ _ _ h, readSys_writeRegOpt, readSys_writeReg]

theorem getLsbD_psw_divideState (ov : Bool) (q r : Word) (rd : Reg) (rem : Option Reg) (s : State) (k : Nat) :
    (divideState ov q r rd rem s).psw.getLsbD k =
      if k = 2 then ov else if k = 1 then sf q else if k = 0 then zf q else s.psw.getLsbD k := by
  rw [divideState, countDraw_psw, getLsbD_psw_setDiv, psw_writeRegOpt, psw_writeReg]

/-! ## Bit operations (47_loadstore_bit.md R329) -/

/-- Every bit operation ends with `Next(cmd.len)`, Z written and the byte, if any, stored. -/
theorem bitOp_eq (kind : BitKind) (ra : Reg) (bit : Fin 8) (d : Imm) (len : Len) (s : State) :
    bitOp kind ra bit d len s =
      advanceLen len (match bitResult kind bit (s.memRead (byteAddr ra d s) 1) with
        | some v => (s.setFlag .z (!(s.memRead (byteAddr ra d s) 1).getLsbD bit.val)).memWrite (byteAddr ra d s) 1 v
        | none => s.setFlag .z (!(s.memRead (byteAddr ra d s) 1).getLsbD bit.val)) := by
  cases kind <;> rfl

/-! ## Traps and returns (60_exceptions.md R402 to R407) -/

theorem readReg_trapEntry (code : BitVec 5) (s : State) (r : Reg) : (trapEntry code s).readReg r = s.readReg r := rfl

/-- The entries trap entry writes. -/
theorem readSys_trapEntry (code : BitVec 5) (s : State) :
    (trapEntry code s).readSys SysReg.eipc = s.pc + 4 ∧ (trapEntry code s).readSys SysReg.eipsw = s.psw ∧
    (trapEntry code s).readSys SysReg.ecr = trapCause (s.readSys SysReg.ecr) code := by
  refine ⟨?_, ?_, ?_⟩ <;>
    simp only [trapEntry, readSys_setFlag, readSys_writeSys, SysReg.psw, SysReg.eipc, SysReg.eipsw, SysReg.ecr,
      Fin.reduceEq, if_true, if_false]

/-- Trap entry leaves every other entry but PSW alone. -/
theorem readSys_trapEntry_outside (code : BitVec 5) (s : State) (k : SysReg) (h : k ≠ SysReg.eipc ∧ k ≠ SysReg.eipsw ∧
    k ≠ SysReg.ecr ∧ k ≠ SysReg.psw) : (trapEntry code s).readSys k = s.readSys k := by
  simp only [trapEntry, readSys_setFlag, readSys_writeSys, if_neg h.1.symm, if_neg h.2.1.symm, if_neg h.2.2.1.symm,
    if_neg h.2.2.2.symm]

/-- Trap entry sets ID and EP alone. -/
theorem getLsbD_psw_trapEntry (code : BitVec 5) (s : State) (k : Nat) :
    (trapEntry code s).psw.getLsbD k = if k = 5 then true else if k = 6 then true else s.psw.getLsbD k := by
  simp only [trapEntry, getLsbD_psw_setFlag, flagBit, psw_writeSys, SysReg.psw, SysReg.eipc, SysReg.eipsw, SysReg.ecr,
    Fin.reduceEq, if_false]

/-- The vectors are even. -/
theorem trapVector_even (code : BitVec 5) : (trapVector code).getLsbD 0 = false := by
  unfold trapVector
  split <;> decide

/-- A trap is always taken (60_exceptions.md R402). -/
theorem raiseTrap_eq (code : BitVec 5) (s : State) :
    raiseTrap code s = .next (((trapEntry code s).setPc (trapVector code)).setOutcome .jump) :=
  jumpTo_of_even _ _ (trapVector_even code)

/-- All that a return can answer as a next state (45_system.md R285; 46_branch.md R304). -/
theorem returnThrough_next {pair : SysReg × SysReg} {s t : State} (h : returnThrough pair s = .next t) :
    (s.readSys pair.1).getLsbD 0 = false ∧
    t = ((s.writePsw (s.readSys pair.2)).setPc (s.readSys pair.1)).setOutcome .jump := jumpTo_next h

/-! ## The host-call gate (45_system.md R281 to R284) -/

/-- The gate exits, serves or aborts, by the selector. -/
theorem hostCall_cases (s : State) :
    (s.readReg 6 = s.params.selectors.exit ∧ hostCall s = exitRun (Config.exitDecode (s.readReg 7)) s) ∨
    (s.readReg 6 ≠ s.params.selectors.exit ∧
      ((∃ f, hostFn s.params.selectors (s.readReg 6) = some f ∧ hostCall s = hostServe f s) ∨
        (hostFn s.params.selectors (s.readReg 6) = none ∧ hostCall s = abortRun s))) := by
  unfold hostCall
  by_cases h : s.readReg 6 = s.params.selectors.exit
  · exact .inl ⟨h, by rw [if_pos h]⟩
  · refine .inr ⟨h, ?_⟩
    rw [if_neg h]
    cases hf : hostFn s.params.selectors (s.readReg 6) with
    | some f => exact .inl ⟨f, rfl, rfl⟩
    | none => exact .inr ⟨rfl, rfl⟩

/-- Writes leave every byte they do not list alone. -/
theorem readByte_writeAll (ws : List (Word × Byte)) (s : State) (b : Word) (h : ∀ p ∈ ws, p.1 ≠ b) :
    (writeAll s ws).mem.readByte b = s.mem.readByte b := by
  induction ws generalizing s with
  | nil => rfl
  | cons w ws ih =>
    rw [writeAll, ih _ fun p hp => h p (List.mem_cons_of_mem _ hp)]
    apply readByte_write_outside _ _ _ _ _ (by omega)
    have := h w (List.mem_cons_self ..)
    by_contra hlt
    exact this (by bv_omega)

section HostWritten

variable (f : HostFn) (s : State)

@[simp] theorem hostWritten_regs : (hostWritten f s).regs = s.regs := rfl
@[simp] theorem hostWritten_sregs : (hostWritten f s).sregs = s.sregs := rfl
@[simp] theorem hostWritten_pc : (hostWritten f s).pc = s.pc := rfl
@[simp] theorem hostWritten_status : (hostWritten f s).status = s.status := rfl
@[simp] theorem hostWritten_mem : (hostWritten f s).mem = (writeAll s (hostBytes f s)).mem := rfl
@[simp] theorem hostWritten_program : (hostWritten f s).program = (writeAll s (hostBytes f s)).program := rfl
@[simp] theorem hostWritten_draws : (hostWritten f s).draws = s.draws := rfl
@[simp] theorem hostWritten_params : (hostWritten f s).params = s.params := rfl

end HostWritten

/-- A host call leaves every byte its function may not write alone (log 12). -/
theorem readByte_hostWritten (f : HostFn) (s : State) (b : Word) (h : hostMayWrite f s b = false) :
    (hostWritten f s).mem.readByte b = s.mem.readByte b := by
  apply readByte_writeAll
  intro p hp he
  have := (List.mem_filter.1 hp).2
  rw [he, h] at this
  exact Bool.noConfusion this

/-- All that the host's writes do to the program: where fetches see stores they take out exactly the commands of which they
store to a byte (20_memory.md R74; log 4). -/
theorem mem_program_writeAll (ws : List (Word × Byte)) (s : State) (p : Nat × Command) :
    p ∈ (writeAll s ws).program ↔ p ∈ s.program ∧ (s.params.fetchSeesStores = true → ∀ k < instrLen p.2,
      BitVec.ofNat 32 p.1 + BitVec.ofNat 32 k ∉ ws.map Prod.fst) := by
  induction ws generalizing s with
  | nil => simp [writeAll]
  | cons w ws ih =>
    have hne : ∀ b : Word, 1 ≤ (b - w.1).toNat ↔ b ≠ w.1 := fun b => by
      constructor
      · rintro h rfl; simp at h
      · intro h; by_contra hc; exact h (by bv_omega)
    rw [writeAll, ih, State.memWrite_params, State.memWrite_program, mem_programAfterStore _ _ _ (by omega), and_assoc]
    simp only [hne, List.map_cons, List.mem_cons, not_or]
    exact and_congr_right fun _ => ⟨fun h hs k hk => ⟨h.1 hs k hk, h.2 hs k hk⟩,
      fun h => ⟨fun hs k hk => (h hs k hk).1, fun hs k hk => (h hs k hk).2⟩⟩

theorem writeAll_program_sublist (ws : List (Word × Byte)) (s : State) : (writeAll s ws).program.Sublist s.program := by
  induction ws generalizing s with
  | nil => exact List.Sublist.refl _
  | cons w ws ih => exact (ih _).trans (programAfterStore_sublist s _ _)

theorem writeAll_program_of_unseen (ws : List (Word × Byte)) (s : State) (h : s.params.fetchSeesStores = false) :
    (writeAll s ws).program = s.program := by
  induction ws generalizing s with
  | nil => rfl
  | cons w ws ih => rw [writeAll, ih (s.memWrite _ _ _) h, State.memWrite_program, programAfterStore_of_unseen s _ _ h]

/-! ## Lists (44_transfer.md R251 to R254) -/

/-- A push writes x[3] and the list's words. -/
theorem pushList_eq (xs : List Slot) (s : State) :
    pushList xs s = (pushSlots xs.reverse (s.readReg Reg.sp) s).2.writeReg Reg.sp
      (s.readReg Reg.sp - BitVec.ofNat 32 (4 * xs.length)) := by
  rw [pushList, pushSlots_counter, List.length_reverse]

section PushList

variable (xs : List Slot) (s : State)

@[simp] theorem pushList_sregs : (pushList xs s).sregs = s.sregs := by rw [pushList_eq]; simp
@[simp] theorem pushList_pc : (pushList xs s).pc = s.pc := by rw [pushList_eq]; simp
@[simp] theorem pushList_status : (pushList xs s).status = s.status := by rw [pushList_eq]; simp
@[simp] theorem pushList_draws : (pushList xs s).draws = s.draws := by rw [pushList_eq]; simp
@[simp] theorem pushList_params : (pushList xs s).params = s.params := by rw [pushList_eq]; simp

end PushList

/-- A push leaves every general register but x[3] alone (44_transfer.md R251, R254). -/
theorem readReg_pushList (xs : List Slot) (s : State) (q : Reg) :
    (pushList xs s).readReg q =
      if Reg.sp = q then s.readReg Reg.sp - BitVec.ofNat 32 (4 * xs.length) else s.readReg q := by
  rw [pushList_eq, readReg_writeReg, readReg_pushSlots]

section WriteEp

variable (e : EpOption) (s : State)

@[simp] theorem writeEp_sregs : (writeEp e s).sregs = s.sregs := by cases e <;> rfl
@[simp] theorem writeEp_pc : (writeEp e s).pc = s.pc := by cases e <;> rfl
@[simp] theorem writeEp_status : (writeEp e s).status = s.status := by cases e <;> rfl
@[simp] theorem writeEp_mem : (writeEp e s).mem = s.mem := by cases e <;> rfl
@[simp] theorem writeEp_program : (writeEp e s).program = s.program := by cases e <;> rfl
@[simp] theorem writeEp_draws : (writeEp e s).draws = s.draws := by cases e <;> rfl
@[simp] theorem writeEp_params : (writeEp e s).params = s.params := by cases e <;> rfl

end WriteEp

/-- A pop writes the list's slots, then x[3]. -/
theorem popList_eq (xs : List Slot) (t : Word) (s : State) :
    popList xs t s = (popSlots xs t s).2.writeReg Reg.sp (t + BitVec.ofNat 32 (4 * xs.length)) := by
  rw [popList, popSlots_counter]

end Sys2Proof.Machine
end

