-- ==== Sys2Proof/Laws/PerInstr.lean ====
section
/-! SUPPORT. The statements made instruction by instruction. EncodedOp: the record of an instruction carries its
operation's op value (30_encoding.md R92). -/

namespace Sys2Proof.Laws.EncodedOp

/-- The op field of the instruction's record is the table's value for its operation. -/
def Statement (i : Instr) : Prop := (encode i).op = i.op.code

theorem add (rd : Reg) (ra : Reg) (b : OperandB) (len : Len) : Statement (.add rd ra b len) := encode_op _
theorem addnf (rd : Reg) (ra : Reg) (b : OperandB) (len : Len) : Statement (.addnf rd ra b len) := encode_op _
theorem sub (rd : Reg) (ra : Reg) (b : OperandB) (len : Len) : Statement (.sub rd ra b len) := encode_op _
theorem cmp (ra : Reg) (b : OperandB) (len : Len) : Statement (.cmp ra b len) := encode_op _
theorem satadd (rd : Reg) (ra : Reg) (b : OperandB) (len : Len) : Statement (.satadd rd ra b len) := encode_op _
theorem satsub (rd : Reg) (ra : Reg) (b : OperandB) (len : Len) : Statement (.satsub rd ra b len) := encode_op _
theorem and (rd : Reg) (ra : Reg) (b : OperandB) (len : Len) : Statement (.and rd ra b len) := encode_op _
theorem or (rd : Reg) (ra : Reg) (b : OperandB) (len : Len) : Statement (.or rd ra b len) := encode_op _
theorem xor (rd : Reg) (ra : Reg) (b : OperandB) (len : Len) : Statement (.xor rd ra b len) := encode_op _
theorem not (rd : Reg) (b : OperandB) (len : Len) : Statement (.not rd b len) := encode_op _
theorem tst (ra : Reg) (b : OperandB) (len : Len) : Statement (.tst ra b len) := encode_op _
theorem shl (rd : Reg) (ra : Reg) (b : OperandB) (len : Len) : Statement (.shl rd ra b len) := encode_op _
theorem shr (rd : Reg) (ra : Reg) (b : OperandB) (len : Len) : Statement (.shr rd ra b len) := encode_op _
theorem sar (rd : Reg) (ra : Reg) (b : OperandB) (len : Len) : Statement (.sar rd ra b len) := encode_op _
theorem mov (rd : Reg) (b : OperandB) (len : Len) : Statement (.mov rd b len) := encode_op _
theorem sxb (rd : Reg) (b : OperandB) (len : Len) : Statement (.sxb rd b len) := encode_op _
theorem sxh (rd : Reg) (b : OperandB) (len : Len) : Statement (.sxh rd b len) := encode_op _
theorem zxb (rd : Reg) (b : OperandB) (len : Len) : Statement (.zxb rd b len) := encode_op _
theorem zxh (rd : Reg) (b : OperandB) (len : Len) : Statement (.zxh rd b len) := encode_op _
theorem mul (rd : Reg) (rd2 : Reg) (ra : Reg) (b : OperandB) (len : Len) : Statement (.mul rd rd2 ra b len) := encode_op _
theorem mulu (rd : Reg) (rd2 : Reg) (ra : Reg) (b : OperandB) (len : Len) : Statement (.mulu rd rd2 ra b len) := encode_op _
theorem mulh (rd : Reg) (ra : Reg) (b : OperandB) (len : Len) : Statement (.mulh rd ra b len) := encode_op _
theorem div (rd : Reg) (rem : Option Reg) (ra : Reg) (b : OperandB) (len : Len) : Statement (.div rd rem ra b len) := encode_op _
theorem divu (rd : Reg) (rem : Option Reg) (ra : Reg) (b : OperandB) (len : Len) : Statement (.divu rd rem ra b len) := encode_op _
theorem divn (rd : Reg) (rem : Option Reg) (ra : Reg) (b : OperandB) (n : BitVec 6) (len : Len) : Statement (.divn rd rem ra b n len) := encode_op _
theorem divun (rd : Reg) (rem : Option Reg) (ra : Reg) (b : OperandB) (n : BitVec 6) (len : Len) : Statement (.divun rd rem ra b n len) := encode_op _
theorem divh (rd : Reg) (rem : Option Reg) (ra : Reg) (b : OperandB) (len : Len) : Statement (.divh rd rem ra b len) := encode_op _
theorem divhu (rd : Reg) (rem : Option Reg) (ra : Reg) (b : OperandB) (len : Len) : Statement (.divhu rd rem ra b len) := encode_op _
theorem ldb (rd : Reg) (ra : Reg) (disp : Imm) (len : Len) : Statement (.ldb rd ra disp len) := encode_op _
theorem ldbu (rd : Reg) (ra : Reg) (disp : Imm) (len : Len) : Statement (.ldbu rd ra disp len) := encode_op _
theorem ldh (rd : Reg) (ra : Reg) (disp : Imm) (len : Len) : Statement (.ldh rd ra disp len) := encode_op _
theorem ldhu (rd : Reg) (ra : Reg) (disp : Imm) (len : Len) : Statement (.ldhu rd ra disp len) := encode_op _
theorem ldw (rd : Reg) (ra : Reg) (disp : Imm) (len : Len) : Statement (.ldw rd ra disp len) := encode_op _
theorem stb (ra : Reg) (rb : Reg) (disp : Imm) (len : Len) : Statement (.stb ra rb disp len) := encode_op _
theorem sth (ra : Reg) (rb : Reg) (disp : Imm) (len : Len) : Statement (.sth ra rb disp len) := encode_op _
theorem stw (ra : Reg) (rb : Reg) (disp : Imm) (len : Len) : Statement (.stw ra rb disp len) := encode_op _
theorem set1 (ra : Reg) (bit : Fin 8) (disp : Imm) (len : Len) : Statement (.set1 ra bit disp len) := encode_op _
theorem clr1 (ra : Reg) (bit : Fin 8) (disp : Imm) (len : Len) : Statement (.clr1 ra bit disp len) := encode_op _
theorem not1 (ra : Reg) (bit : Fin 8) (disp : Imm) (len : Len) : Statement (.not1 ra bit disp len) := encode_op _
theorem tst1 (ra : Reg) (bit : Fin 8) (disp : Imm) (len : Len) : Statement (.tst1 ra bit disp len) := encode_op _
theorem bcond (cond : BitVec 4) (disp : BitVec 9) (len : Len) : Statement (.bcond cond disp len) := encode_op _
theorem jarl (link : Option Reg) (disp : Imm) (len : Len) : Statement (.jarl link disp len) := encode_op _
theorem jmp (ra : Reg) (len : Len) : Statement (.jmp ra len) := encode_op _
theorem callt (index : BitVec 6) (len : Len) : Statement (.callt index len) := encode_op _
theorem ctret (len : Len) : Statement (.ctret len) := encode_op _
theorem trap (code : BitVec 5) (len : Len) : Statement (.trap code len) := encode_op _
theorem reti (len : Len) : Statement (.reti len) := encode_op _
theorem ldsr (ra : Reg) (sr : SysReg) (len : Len) : Statement (.ldsr ra sr len) := encode_op _
theorem stsr (rd : Reg) (sr : SysReg) (len : Len) : Statement (.stsr rd sr len) := encode_op _
theorem brkpt : Statement .brkpt := encode_op _
theorem prepare (mask : BitVec 18) (frame : BitVec 5) (ep : EpOption) (len : Len) : Statement (.prepare mask frame ep len) := encode_op _
theorem dispose (mask : BitVec 18) (frame : BitVec 5) (jmp : Option Reg) (len : Len) : Statement (.dispose mask frame jmp len) := encode_op _
theorem pushmh (mask : BitVec 18) (len : Len) : Statement (.pushmh mask len) := encode_op _
theorem popmh (mask : BitVec 18) (len : Len) : Statement (.popmh mask len) := encode_op _
theorem pushml (mask : BitVec 18) (len : Len) : Statement (.pushml mask len) := encode_op _
theorem popml (mask : BitVec 18) (len : Len) : Statement (.popml mask len) := encode_op _

end Sys2Proof.Laws.EncodedOp
end

