-- ==== Sys2Proof/Laws/WellFormed.lean ====
section
/-! SUPPORT. The checks of 30_encoding.md R95 as conditions on the fields. -/

namespace Sys2Proof

/-- R95 item 2. -/
theorem Len.wf_iff (l : Len) : Len.wf l = true ↔ l = 2 ∨ l = 4 ∨ l = 6 ∨ l = 8 := by
  simp only [Len.wf, Bool.or_eq_true, beq_iff_eq, or_assoc]

/-- R95 items 3 and 4. -/
theorem widthWf_iff (n : BitVec 6) : widthWf n = true ↔ 1 ≤ n.toNat ∧ n.toNat ≤ 32 := by
  simp only [widthWf, Bool.and_eq_true, decide_eq_true_eq]

/-- R95 item 3. -/
theorem Imm.wf_iff (i : Imm) : i.wf = true ↔ i.ext ≠ .reserved ∧ 1 ≤ i.iw.toNat ∧ i.iw.toNat ≤ 32 := by
  simp only [Imm.wf, Bool.and_eq_true, bne_iff_ne, widthWf_iff]

/-- R95 item 3 for a second operand. -/
theorem OperandB.wf_iff (b : OperandB) : b.wf = true ↔ ∀ i, b = .imm i → i.wf = true := by
  cases b <;> simp [OperandB.wf]

/-- R95 item 5 for Table A. -/
theorem maskWfA_iff (m : BitVec 18) : maskWfA m = true ↔ ∀ k, 12 ≤ k → k ≤ 17 → m.getLsbD k = false := by
  simp only [maskWfA, beq_iff_eq]
  constructor
  · intro h k h1 h2
    have := congrArg (fun x => x.getLsbD (k - 12)) h
    have h3 : k - 12 < 6 := by omega
    have h4 : 12 + (k - 12) = k := by omega
    simpa [h3, h4] using this
  · intro h
    apply BitVec.eq_of_getLsbD_eq
    intro i hi
    have := h (12 + i) (by omega) (by omega)
    simp [hi, this]

/-- R95 item 5 for Table C. -/
theorem maskWfC_iff (m : BitVec 18) : maskWfC m = true ↔ m.getLsbD 17 = false := by
  simp only [maskWfC, beq_iff_eq]
  constructor
  · intro h
    have := congrArg (fun x => x.getLsbD 0) h
    simpa using this
  · intro h
    apply BitVec.eq_of_getLsbD_eq
    intro i hi
    obtain rfl : i = 0 := by omega
    simpa using h

/-- A length R95 admits is even. -/
theorem Len.even_of_wf {l : Len} (h : Len.wf l = true) : (l.setWidth 32).getLsbD 0 = false := by
  rcases (Len.wf_iff l).1 h with rfl | rfl | rfl | rfl <;> decide

end Sys2Proof
end

