-- ==== Sys2Proof/Tests/Slice0.lean ====
section
/-! SUPPORT. Tests of the model: the checks of WellFormed, words decoded field by field, vectors of 95_test_vectors.md on
one step, and a witness for the hypotheses of each statement. -/

namespace Sys2Proof.Tests

open Sys2Proof Sys2Proof.Machine Sys2Proof.Claims

/-! ## Helpers -/

/-- Parameters with numbers of the tests' own for the OPEN ones. -/
def params : Params where
  admitted := Op.all
  selectors := ⟨1, 2, 3, 4, 5, 6, 7, 8, 9, 10, 11, 12, 13, 14, 15⟩
  fetchSeesStores := false

/-- The reset state at pc 0x100 with those parameters. -/
def base : State := { State.reset with pc := 0x100, params := params }

/-- A state with general registers written. -/
def withRegs (rs : List (Reg × Word)) (s : State) : State := rs.foldl (fun s p => s.writeReg p.1 p.2) s

/-- A state with system registers written. -/
def withSys (rs : List (SysReg × Word)) (s : State) : State := rs.foldl (fun s p => s.writeSys p.1 p.2) s

/-- The operands of a vector: x[1], x[2] and PSW. -/
def start (a b psw : Word) : State := (withRegs [(1, a), (2, b)] base).writePsw psw

/-- The memory of 95_test_vectors.md 2.10, x[1] = 0x1000 and x[2] = 0x12345678. -/
def memStart : State :=
  (withRegs [(1, 0x1000), (2, 0x12345678)] base).setMem
    [(0x1000, 0x44), (0x1001, 0x33), (0x1002, 0x22), (0x1003, 0x11), (0x1004, 0x80)]

/-- The answer is a next state. -/
def isNext (r : Result) : Bool :=
  match r with
  | .next _ => true
  | .fault _ => false
  | .refused _ => false

/-- The next state of an answer. -/
def after (r : Result) : State :=
  match r with
  | .next t => t
  | .fault _ => base
  | .refused _ => base

/-- The fault of an answer. -/
def faultOf (r : Result) : Option Fault :=
  match r with
  | .fault f => some f
  | .next _ => none
  | .refused _ => none

/-- What is seen of a next state. -/
def look {α : Type} (r : Result) (f : State → α) : Option α :=
  match r with
  | .next t => some (f t)
  | .fault _ => none
  | .refused _ => none

theorem next_after {r : Result} (h : isNext r = true) : r = .next (after r) := by
  cases r with
  | next t => rfl
  | fault f => exact Bool.noConfusion h
  | refused f => exact Bool.noConfusion h

/-- Z, S, OV, CY, SAT. -/
def flags (t : State) : List Bool := [t.flag .z, t.flag .s, t.flag .ov, t.flag .cy, t.flag .sat]

/-- A destination, the flags and pc after one instruction. -/
def result (i : Instr) (s : State) (r : Reg) : Option (Word × List Bool × Word) :=
  look (exec i s) fun t => (t.readReg r, flags t, t.pc)

/-! ## Well-formedness (30_encoding.md R95): an ill-formed term for each check -/

theorem test_wf_len_zero : (Instr.mov 1 (.reg 2) 0).wf = false := by decide
theorem test_wf_len_odd : (Instr.mov 1 (.reg 2) 3).wf = false := by decide
theorem test_wf_bcond_len : (Instr.bcond 2 4 4).wf = false := by decide
theorem test_wf_trap_len : (Instr.trap 3 2).wf = false := by decide
theorem test_wf_ext : (Instr.mov 1 (.imm ⟨.reserved, 5, 0⟩) 2).wf = false := by decide
theorem test_wf_width_zero : (Instr.mov 1 (.imm ⟨.sext, 0, 0⟩) 2).wf = false := by decide
theorem test_wf_width_33 : (Instr.ldw 1 2 ⟨.sext, 33, 0⟩ 4).wf = false := by decide
theorem test_wf_division_width : (Instr.divn 1 none 2 (.reg 3) 0 4).wf = false ∧ (Instr.divun 1 none 2 (.reg 3) 33 4).wf = false := by
  decide
theorem test_wf_mask : (Instr.prepare 0x1000 0 .none 4).wf = false ∧ (Instr.dispose 0x20000 0 none 4).wf = false ∧
    (Instr.pushml 0x20000 4).wf = false ∧ (Instr.popml 0x20000 4).wf = false := by decide
theorem test_wf_ep : (Instr.prepare 0 0 (.reserved 2) 4).wf = false ∧ (Instr.prepare 0 0 (.imm32 1) 6).wf = false := by decide
theorem test_wf_accepted : (Instr.prepare 0 0 (.imm32 1) 8).wf = true ∧ (Instr.pushmh 0x3FFFF 4).wf = true ∧
    (Instr.mov 1 (.imm ⟨.sext, 32, 0⟩) 6).wf = true ∧ Instr.brkpt.wf = true := by decide

/-! ## Decoding: words written field by field from 30_encoding.md R91 and R92, an instruction of every row -/

/-- ADD, ADDNF, SUB, SATADD, SATSUB, AND. -/
theorem test_decode_alu_1 :
    -- ADD rd=1 ra=2 bsel=0 rb=3 len=2
    decodeTableWord 128 0x00000000000000400000000001880101 = some (.add 1 2 (.reg 3) 2) ∧
    -- ADDNF rd=31 ra=0 bsel=1 ext=1 iw=2 imm=2147483650 len=6
    decodeTableWord 128 0x00000000000000D00000004130001F02 = some (.addnf 31 0 (.imm ⟨.zext, 2, 0x80000002⟩) 6) ∧
    -- SUB rd=16 ra=8 bsel=0 rb=4 len=2
    decodeTableWord 128 0x00000000000000400000000002201003 = some (.sub 16 8 (.reg 4) 2) ∧
    -- SATADD rd=1 ra=2 bsel=1 ext=0 iw=4 imm=2147483652 len=6
    decodeTableWord 128 0x00000000000000D00000008210080105 = some (.satadd 1 2 (.imm ⟨.sext, 4, 0x80000004⟩) 6) ∧
    -- SATSUB rd=31 ra=0 bsel=0 rb=30 len=2
    decodeTableWord 128 0x0000000000000040000000000F001F06 = some (.satsub 31 0 (.reg 30) 2) ∧
    -- AND rd=16 ra=8 bsel=1 ext=2 iw=6 imm=2147483654 len=6
    decodeTableWord 128 0x00000000000000D0000000C350201007 = some (.and 16 8 (.imm ⟨.hi16, 6, 0x80000006⟩) 6) := by
  decide

/-- OR, XOR, SHL, SHR, SAR, CMP. -/
theorem test_decode_alu_2 :
    -- OR rd=1 ra=2 bsel=0 rb=3 len=2
    decodeTableWord 128 0x00000000000000400000000001880108 = some (.or 1 2 (.reg 3) 2) ∧
    -- XOR rd=31 ra=0 bsel=1 ext=1 iw=8 imm=2147483656 len=6
    decodeTableWord 128 0x00000000000000D00000010430001F09 = some (.xor 31 0 (.imm ⟨.zext, 8, 0x80000008⟩) 6) ∧
    -- SHL rd=16 ra=8 bsel=0 rb=4 len=2
    decodeTableWord 128 0x0000000000000040000000000220100C = some (.shl 16 8 (.reg 4) 2) ∧
    -- SHR rd=1 ra=2 bsel=1 ext=0 iw=10 imm=2147483658 len=6
    decodeTableWord 128 0x00000000000000D0000001451008010D = some (.shr 1 2 (.imm ⟨.sext, 10, 0x8000000A⟩) 6) ∧
    -- SAR rd=31 ra=0 bsel=0 rb=30 len=2
    decodeTableWord 128 0x0000000000000040000000000F001F0E = some (.sar 31 0 (.reg 30) 2) ∧
    -- CMP ra=17 bsel=1 ext=1 iw=32 imm=1515870810 len=8
    decodeTableWord 128 0x000000000000010B4B4B4B5030440004 = some (.cmp 17 (.imm ⟨.zext, 32, 0x5A5A5A5A⟩) 8) := by
  decide

/-- TST, NOT, MOV, SXB, SXH, ZXB. -/
theorem test_decode_alu_3 :
    -- TST ra=18 bsel=1 ext=1 iw=32 imm=1515870810 len=8
    decodeTableWord 128 0x000000000000010B4B4B4B503048000B = some (.tst 18 (.imm ⟨.zext, 32, 0x5A5A5A5A⟩) 8) ∧
    -- NOT rd=20 bsel=0 rb=9 len=2
    decodeTableWord 128 0x0000000000000040000000000480140A = some (.not 20 (.reg 9) 2) ∧
    -- MOV rd=21 bsel=1 ext=2 iw=16 imm=4660 len=4
    decodeTableWord 128 0x0000000000000080000246885000150F = some (.mov 21 (.imm ⟨.hi16, 16, 0x1234⟩) 4) ∧
    -- SXB rd=22 bsel=0 rb=11 len=2
    decodeTableWord 128 0x00000000000000400000000005801610 = some (.sxb 22 (.reg 11) 2) ∧
    -- SXH rd=23 bsel=1 ext=2 iw=16 imm=4660 len=4
    decodeTableWord 128 0x00000000000000800002468850001711 = some (.sxh 23 (.imm ⟨.hi16, 16, 0x1234⟩) 4) ∧
    -- ZXB rd=24 bsel=0 rb=13 len=2
    decodeTableWord 128 0x00000000000000400000000006801812 = some (.zxb 24 (.reg 13) 2) := by
  decide

/-- ZXH. -/
theorem test_decode_alu_4 :
    -- ZXH rd=25 bsel=1 ext=2 iw=16 imm=4660 len=4
    decodeTableWord 128 0x00000000000000800002468850001913 = some (.zxh 25 (.imm ⟨.hi16, 16, 0x1234⟩) 4) := by
  decide

/-- MULH, MUL, MULU. -/
theorem test_decode_multiply :
    -- MULH rd=16 ra=8 bsel=1 ext=2 iw=12 imm=2147483660 len=6
    decodeTableWord 128 0x00000000000000D00000018650201022 = some (.mulh 16 8 (.imm ⟨.hi16, 12, 0x8000000C⟩) 6) ∧
    -- MUL rd=6 rd2=9 ra=6 bsel=0 rb=7 len=4
    decodeTableWord 128 0x00000000000000800000000003992620 = some (.mul 6 9 6 (.reg 7) 4) ∧
    -- MULU rd=1 rd2=2 ra=3 bsel=1 ext=0 iw=9 imm=511 len=4
    decodeTableWord 128 0x000000000000008000003FE4900C4121 = some (.mulu 1 2 3 (.imm ⟨.sext, 9, 0x1FF⟩) 4) := by
  decide

/-- DIV, DIVU, DIVH, DIVHU, DIVN, DIVUN. -/
theorem test_decode_divide :
    -- DIV rd=6 rd2=8 wr2=1 ra=10 bsel=0 rb=7 len=4
    decodeTableWord 128 0x08000000000000800000000003A90628 = some (.div 6 (some 8) 10 (.reg 7) 4) ∧
    -- DIVU rd=6 rd2=8 wr2=0 ra=10 bsel=0 rb=7 len=4
    decodeTableWord 128 0x00000000000000800000000003A90629 = some (.divu 6 none 10 (.reg 7) 4) ∧
    -- DIVH rd=6 rd2=8 wr2=1 ra=10 bsel=0 rb=7 len=4
    decodeTableWord 128 0x08000000000000800000000003A9062C = some (.divh 6 (some 8) 10 (.reg 7) 4) ∧
    -- DIVHU rd=6 rd2=8 wr2=0 ra=10 bsel=0 rb=7 len=4
    decodeTableWord 128 0x00000000000000800000000003A9062D = some (.divhu 6 none 10 (.reg 7) 4) ∧
    -- DIVN rd=6 rd2=31 wr2=1 ra=10 bsel=1 ext=0 iw=5 imm=17 n=32 len=4
    decodeTableWord 128 0x080000000004008000000222902BE62A = some (.divn 6 (some 31) 10 (.imm ⟨.sext, 5, 17⟩) 32 4) ∧
    -- DIVUN rd=6 wr2=0 ra=10 bsel=0 rb=0 n=1 len=4
    decodeTableWord 128 0x0000000000002080000000000028062B = some (.divun 6 none 10 (.reg 0) 1 4) := by
  decide

/-- LDB, LDBU, LDH, LDHU, LDW, STB. -/
theorem test_decode_loadstore_1 :
    -- LDB rd=3 ra=11 ext=0 iw=16 imm=65520 len=4
    decodeTableWord 128 0x0000000000000080001FFE08002C0330 = some (.ldb 3 11 ⟨.sext, 16, 0xFFF0⟩ 4) ∧
    -- LDBU rd=4 ra=12 ext=0 iw=16 imm=65521 len=4
    decodeTableWord 128 0x0000000000000080001FFE2800300431 = some (.ldbu 4 12 ⟨.sext, 16, 0xFFF1⟩ 4) ∧
    -- LDH rd=5 ra=13 ext=0 iw=16 imm=65522 len=4
    decodeTableWord 128 0x0000000000000080001FFE4800340532 = some (.ldh 5 13 ⟨.sext, 16, 0xFFF2⟩ 4) ∧
    -- LDHU rd=6 ra=14 ext=0 iw=16 imm=65523 len=4
    decodeTableWord 128 0x0000000000000080001FFE6800380633 = some (.ldhu 6 14 ⟨.sext, 16, 0xFFF3⟩ 4) ∧
    -- LDW rd=7 ra=15 ext=0 iw=16 imm=65524 len=4
    decodeTableWord 128 0x0000000000000080001FFE88003C0734 = some (.ldw 7 15 ⟨.sext, 16, 0xFFF4⟩ 4) ∧
    -- STB ra=1 rb=21 ext=1 iw=8 imm=0 len=2
    decodeTableWord 128 0x0000000000000040000000042A840038 = some (.stb 1 21 ⟨.zext, 8, 0⟩ 2) := by
  decide

/-- STH, STW, SET1, CLR1, NOT1, TST1. -/
theorem test_decode_loadstore_2 :
    -- STH ra=2 rb=22 ext=1 iw=8 imm=4 len=2
    decodeTableWord 128 0x0000000000000040000000842B080039 = some (.sth 2 22 ⟨.zext, 8, 4⟩ 2) ∧
    -- STW ra=3 rb=23 ext=1 iw=8 imm=8 len=2
    decodeTableWord 128 0x0000000000000040000001042B8C003A = some (.stw 3 23 ⟨.zext, 8, 8⟩ 2) ∧
    -- SET1 ra=5 bit=7 ext=0 iw=16 imm=0 len=4
    decodeTableWord 128 0x00000000E00000800000000800140040 = some (.set1 5 7 ⟨.sext, 16, 0⟩ 4) ∧
    -- CLR1 ra=6 bit=6 ext=0 iw=16 imm=1 len=4
    decodeTableWord 128 0x00000000C00000800000002800180041 = some (.clr1 6 6 ⟨.sext, 16, 1⟩ 4) ∧
    -- NOT1 ra=7 bit=5 ext=0 iw=16 imm=2 len=4
    decodeTableWord 128 0x00000000A000008000000048001C0042 = some (.not1 7 5 ⟨.sext, 16, 2⟩ 4) ∧
    -- TST1 ra=8 bit=4 ext=0 iw=16 imm=3 len=4
    decodeTableWord 128 0x00000000800000800000006800200043 = some (.tst1 8 4 ⟨.sext, 16, 3⟩ 4) := by
  decide

/-- BCOND, JARL, JMP, CALLT, CTRET. -/
theorem test_decode_branch :
    -- BCOND cond=10 imm=508 len=2
    decodeTableWord 128 0x000000000000144000003F8000000050 = some (.bcond 10 0x1FC 2) ∧
    -- JARL link=1 rd=31 ext=0 iw=22 imm=4194300 len=4
    decodeTableWord 128 0x040000000000008007FFFF8B00001F51 = some (.jarl (some 31) ⟨.sext, 22, 0x3FFFFC⟩ 4) ∧
    -- JMP ra=31 len=2
    decodeTableWord 128 0x000000000000004000000000007C0052 = some (.jmp 31 2) ∧
    -- CALLT imm=63 len=2
    decodeTableWord 128 0x0000000000000040000007E000000053 = some (.callt 63 2) ∧
    -- CTRET len=4
    decodeTableWord 128 0x00000000000000800000000000000054 = some (.ctret 4) := by
  decide

/-- TRAP, RETI, LDSR, STSR, BRKPT. -/
theorem test_decode_system :
    -- TRAP code=31 len=4
    decodeTableWord 128 0x0000000000F800800000000000000060 = some (.trap 31 4) ∧
    -- RETI len=4
    decodeTableWord 128 0x00000000000000800000000000000061 = some (.reti 4) ∧
    -- LDSR ra=4 sr=5 len=4
    decodeTableWord 128 0x00000000050000800000000000100062 = some (.ldsr 4 5 4) ∧
    -- STSR rd=9 sr=20 len=4
    decodeTableWord 128 0x00000000140000800000000000000963 = some (.stsr 9 20 4) ∧
    -- BRKPT 
    decodeTableWord 128 0x00000000000000000000000000000064 = some (.brkpt) := by
  decide

/-- PREPARE, DISPOSE, PUSHMH, POPMH, PUSHML, POPML. -/
theorem test_decode_transfer :
    -- PREPARE mask=2051 frame=2 epm=1 len=4
    decodeTableWord 128 0x00880803000000800000000000000070 = some (.prepare 0x803 2 .sp 4) ∧
    -- DISPOSE mask=2051 frame=31 jmp=1 ra=5 len=4
    decodeTableWord 128 0x107C0803000000800000000000140071 = some (.dispose 0x803 31 (some 5) 4) ∧
    -- PUSHMH mask=196609 len=4
    decodeTableWord 128 0x00030001000000800000000000000072 = some (.pushmh 0x30001 4) ∧
    -- POPMH mask=131072 len=4
    decodeTableWord 128 0x00020000000000800000000000000073 = some (.popmh 0x20000 4) ∧
    -- PUSHML mask=32773 len=4
    decodeTableWord 128 0x00008005000000800000000000000074 = some (.pushml 0x8005 4) ∧
    -- POPML mask=65536 len=4
    decodeTableWord 128 0x00010000000000800000000000000075 = some (.popml 0x10000 4) := by
  decide
/-! ## Encoding -/

theorem test_reserved_op : decodeTableWord 128 0x14 = none ∧ decodeTableWord 128 0 = none := by decide
theorem test_padding : decodeTableWord 128 (0x64 + 2 ^ 125) = none := by decide
theorem test_table_word : decodeTableWord 8 0x64 = some .brkpt ∧ decodeTableWord 8 0x61 = some (.reti 0) := by decide

/-! ## One step, against 95_test_vectors.md -/

/-- E1 and 2.1. -/
theorem test_add : result (.add 3 1 (.reg 2) 4) (start 0x7FFFFFFF 1 0) 3 =
    some (0x80000000, [false, true, true, false, false], 0x104) := by decide
theorem test_add_wraps : result (.add 3 1 (.reg 2) 4) (start 0x80000000 0x80000000 0) 3 =
    some (0, [true, false, true, true, false], 0x104) := by decide
/-- 2.1: every flag set before. -/
theorem test_addnf : result (.addnf 3 1 (.reg 2) 4) (start 0xFFFFFFFF 1 0x1F) 3 =
    some (0, [true, true, true, true, true], 0x104) := by decide
theorem test_sub : result (.sub 3 1 (.reg 2) 4) (start 0x7FFFFFFF 0xFFFFFFFF 0) 3 =
    some (0x80000000, [false, true, true, true, false], 0x104) := by decide
theorem test_cmp : result (.cmp 1 (.reg 2) 4) (start 2 3 0) 1 = some (2, [false, true, false, true, false], 0x104) := by
  decide
/-- E2 and 2.2. -/
theorem test_satadd : result (.satadd 3 1 (.reg 2) 4) (start 0x7FFFFFFF 1 0) 3 =
    some (0x7FFFFFFF, [false, false, true, false, true], 0x104) := by decide
theorem test_satadd_keeps_sat : result (.satadd 3 1 (.reg 2) 4) (start 1 2 0x10) 3 =
    some (3, [false, false, false, false, true], 0x104) := by decide
theorem test_satsub : result (.satsub 3 1 (.reg 2) 4) (start 0 0x80000000 0) 3 =
    some (0x7FFFFFFF, [false, false, true, true, true], 0x104) := by decide
/-- 2.3, CY and OV set before. -/
theorem test_and : result (.and 3 1 (.reg 2) 4) (start 0xF0F0F0F0 0x0F0F0F0F 0xC) 3 =
    some (0, [true, false, false, true, false], 0x104) := by decide
theorem test_or : result (.or 3 1 (.reg 2) 4) (start 0x80000000 1 0xC) 3 =
    some (0x80000001, [false, true, false, true, false], 0x104) := by decide
theorem test_xor : result (.xor 3 1 (.reg 2) 4) (start 0xFFFF0000 0x0000FFFF 0xC) 3 =
    some (0xFFFFFFFF, [false, true, false, true, false], 0x104) := by decide
theorem test_not : result (.not 3 (.reg 2) 4) (start 0 0xFFFFFFFF 0xC) 3 =
    some (0, [true, false, false, true, false], 0x104) := by decide
theorem test_tst : result (.tst 1 (.reg 2) 4) (start 0x80000000 0xFFFFFFFF 0xC) 1 =
    some (0x80000000, [false, true, false, true, false], 0x104) := by decide
/-- 2.4. -/
theorem test_shl : result (.shl 3 1 (.reg 2) 4) (start 0x80000001 33 0xC) 3 =
    some (2, [false, false, false, true, false], 0x104) := by decide
theorem test_shl_31 : result (.shl 3 1 (.reg 2) 4) (start 1 31 0xC) 3 =
    some (0x80000000, [false, true, false, false, false], 0x104) := by decide
theorem test_shr : result (.shr 3 1 (.reg 2) 4) (start 1 1 0x4) 3 =
    some (0, [true, false, false, true, false], 0x104) := by decide
theorem test_sar : result (.sar 3 1 (.reg 2) 4) (start 0x80000000 4 0xC) 3 =
    some (0xF8000000, [false, true, false, false, false], 0x104) := by decide
theorem test_shift_by_zero : look (exec (.sar 3 1 (.reg 2) 4) (start 0x12345678 0 0x7)) (fun t =>
    (t.readReg 3, t.draws, t.pc)) = some (0x12345678, 1, 0x104) := by decide
/-- 2.5, every flag set before. -/
theorem test_mov : look (exec (.mov 3 (.imm ⟨.sext, 5, 0x19⟩) 2) (start 0 0 0x1F)) (fun t => (t.readReg 3, t.psw, t.pc)) =
    some (0xFFFFFFF9, 0x1F, 0x102) := by decide
theorem test_mov_hi16 : result (.mov 3 (.imm ⟨.hi16, 16, 0x1234⟩) 4) (start 0 0 0x1F) 3 =
    some (0x12340000, [true, true, true, true, true], 0x104) := by decide
theorem test_extensions :
    look (exec (.sxb 3 (.reg 2) 2) (start 0 0x12345680 0x1F)) (fun t => (t.readReg 3, t.psw)) = some (0xFFFFFF80, 0x1F) ∧
    look (exec (.sxh 3 (.reg 2) 2) (start 0 0x00008000 0x1F)) (fun t => (t.readReg 3, t.psw)) = some (0xFFFF8000, 0x1F) ∧
    look (exec (.zxb 3 (.reg 2) 2) (start 0 0xFFFFFF80 0x1F)) (fun t => (t.readReg 3, t.psw)) = some (0x80, 0x1F) ∧
    look (exec (.zxh 3 (.reg 2) 2) (start 0 0xFFFF8000 0x1F)) (fun t => (t.readReg 3, t.psw)) = some (0x8000, 0x1F) := by
  decide
/-- 2.6, E4, E5. -/
theorem test_mul : look (exec (.mul 3 4 1 (.reg 2) 4) (start 0x12345678 0x9ABCDEF0 0)) (fun t =>
    (t.readReg 3, t.readReg 4)) = some (0x242D2080, 0xF8CC93D6) := by decide
theorem test_mul_same_register : result (.mul 3 3 1 (.reg 2) 4) (start 0x7FFFFFFF 0xFFFFFFFF 0) 3 =
    some (0xFFFFFFFF, [false, false, false, false, false], 0x104) := by decide
theorem test_mulu : look (exec (.mulu 3 4 1 (.reg 2) 4) (start 0xFFFFFFFF 0xFFFFFFFF 0)) (fun t =>
    (t.readReg 3, t.readReg 4)) = some (1, 0xFFFFFFFE) := by decide
theorem test_mulh : result (.mulh 3 1 (.reg 2) 4) (start 0xFFFF8000 0x00007FFF 0) 3 =
    some (0xC0008000, [false, false, false, false, false], 0x104) := by decide
theorem test_engine : engineMulU 0x12345678 0x9ABCDEF0 = (0x0B00EA4E, 0x242D2080) ∧
    engineMulS 0x80000000 0x80000000 = (0x40000000, 0) ∧ engineMulS 0x80000000 0xFFFFFFFF = (0, 0x80000000) := by decide
/-- 2.7, CY set before. -/
theorem test_div : look (exec (.div 3 (some 4) 1 (.reg 2) 4) (start 0xFFFFFFF9 2 0xC)) (fun t =>
    (t.readReg 3, t.readReg 4, flags t)) = some (0xFFFFFFFD, 0xFFFFFFFF, [false, true, false, true, false]) := by decide
theorem test_div_remainder_wins : result (.div 5 (some 5) 1 (.reg 2) 4) (start 7 2 0) 5 =
    some (1, [false, false, false, false, false], 0x104) := by decide
theorem test_divu : look (exec (.divu 3 (some 4) 1 (.reg 2) 4) (start 0x80000000 0xFFFFFFFF 0xC)) (fun t =>
    (t.readReg 3, t.readReg 4, flags t)) = some (0, 0x80000000, [true, false, false, true, false]) := by decide
theorem test_divide_by_zero : look (exec (.divu 3 (some 4) 1 (.reg 2) 4) (start 5 0 0x8)) (fun t =>
    (t.pc, t.draws)) = some (0x104, 1) := by decide
theorem test_divn : look (exec (.divn 3 (some 4) 1 (.reg 2) 8 4) (start 0xFFFFFF00 2 0x8)) (fun t =>
    (t.readReg 3, t.readReg 4, flags t)) = some (0xFFFFFF80, 0, [false, true, false, true, false]) := by decide
theorem test_div_overflows : divOverflow .signed 32 0x80000000 0xFFFFFFFF = true ∧ divOverflow .signed 8 0x100 2 = true ∧
    divOverflow .signed 1 1 1 = true ∧ divOverflow .signed 8 0xFFFFFEFE 2 = true := by decide
theorem test_divun : look (exec (.divun 3 (some 4) 1 (.reg 2) 8 4) (start 0xFF 1 0)) (fun t =>
    (t.readReg 3, t.readReg 4, t.flag .ov)) = some (0xFF, 0, false) ∧
    divOverflow .unsigned 8 0x100 1 = true ∧ divOverflow .unsigned 8 1000 3 = true := by decide
theorem test_divh : look (exec (.divh 3 (some 4) 1 (.reg 2) 4) (start 100 0x1234FFF9 0x8)) (fun t =>
    (t.readReg 3, t.readReg 4, flags t)) = some (0xFFFFFFF2, 2, [false, true, false, true, false]) := by decide
theorem test_divhu : look (exec (.divhu 3 (some 4) 1 (.reg 2) 4) (start 100 0x0001FFFF 0x8)) (fun t =>
    (t.readReg 3, t.readReg 4, flags t)) = some (0, 100, [true, false, false, true, false]) := by decide
theorem test_restoring : restoringU 8 600 3 = some (200, 0) ∧ restoringU 8 1000 3 = none ∧
    restoringS 8 0xFFFFFF00 2 = some (0xFFFFFF80, 0) ∧ restoringS 32 0x80000000 0xFFFFFFFF = none := by decide
/-- 2.8: the flags of CMP 1, 0x80000000, and every flag set. -/
theorem test_conditions : (List.range 16).map (fun c => condHolds (BitVec.ofNat 4 c) 0xE) =
      [true, true, false, true, true, true, false, false, false, false, true, false, false, false, true, true] ∧
    (List.range 16).map (fun c => condHolds (BitVec.ofNat 4 c) 0x1F) =
      [true, true, true, true, true, true, false, true, false, false, false, false, false, true, true, false] := by decide
/-- 2.9: B1, B2, B7, at pc 0x100. -/
theorem test_bcond : look (exec (.bcond 2 0x1F8 2) (start 0 0 1)) (·.pc) = some 0xF8 ∧
    look (exec (.bcond 2 0x1F8 2) (start 0 0 0)) (·.pc) = some 0x102 ∧
    look (exec (.bcond 13 0x010 2) (start 0 0 0x10)) (·.pc) = some 0x110 := by decide
/-- B5, B6. -/
theorem test_bcond_odd : faultOf (exec (.bcond 2 3 2) (start 0 0 1)) = some .oddTarget ∧
    look (exec (.bcond 2 3 2) (start 0 0 0)) (·.pc) = some 0x102 := by decide
/-- B8, B9. -/
theorem test_jarl : look (exec (.jarl (some 31) ⟨.sext, 22, 0x100⟩ 4) base) (fun t => (t.readReg 31, t.pc)) =
    some (0x104, 0x200) := by decide
theorem test_jarl_no_link : look (exec (.jarl none ⟨.sext, 22, 0x3FFFFC⟩ 4) base) (fun t => (t.readReg 31, t.pc)) =
    some (0, 0xFC) := by decide
/-- B10. -/
theorem test_jmp : faultOf (exec (.jmp 31 2) (withRegs [(31, 0x1005)] base)) = some .oddTarget ∧
    look (exec (.jmp 31 2) (withRegs [(31, 0x1004)] base)) (·.pc) = some 0x1004 := by decide
/-- B11. -/
theorem test_callt : look (exec (.callt 3 2) ((withSys [(20, 0x1000)] base).setMem [(0x1006, 0x40)])) (fun t =>
    (t.readSys SysReg.ctpc, t.readSys SysReg.ctpsw, t.pc)) = some (0x102, 0x20, 0x1040) := by decide
/-- B12. -/
theorem test_ctret : look (exec (.ctret 4) (withSys [(16, 0x302), (17, 0x9)] base)) (fun t => (t.pc, t.psw)) =
    some (0x302, 0x9) := by decide
/-- 2.10: M1 to M7. -/
theorem test_ldw : result (.ldw 3 1 ⟨.sext, 16, 3⟩ 4) memStart 3 =
    some (0x11223344, [false, false, false, false, false], 0x104) := by decide
theorem test_ldw_wraps : look (exec (.ldw 3 1 ⟨.sext, 16, 4⟩ 4) ((withRegs [(1, 0xFFFFFFFE)] base).setMem
    [(0, 0x78), (1, 0x56), (3, 0x12)])) (fun t => t.readReg 3) = some 0x12005678 := by decide
theorem test_ldh : look (exec (.ldh 3 1 ⟨.sext, 16, 2⟩ 4) memStart) (fun t => t.readReg 3) = some 0x1122 ∧
    look (exec (.ldh 3 1 ⟨.sext, 16, 1⟩ 4) memStart) (fun t => t.readReg 3) = some 0x3344 := by decide
theorem test_ldhu : look (exec (.ldhu 3 1 ⟨.sext, 16, 0⟩ 4) (memStart.setMem [(0x1000, 0x34), (0x1001, 0x92)])) (fun t =>
    t.readReg 3) = some 0x9234 := by decide
theorem test_ldb : look (exec (.ldb 3 1 ⟨.sext, 16, 4⟩ 4) memStart) (fun t => t.readReg 3) = some 0xFFFFFF80 := by decide
theorem test_ldbu : look (exec (.ldbu 3 1 ⟨.sext, 16, 4⟩ 4) memStart) (fun t => t.readReg 3) = some 0x80 := by decide
/-- M8 to M10. -/
theorem test_sth : look (exec (.sth 1 2 ⟨.sext, 16, 1⟩ 4) memStart) (fun t => t.mem) =
    some [(0x1000, 0x78), (0x1001, 0x56), (0x1002, 0x22), (0x1003, 0x11), (0x1004, 0x80)] := by decide
theorem test_stw : look (exec (.stw 1 2 ⟨.sext, 16, 2⟩ 4) memStart) (fun t => t.mem) =
    some [(0x1000, 0x78), (0x1001, 0x56), (0x1002, 0x34), (0x1003, 0x12), (0x1004, 0x80)] := by decide
theorem test_stb : look (exec (.stb 1 2 ⟨.sext, 16, 5⟩ 4) memStart) (fun t => t.mem.readByte 0x1005) = some 0x78 := by decide
theorem test_stb_zero : look (exec (.stb 1 0 ⟨.sext, 16, 2⟩ 4) memStart) (fun t => t.mem) =
    some [(0x1000, 0x44), (0x1001, 0x33), (0x1003, 0x11), (0x1004, 0x80)] := by decide
/-- M11 to M15. -/
theorem test_set1 : look (exec (.set1 1 7 ⟨.sext, 16, 1⟩ 4) memStart) (fun t => (t.mem.readByte 0x1001, t.flag .z)) =
    some (0xB3, true) := by decide
theorem test_clr1 : look (exec (.clr1 1 0 ⟨.sext, 16, 0⟩ 4) memStart) (fun t => (t.mem.readByte 0x1000, t.flag .z)) =
    some (0x44, true) := by decide
theorem test_not1 : look (exec (.not1 1 2 ⟨.sext, 16, 0⟩ 4) memStart) (fun t => (t.mem.readByte 0x1000, t.flag .z)) =
    some (0x40, false) := by decide
theorem test_tst1 : look (exec (.tst1 1 1 ⟨.sext, 16, 2⟩ 4) memStart) (fun t => (t.mem, t.flag .z)) =
    some (memStart.mem, false) ∧
    look (exec (.tst1 1 0 ⟨.sext, 16, 2⟩ 4) memStart) (fun t => (t.mem, t.flag .z)) = some (memStart.mem, true) := by decide
/-- 2.11: T1. -/
theorem test_prepare : look (exec (.prepare 0x803 2 .sp 4)
    (withRegs [(3, 0x2000), (20, 0xA), (21, 0xB), (30, 0xE), (31, 0xC)] base)) (fun t => (t.mem, t.readReg 3, t.readReg 30)) =
    some ([(0x1FF4, 0xA), (0x1FF8, 0xB), (0x1FFC, 0xC)], 0x1FEC, 0x1FEC) := by decide
/-- T9. -/
theorem test_prepare_imm32 : look (exec (.prepare 0 0 (.imm32 0xDEADBEEF) 8) (withRegs [(3, 0x2000)] base)) (fun t =>
    (t.mem, t.readReg 3, t.readReg 30)) = some ([], 0x2000, 0xDEADBEEF) := by decide
/-- T2, and its jump form. -/
theorem test_dispose : look (exec (.dispose 0x803 2 none 4)
    ((withRegs [(3, 0x1FEC), (30, 0x1FEC)] base).setMem [(0x1FF4, 0xA), (0x1FF8, 0xB), (0x1FFC, 0xC)])) (fun t =>
      [t.readReg 20, t.readReg 21, t.readReg 31, t.readReg 3, t.readReg 30, t.pc]) =
    some [0xA, 0xB, 0xC, 0x2000, 0x1FEC, 0x104] := by decide
theorem test_dispose_jumps : look (exec (.dispose 0x001 0 (some 31) 4)
    ((withRegs [(3, 0x1FF4), (31, 0x500)] base).setMem [(0x1FF4, 0x0A)])) (fun t => [t.readReg 20, t.readReg 3, t.pc]) =
    some [0xA, 0x1FF8, 0x500] := by decide
/-- T3. -/
theorem test_pushmh : look (exec (.pushmh 0x30001 4)
    ((withSys [(0, 0x204), (1, 0x20)] (withRegs [(3, 0x1000), (16, 0x16)] base)).writePsw 0x40)) (fun t => (t.mem, t.readReg 3)) =
    some ([(0xFF4, 0x16), (0xFF8, 0x20), (0xFFC, 0x04), (0xFFD, 0x02)], 0xFF4) := by decide
/-- T6. -/
theorem test_pushmh_misaligned : look (exec (.pushmh 1 4) (withRegs [(3, 0x1002), (16, 5)] base)) (fun t =>
    (t.mem, t.readReg 3)) = some ([(0xFFC, 5)], 0xFFE) := by decide
/-- T3 read back, NP and EP clear. -/
theorem test_popmh : look (exec (.popmh 0x30001 4)
    ((withRegs [(3, 0xFF4)] base).setMem [(0xFF4, 0x16), (0xFF8, 0x20), (0xFFC, 0x04), (0xFFD, 0x02)])) (fun t =>
      [t.readReg 16, t.readSys SysReg.eipsw, t.readSys SysReg.eipc, t.readReg 3]) = some [0x16, 0x20, 0x204, 0x1000] := by decide
/-- T4. -/
theorem test_pushml : look (exec (.pushml 0x8005 4) (withRegs [(1, 0x11), (3, 0x1000)] base)) (fun t => (t.mem, t.readReg 3)) =
    some ([(0xFF4, 0x11), (0xFF9, 0x10), (0xFFC, 0x20)], 0xFF4) := by decide
/-- T7. -/
theorem test_pushml_nmi_pair : look (exec (.pushml 0x10000 4)
    ((withSys [(2, 0x500), (3, 0x80)] (withRegs [(3, 0x1000)] base)).writePsw 0x80)) (fun t => (t.mem, t.readReg 3)) =
    some ([(0xFF8, 0x80), (0xFFD, 0x05)], 0xFF8) := by decide
/-- T5. -/
theorem test_popml : look (exec (.popml 0x8005 4)
    (((withRegs [(3, 0xFF4)] base).setMem [(0xFF4, 0x11), (0xFF9, 0x10), (0xFFC, 0x20)]).writePsw 0x0F)) (fun t =>
      [t.readReg 1, t.psw, t.readReg 3]) = some [0x11, 0x20, 0x1000] := by decide
/-- 2.12: S1, S2. -/
theorem test_trap : look (exec (.trap 5 4) ((start 0 0 9).setPc 0x2000)) (fun t =>
    [t.readSys SysReg.eipc, t.readSys SysReg.eipsw, t.readSys SysReg.ecr, t.psw, t.pc]) =
    some [0x2004, 0x9, 0x45, 0x69, 0x40] := by decide
theorem test_trap_high_vector : look (exec (.trap 16 4) (withSys [(4, 0x12340000)] base)) (fun t =>
    [t.readSys SysReg.ecr, t.pc]) = some [0x12340050, 0x50] := by decide
/-- S5. -/
theorem test_reti : look (exec (.reti 4) ((withSys [(2, 0x600), (3, 0x1)] base).writePsw 0x80)) (fun t => [t.pc, t.psw]) =
    some [0x600, 0x1] := by decide
/-- S6. -/
theorem test_reti_without_context : look (exec (.reti 4) ((withSys [(0, 0x700), (1, 0x2)] base).writePsw 0)) (fun t =>
    [t.pc, t.psw]) = some [0x700, 0x2] := by decide
/-- S7. -/
theorem test_ldsr : look (exec (.ldsr 4 5 4) (withRegs [(4, 0xFFFFFFFF)] base)) (fun t => [t.psw, t.pc]) =
    some [0xFFFFFFFF, 0x104] := by decide
/-- S8. -/
theorem test_stsr : look (exec (.stsr 9 5 4) (base.writePsw 0xFFFFFFFF)) (fun t => [t.readReg 9, t.pc]) =
    some [0xFFFFFFFF, 0x104] := by decide
/-- S9: write is number 2 here. -/
theorem test_host_write : look (exec (.trap 31 4) (withRegs [(6, 2), (7, 1), (8, 0x3000), (9, 5)] base)) (fun t =>
    ([t.readReg 9, t.psw, t.pc], t.draws)) = some ([5, 0x20, 0x104], 1) := by decide
/-- S10. -/
theorem test_host_unknown : look (exec (.trap 31 4) (withRegs [(6, 99)] base)) (fun t => (t.status, t.lastOutcome, t.pc)) =
    some (.aborted, some .abort, 0x100) := by decide
/-- E10, P6: exit is number 15 here. -/
theorem test_host_exit : look (exec (.trap 31 4) (withRegs [(6, 15), (7, 0)] base)) (fun t => (t.status, t.lastOutcome)) =
    some (.exited (.status 0), some (.exit (.status 0))) := by decide
/-- S11. -/
theorem test_trap_31_without_gate : look (trapOrCall false 31 base) (fun t => [t.readSys SysReg.ecr, t.pc]) =
    some [0x5F, 0x50] := by decide
/-- S12. -/
theorem test_brkpt : look (exec .brkpt base) (fun t => (t.lastOutcome, t.pc)) = some (some .brk, 0x100) := by decide

/-! ## The step -/

/-- ADD of P1 (rd 2, ra 2, -1) placed at pc. -/
def addWord : Nat := 0x0000000000000040000003E290080201

/-- The state that runs it. -/
def addStep : State := (withRegs [(2, 5)] base).withFetchWord 128 addWord

theorem test_step_add : look (step addStep) (fun t => [t.readReg 2, t.pc, t.psw]) = some [4, 0x102, 0x28] := by decide
theorem test_step_reserved_op : faultOf (step (base.withFetchWord 8 0x14)) = some .illegalCommand := by decide
/-- S13. -/
theorem test_step_ill_formed : faultOf (step (base.withFetchWord 128 0x00000000001800400000000000000060)) = some .illegalCommand := by decide
/-- P1's ADD presented at 0x100 and 0x104 to a fetcher that sees stores, and x[1] = 0x100. -/
def seenStart : State :=
  let add := Command.ofBits (BitVec.ofNat 128 addWord)
  ((withRegs [(1, 0x100)] { base with params := { params with fetchSeesStores := true } }).setProgram
    [(0x100, add), (0x104, add)])

/-- A zero stored over the second byte of the first ADD takes that command out, and no other. -/
theorem test_store_over_code_is_seen : look (exec (.stb 1 0 ⟨.sext, 16, 1⟩ 4) seenStart) (fun t =>
    t.program.map Prod.fst) = some [0x104] := by decide
/-- A store beside the 2-byte instruction leaves it; a word over both takes both out. -/
theorem test_store_beside_code : look (exec (.sth 1 0 ⟨.sext, 16, 2⟩ 4) seenStart) (fun t =>
    t.program.map Prod.fst) = some [0x100, 0x104] := by decide
/-- An address with no command presents one where fetches see stores, and none where they do not. -/
theorem test_unlisted_address : (presented (seenStart.setPc 0x200)).isSome = true ∧ presented (base.setPc 0x200) = none :=
  ⟨by decide, by decide⟩
theorem test_step_runs_first_after_reset : isNext (step (State.reset.withFetchWord 8 0x64)) = true := by decide

/-! ## Witnesses: for each statement with hypotheses, states and operands that meet them, clause by clause -/

theorem witness_EncodedInstructionDecodesToItself : (Instr.divn 31 (some 0) 30 (.imm ⟨.hi16, 32, 0xFFFFFFFF⟩) 32 8).wf = true := by
  decide

theorem witness_ReservedValuesFault :
    (Presents (base.withFetchWord 8 0x76) (Command.ofBits 0x76) ∧ ReservedOp 0x76) ∧
    (Presents (base.withFetchWord 8 0) (Command.ofBits 0) ∧ ReservedOp 0) ∧
    (Presents (base.withFetchWord 128 0x000000000000004000000002F000010F) (Command.ofBits 0x000000000000004000000002F000010F) ∧
      decode (Command.ofBits 0x000000000000004000000002F000010F) = .ok (.mov 1 (.imm ⟨.reserved, 5, 0⟩) 2) ∧
      ReadsImm (.mov 1 (.imm ⟨.reserved, 5, 0⟩) 2) ⟨.reserved, 5, 0⟩) ∧
    (¬ ReservedOp 0x01 ∧ ¬ ReservedOp 0x75) := by
  refine ⟨⟨⟨rfl, by decide⟩, by unfold ReservedOp; decide⟩, ⟨⟨rfl, by decide⟩, by unfold ReservedOp; decide⟩,
    ⟨⟨rfl, by decide⟩, by decide, .inr rfl⟩, by unfold ReservedOp; decide⟩

/-- The first and the last row of the table, and a record with each op. -/
theorem witness_WrittenRecordsDecode :
    ((recordTable.head?.map Prod.fst) = some 0x01 ∧ (Command.ofBits 0x01).op = 0x01) ∧
    ((recordTable.getLast?.map Prod.fst) = some 0x75 ∧ (Command.ofBits 0x75).op = 0x75) ∧ recordTable.length = 56 := by
  decide

theorem witness_StepRunsTheDecodedInstruction :
    Presents addStep (Command.ofBits (BitVec.ofNat 128 addWord)) ∧
    decode (Command.ofBits (BitVec.ofNat 128 addWord)) = .ok (.add 2 2 (.imm ⟨.sext, 5, 0x1F⟩) 2) ∧
    (Instr.add 2 2 (.imm ⟨.sext, 5, 0x1F⟩) 2).wf = true ∧ Op.add ∈ addStep.params.admitted := by
  refine ⟨⟨rfl, by decide⟩, by decide, by decide, by decide⟩

/-- A variant that admits ADD alone. -/
def onlyAdd : State := { base with params := { params with admitted := [.add] } }

theorem witness_UnacceptedCommandFaults :
    (Presents (base.withFetchWord 128 0x00000000001800400000000000000060) (Command.ofBits 0x00000000001800400000000000000060) ∧
      decode (Command.ofBits 0x00000000001800400000000000000060) = .ok (.trap 3 2) ∧ (Instr.trap 3 2).wf = false) ∧
    (Presents (onlyAdd.withFetchWord 8 0x64) (Command.ofBits 0x64) ∧
      decode (Command.ofBits 0x64) = .ok .brkpt ∧ Instr.brkpt.op ∉ onlyAdd.params.admitted) := by
  refine ⟨⟨⟨rfl, by decide⟩, by decide, by decide⟩, ⟨rfl, by decide⟩, by decide, by decide⟩

theorem witness_PlacedRecordIsPresented :
    (0x102 : Nat) ≠ base.pc.toNat ∧
    (lookupKey (seenStart.setPc 0x200).pc.toNat (seenStart.setPc 0x200).program = none ∧
      (seenStart.setPc 0x200).params.fetchSeesStores = true) ∧
    (lookupKey base.pc.toNat base.program = none ∧ base.params.fetchSeesStores = false) := by
  refine ⟨by decide, by decide, by decide⟩

theorem witness_RunStatusFollowsTheOutcome :
    (base.setStatus .aborted).status ≠ .running ∧ step addStep = .next (after (step addStep)) :=
  ⟨by decide, next_after (by decide)⟩

theorem addStep_inv : addStep.Inv := ⟨by decide, by decide, by decide⟩

theorem witness_EveryStepKeepsTheInvariant : addStep.Inv ∧ step addStep = .next (after (step addStep)) :=
  ⟨addStep_inv, next_after (by decide)⟩

/-- STB of x[0] to x[1] + 0 presented at 0x200 to a fetcher that sees stores: the command listed at 0x100 goes. -/
def storeStep : State := (seenStart.setPc 0x200).withFetchWord 128 0x00000000000000800000000800040038

theorem witness_ParametersAndProgramOutlastAStep :
    (step addStep = .next (after (step addStep)) ∧ addStep.params.fetchSeesStores = false) ∧
    (step storeStep = .next (after (step storeStep)) ∧ storeStep.params.fetchSeesStores = true ∧
      Presents storeStep (Command.ofBits 0x00000000000000800000000800040038) ∧
      decode (Command.ofBits 0x00000000000000800000000800040038) = .ok (.stb 1 0 ⟨.sext, 16, 0⟩ 4) ∧
      StoresTo storeStep 0x100 (.stb 1 0 ⟨.sext, 16, 0⟩ 4) ∧ ¬ StoresTo storeStep 0x104 (.stb 1 0 ⟨.sext, 16, 0⟩ 4)) ∧
    (MayStore (.add 2 2 (.imm ⟨.sext, 5, 0x1F⟩) 2) = false) := by
  refine ⟨⟨next_after (by decide), rfl⟩, ⟨next_after (by decide), rfl, ⟨rfl, by decide⟩, by decide, ?_, ?_⟩, rfl⟩ <;>
    (unfold StoresTo; decide)

/-- An ADD that completes. -/
def addRun : State := after (exec (.add 3 1 (.reg 2) 4) base)

theorem addRun_eq : exec (.add 3 1 (.reg 2) 4) base = .next addRun := next_after (by decide)

theorem witness_FlagsOutsideTheWriteSetAreKept :
    exec (.add 3 1 (.reg 2) 4) base = .next addRun ∧ pswWrites (.add 3 1 (.reg 2) 4) = some [0, 1, 2, 3] ∧ 4 ∉ [0, 1, 2, 3] :=
  ⟨addRun_eq, rfl, by decide⟩

theorem witness_SatIsClearedOnlyByWholePswLoads :
    exec (.add 3 1 (.reg 2) 4) (start 1 2 0x10) = .next (after (exec (.add 3 1 (.reg 2) 4) (start 1 2 0x10))) ∧
    ¬ LoadsPsw (.add 3 1 (.reg 2) 4) ∧ (start 1 2 0x10).psw.getLsbD 4 = true :=
  ⟨next_after (by decide), by unfold LoadsPsw; decide, by decide⟩

theorem witness_GeneralRegistersNotNamedAreKept :
    exec (.add 3 1 (.reg 2) 4) base = .next addRun ∧ (1 : Reg) ∉ regWrites (.add 3 1 (.reg 2) 4) := ⟨addRun_eq, by decide⟩

theorem witness_SystemRegistersNotNamedAreKept :
    exec (.add 3 1 (.reg 2) 4) base = .next addRun ∧ SysReg.eipc ∉ sysWrites base (.add 3 1 (.reg 2) 4) ∧
    SysReg.eipc ≠ SysReg.psw := ⟨addRun_eq, by decide, by decide⟩

/-- Trap entry changes ECR; an ADD is none of the writers. -/
theorem witness_NmiContextAndCauseHaveNamedWriters :
    (exec (.add 3 1 (.reg 2) 4) base = .next addRun ∧
      (∀ ra n l, Instr.add 3 1 (.reg 2) 4 ≠ .ldsr ra n l) ∧ (∀ m l, Instr.add 3 1 (.reg 2) 4 ≠ .popmh m l) ∧
      (∀ m l, Instr.add 3 1 (.reg 2) 4 ≠ .popml m l) ∧ (∀ c l, Instr.add 3 1 (.reg 2) 4 ≠ .trap c l) ∧
      ¬ LoadsPsw (.add 3 1 (.reg 2) 4)) ∧
    (exec (.trap 31 4) (withRegs [(6, 99)] base) = .next (after (exec (.trap 31 4) (withRegs [(6, 99)] base)))) ∧
    (exec (.trap 30 4) base = .next (after (exec (.trap 30 4) base)) ∧ (∀ ra l, Instr.trap 30 4 ≠ .ldsr ra SysReg.ecr l) ∧
      (after (exec (.trap 30 4) base)).readSys SysReg.ecr ≠ base.readSys SysReg.ecr) := by
  refine ⟨⟨addRun_eq, ?_, ?_, ?_, ?_, by unfold LoadsPsw; decide⟩, next_after (by decide), next_after (by decide), ?_,
    by decide⟩ <;> intros <;> exact Instr.noConfusion

theorem witness_MemoryIsWrittenOnlyByStores :
    (exec (.add 3 1 (.reg 2) 4) base = .next addRun ∧ MayStore (.add 3 1 (.reg 2) 4) = false) ∧
    (exec (.sth 1 2 ⟨.sext, 16, 1⟩ 4) memStart = .next (after (exec (.sth 1 2 ⟨.sext, 16, 1⟩ 4) memStart)) ∧
      ¬ StoresTo memStart 0x1002 (.sth 1 2 ⟨.sext, 16, 1⟩ 4)) :=
  ⟨⟨addRun_eq, rfl⟩, next_after (by decide), by unfold StoresTo; decide⟩

theorem witness_OnlyControlFlowCanFault :
    (Instr.dispose 0 0 none 4).wf = true ∧ EvenAddr base.pc ∧ ControlFlow (.dispose 0 0 none 4) = false := by
  unfold EvenAddr; decide

/-- Odd targets: registers, saved pcs, displacements and a popped link register. -/
def oddState : State := (withSys [(0, 0x301), (16, 0x303), (20, 0x1001)] (withRegs [(1, 0x1005)] base))

theorem witness_OddTargetFaults :
    ¬ EvenAddr (oddState.pc + 3) ∧
    ¬ EvenAddr (oddState.readReg 1) ∧ ¬ EvenAddr (oddState.pc + immVal ⟨.sext, 22, 1⟩) ∧
    (condHolds 5 oddState.psw = true ∧ ¬ EvenAddr (oddState.pc + (0x1FF : BitVec 9).signExtend 32)) ∧
    ¬ EvenAddr (calltTarget 63 oddState) ∧ ¬ EvenAddr (oddState.readSys SysReg.ctpc) ∧
    ¬ EvenAddr (oddState.readSys (retiPair oddState).1) ∧
    ¬ EvenAddr ((popList (tableA 0) (oddState.readReg 3 + frameBytes 31) oddState).readReg 1) ∧
    exec (.add 3 1 (.reg 2) 4) base = .next addRun := by
  refine ⟨?_, ?_, ?_, ⟨?_, ?_⟩, ?_, ?_, ?_, ?_, addRun_eq⟩ <;> (try unfold EvenAddr) <;> decide

/-- The one hypothesis of the statements of instructions that end with `Next(cmd.len)`: the next address is even. It is
that of AddStoresTheSumAndItsFlags, SubtractAndCompareSetBorrowFlags, SaturatingOperationsClampAndSetSat,
LogicalOperationsClearOverflowAndKeepCarry, MovesAndExtensionsWriteNoFlag, MultiplyStoresTheExactProduct,
MulhMultipliesTheLowHalves, LoadsExtendTheAlignedUnit, StoresWriteTheAlignedUnitAlone, BitOperationsTestThenChangeOneBit,
SystemRegistersAreReadAndWrittenWhole, PrepareStoresTheListThenAllocates, PushesStoreTheirListBelowTheStackPointer and
PopsLoadTheirListFromTheStackPointer. -/
theorem witness_next_address_even :
    EvenAddr (base.pc + lenBytes 2) ∧ EvenAddr (base.pc + lenBytes 8) ∧ EvenAddr ((0xFFFFFFFE : Word) + lenBytes 2) := by
  unfold EvenAddr; decide

theorem witness_ShiftsCarryTheLastBitOut :
    EvenAddr ((start 1 33 0).pc + lenBytes 4) ∧ 1 = (opB (.reg 2) (start 1 33 0)).toNat % 32 ∧
    31 = (opB (.reg 2) (start 1 31 0)).toNat % 32 := by unfold EvenAddr; decide

theorem witness_ShiftByZeroKeepsTheValue :
    EvenAddr ((start 1 32 0).pc + lenBytes 4) ∧ (opB (.reg 2) (start 1 32 0)).toNat % 32 = 0 ∧
    (opB (.reg 2) (start 1 0 0)).toNat % 32 = 0 := by unfold EvenAddr; decide

theorem witness_OperandsAreAssembledByTheirFields :
    (1 ≤ (1 : BitVec 6).toNat ∧ (1 : BitVec 6).toNat ≤ 32) ∧ (1 ≤ (32 : BitVec 6).toNat ∧ (32 : BitVec 6).toNat ≤ 32) ∧
    (31 : Nat) < 32 := by decide

/-- For SignedDividesTruncateOrOverflow and UnsignedDividesTruncateOrOverflow, and, by its second and third clauses,
RestoringDivisionGivesTheExactResults: the widths 1 and 32. -/
theorem witness_DividesTruncateOrOverflow :
    EvenAddr (base.pc + lenBytes 4) ∧ (1 ≤ (1 : BitVec 6).toNat ∧ (1 : BitVec 6).toNat ≤ 32) ∧
    (1 ≤ (32 : BitVec 6).toNat ∧ (32 : BitVec 6).toNat ≤ 32) := by unfold EvenAddr; decide

/-- The divides that do not overflow, and those that do. -/
theorem witness_divide_overflow :
    divOverflow .signed 8 0xFFFFFF00 2 = false ∧ divOverflow .signed 8 0x100 2 = true ∧
    divOverflow .unsigned 1 1 1 = false ∧ divOverflow .unsigned 32 1 0 = true := by decide

theorem witness_PortIsLittleEndianAndReadsTheLastWrite : (4 = 1 ∨ 4 = 2 ∨ 4 = 4) ∧ 4 ≤ ((3 : Word) - 0xFFFFFFFF).toNat ∧ 3 < 4 := by
  decide

theorem witness_ConditionalBranchTakesItsDisplacement :
    (condHolds 2 (start 0 0 1).psw = true ∧ EvenAddr ((start 0 0 1).pc + (0x1F8 : BitVec 9).signExtend 32)) ∧
    (condHolds 2 (start 0 0 1).psw = true ∧ ¬ EvenAddr ((start 0 0 1).pc + (3 : BitVec 9).signExtend 32)) ∧
    (condHolds 2 (start 0 0 0).psw = false ∧ EvenAddr (start 0 0 0).pc) := by unfold EvenAddr; decide

theorem witness_ConditionCodesTestTheirFlags : (0 : BitVec 4) ≠ 5 ∧ (0 : BitVec 4) ≠ 13 ∧ (15 : BitVec 4) ≠ 5 ∧ (15 : BitVec 4) ≠ 13 := by
  decide

theorem witness_ConditionsAfterCompareOrderTheOperands :
    exec (.cmp 1 (.reg 2) 4) (start 2 3 0) = .next (after (exec (.cmp 1 (.reg 2) 4) (start 2 3 0))) ∧
    exec (.sub 3 1 (.reg 2) 4) (start 2 3 0) = .next (after (exec (.sub 3 1 (.reg 2) 4) (start 2 3 0))) :=
  ⟨next_after (by decide), next_after (by decide)⟩

theorem witness_JumpsSetPcAndLinkTheReturnAddress :
    EvenAddr (base.pc + immVal ⟨.sext, 22, 0x3FFFFC⟩) ∧ EvenAddr ((withRegs [(1, 0x500)] base).readReg 1) ∧
    ¬ EvenAddr (oddState.readReg 1) := by
  unfold EvenAddr; decide

theorem witness_FastCallSavesAndReturnRestoresItsPair :
    EvenAddr (calltTarget 63 (withSys [(20, 0x1000)] base)) ∧ EvenAddr ((withSys [(16, 0x302)] base).readSys SysReg.ctpc) ∧
    ¬ EvenAddr (calltTarget 63 oddState) ∧ ¬ EvenAddr (oddState.readSys SysReg.ctpc) := by
  unfold EvenAddr; decide

theorem witness_TrapEntrySavesContextAndVectors :
    (0 : BitVec 5).toNat ≤ 30 ∧ (15 : BitVec 5).toNat ≤ 30 ∧ (16 : BitVec 5).toNat ≤ 30 ∧ (30 : BitVec 5).toNat ≤ 30 := by decide

theorem witness_RetiReturnsThroughThePairEpAndNpChoose :
    (((base.writePsw 0x80).psw.getLsbD 6 = false ∧ (base.writePsw 0x80).psw.getLsbD 7 = true) ∧
      EvenAddr ((base.writePsw 0x80).readSys SysReg.fepc)) ∧
    (¬ ((base.writePsw 0xC0).psw.getLsbD 6 = false ∧ (base.writePsw 0xC0).psw.getLsbD 7 = true) ∧
      EvenAddr ((base.writePsw 0xC0).readSys SysReg.eipc)) ∧
    ¬ EvenAddr ((withSys [(2, 0x601)] (base.writePsw 0x80)).readSys SysReg.fepc) ∧ ¬ EvenAddr (oddState.readSys SysReg.eipc) := by
  unfold EvenAddr; decide

theorem witness_RetiUndoesTrapEntry :
    (5 : BitVec 5).toNat ≤ 30 ∧ exec (.trap 5 4) base = .next (after (exec (.trap 5 4) base)) ∧
    (after (exec (.trap 5 4) base)).psw.getLsbD 6 = true ∧
    exec (.reti 4) (after (exec (.trap 5 4) base)) = .next (after (exec (.reti 4) (after (exec (.trap 5 4) base)))) :=
  ⟨by decide, next_after (by decide), by decide, next_after (by decide)⟩

theorem witness_HostExitEndsTheRun : (withRegs [(6, 15)] base).readReg 6 = (withRegs [(6, 15)] base).params.selectors.exit := by
  decide

theorem witness_UnknownSelectorAborts : ¬ IsSelector (withRegs [(6, 99)] base).params.selectors ((withRegs [(6, 99)] base).readReg 6) := by
  unfold IsSelector; decide

/-- A state that calls the function of a selector number. -/
def calls (n : Word) : State := withRegs [(6, n), (7, 0x3000), (8, 0x3000), (9, 5)] base

theorem witness_ServedHostCallWritesOnlyItsAnswers :
    (IsSelector (calls 1).params.selectors ((calls 1).readReg 6) ∧ (calls 1).readReg 6 ≠ (calls 1).params.selectors.exit ∧
      EvenAddr ((calls 1).pc + 4) ∧ hostFn (calls 1).params.selectors ((calls 1).readReg 6) = some .read) ∧
    (IsSelector (calls 2).params.selectors ((calls 2).readReg 6) ∧ (calls 2).readReg 6 ≠ (calls 2).params.selectors.exit ∧
      hostFn (calls 2).params.selectors ((calls 2).readReg 6) = some .write) ∧
    (IsSelector (calls 9).params.selectors ((calls 9).readReg 6) ∧ (calls 9).readReg 6 ≠ (calls 9).params.selectors.exit ∧
      hostFn (calls 9).params.selectors ((calls 9).readReg 6) = some .time) := by
  unfold IsSelector EvenAddr; decide

theorem witness_TablesHoldTheirSlotsInOrder :
    contextPair base = (SysReg.eipc, SysReg.eipsw) ∧ contextPair (base.writePsw 0x80) = (SysReg.fepc, SysReg.fepsw) := by decide

theorem witness_ContextPairFollowsNpAndEp :
    ((base.writePsw 0x80).psw.getLsbD 7 = true ∧ (base.writePsw 0x80).psw.getLsbD 6 = false) ∧
    ¬ ((base.writePsw 0xC0).psw.getLsbD 7 = true ∧ (base.writePsw 0xC0).psw.getLsbD 6 = false) := by decide

theorem witness_DisposeReleasesRestoresAndMayJump :
    EvenAddr (base.pc + lenBytes 4) ∧
    EvenAddr ((popList (tableA 1) (base.readReg 3 + frameBytes 31) base).readReg 31) ∧
    ¬ EvenAddr ((popList (tableA 0) (oddState.readReg 3 + frameBytes 31) oddState).readReg 1) := by unfold EvenAddr; decide

/-- A push of `i` at `s`, then a pop `j` at once. -/
def pushPop (i j : Instr) (s : State) : State := after (exec j (after (exec i s)))

theorem witness_PopUndoesPush :
    (0x803 : BitVec 18).getLsbD 10 = false ∧
    contextPair (after (exec (.pushmh 0x30001 4) base)) = contextPair base ∧
    exec (.pushmh 0x30001 4) base = .next (after (exec (.pushmh 0x30001 4) base)) ∧
    exec (.popmh 0x30001 4) (after (exec (.pushmh 0x30001 4) base)) = .next (pushPop (.pushmh 0x30001 4) (.popmh 0x30001 4) base) ∧
    exec (.pushml 0x18005 4) base = .next (after (exec (.pushml 0x18005 4) base)) ∧
    exec (.popml 0x18005 4) (after (exec (.pushml 0x18005 4) base)) = .next (pushPop (.pushml 0x18005 4) (.popml 0x18005 4) base) ∧
    exec (.prepare 0x803 2 .sp 4) base = .next (after (exec (.prepare 0x803 2 .sp 4) base)) ∧
    exec (.dispose 0x803 2 none 4) (after (exec (.prepare 0x803 2 .sp 4) base)) =
      .next (pushPop (.prepare 0x803 2 .sp 4) (.dispose 0x803 2 none 4) base) :=
  ⟨by decide, by decide, next_after (by decide), next_after (by decide), next_after (by decide), next_after (by decide),
    next_after (by decide), next_after (by decide)⟩

end Sys2Proof.Tests
end

section
/-! What every instruction that completes does, said once: it writes a state that differs from the first one only where
`Frame` allows, then ends in one of the five ways of `Ends`. The statements about the state (10_state.md) follow from it. -/

namespace Sys2Proof.Proofs

open Sys2Proof.Machine Sys2Proof.Claims

/-! ## How a command ends (30_encoding.md R96, R97) -/

/-- The next state `t` is `u` with an outcome other than a fault reported. -/
inductive Ends (u : State) : State → Prop
  | next (d : Word) (heven : EvenAddr (u.pc + d)) : Ends u ((u.setPc (u.pc + d)).setOutcome (.next d))
  | jump (a : Word) (heven : EvenAddr a) : Ends u ((u.setPc a).setOutcome .jump)
  | brk : Ends u (u.setOutcome .brk)
  | exit (e : ExitStatus) : Ends u ((u.setStatus (.exited e)).setOutcome (.exit e))
  | abort : Ends u ((u.setStatus .aborted).setOutcome .abort)

theorem Ends.of_advance {d : Word} {u t : State} (h : advance d u = .next t) : Ends u t := by
  obtain ⟨heven, rfl⟩ := advance_next h
  exact .next d heven

theorem Ends.of_advanceLen {len : Len} {u t : State} (h : advanceLen len u = .next t) : Ends u t := .of_advance h

theorem Ends.of_jumpTo {a : Word} {u t : State} (h : jumpTo a u = .next t) : Ends u t := by
  obtain ⟨heven, rfl⟩ := jumpTo_next h
  exact .jump a heven

theorem Ends.of_breakRun {u t : State} (h : breakRun u = .next t) : Ends u t := by
  cases h
  exact .brk

theorem Ends.of_exitRun {e : ExitStatus} {u t : State} (h : exitRun e u = .next t) : Ends u t := by
  cases h
  exact .exit e

theorem Ends.of_abortRun {u t : State} (h : abortRun u = .next t) : Ends u t := by
  cases h
  exact .abort

section Ended

variable {u t : State} (h : Ends u t)
include h

theorem Ends.regs : t.regs = u.regs := by cases h <;> rfl
theorem Ends.sregs : t.sregs = u.sregs := by cases h <;> rfl
theorem Ends.mem : t.mem = u.mem := by cases h <;> rfl
theorem Ends.program : t.program = u.program := by cases h <;> rfl

theorem Ends.readReg (q : Reg) : t.readReg q = u.readReg q := by rw [readReg_eq, readReg_eq, h.regs]

theorem Ends.readSys (k : SysReg) : t.readSys k = u.readSys k := congrArg (Vector.get · k) h.sregs

theorem Ends.psw : t.psw = u.psw := h.readSys SysReg.psw

/-- An ending leaves `pc` where it was or at an even address (10_state.md R24). -/
theorem Ends.pc : t.pc = u.pc ∨ EvenAddr t.pc := by
  cases h with
  | next d heven => exact .inr heven
  | jump a heven => exact .inr heven
  | brk => exact .inl rfl
  | exit e => exact .inl rfl
  | abort => exact .inl rfl

/-- The status an ending leaves in a running block is told by its outcome (10_state.md R32). -/
theorem Ends.status (hrun : u.status = .running) :
    (∀ e, t.status = .exited e ↔ t.lastOutcome = some (.exit e)) ∧
    (t.status = .aborted ↔ t.lastOutcome = some .abort) := by
  cases h <;> simp [hrun]

end Ended

/-! ## What a command leaves alone before it ends -/

/-- From `s` to `u` a command wrote no general register outside `rs`, no system register outside `ns` and no PSW bit outside
`bits`; `pc`, the status and the parameters are as before, memory was written through the port alone, and the fetcher's
program lost commands at most. -/
structure Frame (s u : State) (rs : List Reg) (ns : List SysReg) (bits : List Nat) : Prop
    extends KeptByStore s u rs ns bits where
  pc      : u.pc = s.pc
  memWf   : s.mem.wf = true → u.mem.wf = true
  program : u.program.Sublist s.program

section Frames

variable {s u : State} {rs : List Reg} {ns : List SysReg} {bits : List Nat}

theorem Frame.refl (s : State) (rs : List Reg) (ns : List SysReg) (bits : List Nat) : Frame s s rs ns bits where
  regs _ _ := rfl
  sys _ _ _ := rfl
  psw _ _ := rfl
  status := rfl
  params := rfl
  pc := rfl
  memWf h := h
  program := List.Sublist.refl _

theorem Frame.writeReg (hf : Frame s u rs ns bits) {r : Reg} (v : Word) (hr : r ∈ rs) :
    Frame s (u.writeReg r v) rs ns bits :=
  { hf with
    regs := fun q hq => by
      rw [readReg_writeReg, if_neg fun h : r = q => hq (h ▸ hr), hf.regs q hq] }

theorem Frame.writeRegOpt (hf : Frame s u rs ns bits) {r : Option Reg} (v : Word) (hr : ∀ q ∈ r, q ∈ rs) :
    Frame s (u.writeRegOpt r v) rs ns bits := by
  cases r with
  | none => exact hf
  | some q => exact hf.writeReg v (hr q rfl)

/-- A write of an entry the command names, or of the whole PSW where all its bits may be written. -/
theorem Frame.writeSys (hf : Frame s u rs ns bits) {n : SysReg} (v : Word) (hn : n ≠ SysReg.psw → n ∈ ns)
    (hpsw : n = SysReg.psw → ∀ k < 32, k ∈ bits) : Frame s (u.writeSys n v) rs ns bits :=
  { hf with
    sys := fun k hk hne => by
      have hnk : n ≠ k := fun h => hk (h ▸ hn (h ▸ hne))
      rw [readSys_writeSys, if_neg hnk, hf.sys k hk hne]
    psw := fun i hi => by
      rw [psw_writeSys]
      split
      · next h =>
        have hge : 32 ≤ i := Nat.le_of_not_lt fun hlt => hi (hpsw h i hlt)
        rw [BitVec.getLsbD_of_ge _ _ hge, BitVec.getLsbD_of_ge _ _ hge]
      · exact hf.psw i hi }

theorem Frame.writeEntry (hf : Frame s u rs ns bits) (n : SysReg) (v : Word) (hn : n ∈ ns) (hne : n ≠ SysReg.psw) :
    Frame s (u.writeSys n v) rs ns bits :=
  hf.writeSys v (fun _ => hn) fun h => absurd h hne

theorem Frame.writePsw (hf : Frame s u rs ns bits) (v : Word) (hpsw : ∀ k < 32, k ∈ bits) :
    Frame s (u.writePsw v) rs ns bits :=
  hf.writeSys v (fun h => absurd rfl h) fun _ => hpsw

theorem Frame.setFlag (hf : Frame s u rs ns bits) (f : Flag) (b : Bool) (hbit : flagBit f ∈ bits) :
    Frame s (u.setFlag f b) rs ns bits :=
  { hf with
    sys := fun k hk hne => by rw [readSys_setFlag, if_neg (Ne.symm hne), hf.sys k hk hne]
    psw := fun i hi => by
      rw [getLsbD_psw_setFlag, if_neg fun h : i = flagBit f => hi (h ▸ hbit), hf.psw i hi] }

theorem Frame.memWrite (hf : Frame s u rs ns bits) (a : Word) (n : Nat) (v : Word) :
    Frame s (u.memWrite a n v) rs ns bits :=
  { hf with
    memWf := fun h => wf_write _ _ _ _ (hf.memWf h)
    program := (programAfterStore_sublist u a n).trans hf.program }

theorem Frame.bumpDraws (hf : Frame s u rs ns bits) : Frame s u.bumpDraws rs ns bits := { hf with }

/-! ### The shared operations -/

theorem Frame.setZS (hf : Frame s u rs ns bits) (r : Word) (hbits : [0, 1] ⊆ bits) : Frame s (setZS r u) rs ns bits :=
  (hf.setFlag .z _ (hbits (by decide))).setFlag .s _ (hbits (by decide))

theorem Frame.setArith (hf : Frame s u rs ns bits) (r : Word) (cy ov : Bool) (hbits : [0, 1, 2, 3] ⊆ bits) :
    Frame s (setArith r cy ov u) rs ns bits :=
  ((hf.setZS r (List.Subset.trans (by decide) hbits)).setFlag .cy cy (hbits (by decide))).setFlag .ov ov
    (hbits (by decide))

theorem Frame.setSat (hf : Frame s u rs ns bits) (ov : Bool) (hbits : 4 ∈ bits) : Frame s (setSat ov u) rs ns bits := by
  cases ov with
  | false => exact hf
  | true => exact hf.setFlag .sat true hbits

theorem Frame.setLogic (hf : Frame s u rs ns bits) (r : Word) (hbits : [0, 1, 2] ⊆ bits) :
    Frame s (setLogic r u) rs ns bits :=
  (hf.setZS r (List.Subset.trans (by decide) hbits)).setFlag .ov _ (hbits (by decide))

theorem Frame.setShift (hf : Frame s u rs ns bits) (r : Word) (cy : Bool) (hbits : [0, 1, 2, 3] ⊆ bits) :
    Frame s (setShift r cy u) rs ns bits :=
  (hf.setFlag .cy cy (hbits (by decide))).setLogic r (List.Subset.trans (by decide) hbits)

theorem Frame.countDraw (hf : Frame s u rs ns bits) (d : Bool) : Frame s (countDraw d u) rs ns bits := by
  cases d with
  | false => exact hf
  | true => exact hf.bumpDraws

theorem Frame.divideState (hf : Frame s u rs ns bits) (ov : Bool) (q r : Word) {rd : Reg} {rem : Option Reg}
    (hrs : rd :: rem.toList ⊆ rs) (hbits : [0, 1, 2] ⊆ bits) : Frame s (divideState ov q r rd rem u) rs ns bits := by
  have hregs : Frame s ((u.writeReg rd q).writeRegOpt rem r) rs ns bits :=
    (hf.writeReg q (hrs (by simp))).writeRegOpt r fun p hp =>
      hrs (List.mem_cons_of_mem _ (Option.mem_toList.2 hp))
  have hflags := (hregs.setZS q (List.Subset.trans (by decide) hbits)).setFlag .ov ov (hbits (by decide))
  exact hflags.countDraw ov

/-- Trap entry writes the saved context and the cause, and sets EP and ID (60_exceptions.md R402). -/
theorem Frame.trapEntry (code : BitVec 5) (s : State) :
    Frame s (trapEntry code s) [] [SysReg.eipc, SysReg.eipsw, SysReg.ecr] [5, 6] :=
  have hcontext := ((Frame.refl s _ _ _).writeEntry SysReg.eipc (s.pc + 4) (by simp) (by decide)).writeEntry SysReg.eipsw
    s.psw (by simp) (by decide)
  have hcause := hcontext.writeEntry SysReg.ecr (trapCause (s.readSys SysReg.ecr) code) (by simp) (by decide)
  (hcause.setFlag .ep true (by decide)).setFlag .id true (by decide)

theorem Frame.hostWritten (f : HostFn) (s : State) (rs : List Reg) (ns : List SysReg) (bits : List Nat) :
    Frame s (hostWritten f s) rs ns bits :=
  { Frame.refl s rs ns bits with
    memWf := wf_writeAll _ _
    program := writeAll_program_sublist _ _ }

/-! ### The list transfers (44_transfer.md R250 to R254) -/

theorem Frame.pushSlots (xs : List Slot) (c : Word) (hf : Frame s u rs ns bits) :
    Frame s (pushSlots xs c u).2 rs ns bits := by
  induction xs generalizing c u with
  | nil => exact hf
  | cons x xs ih => exact ih _ (hf.memWrite _ _ _)

theorem Frame.pushList (hf : Frame s u rs ns bits) (xs : List Slot) (hsp : Reg.sp ∈ rs) :
    Frame s (pushList xs u) rs ns bits :=
  (hf.pushSlots _ _).writeReg _ hsp

/-- A load may write the slot: a general register of `rs`, a system register of `ns`, or PSW with all its bits. -/
def SlotIn (rs : List Reg) (ns : List SysReg) (bits : List Nat) : Slot → Prop
  | .reg r => r ∈ rs
  | .sys n => (n ≠ SysReg.psw → n ∈ ns) ∧ (n = SysReg.psw → ∀ k < 32, k ∈ bits)

theorem Frame.loadSlot (hf : Frame s u rs ns bits) {x : Slot} (v : Word) (hx : SlotIn rs ns bits x) :
    Frame s (loadSlot x v u) rs ns bits := by
  cases x with
  | reg r =>
    by_cases hr : r = Reg.sp
    · rw [hr, loadSlot_sp]
      exact hf
    · rw [Machine.loadSlot, if_neg hr]
      exact hf.writeReg v hx
  | sys n => exact hf.writeSys v hx.1 hx.2

theorem Frame.popSlots (xs : List Slot) (c : Word) (hf : Frame s u rs ns bits) (hxs : ∀ x ∈ xs, SlotIn rs ns bits x) :
    Frame s (popSlots xs c u).2 rs ns bits := by
  induction xs generalizing c u with
  | nil => exact hf
  | cons x xs ih =>
    rw [List.forall_mem_cons] at hxs
    exact ih _ (hf.loadSlot _ hxs.1) hxs.2

theorem Frame.popList (hf : Frame s u rs ns bits) {xs : List Slot} (c : Word) (hsp : Reg.sp ∈ rs)
    (hxs : ∀ x ∈ xs, SlotIn rs ns bits x) : Frame s (popList xs c u) rs ns bits :=
  (hf.popSlots _ _ hxs).writeReg _ hsp

end Frames

/-! ### The slots of the three tables are registers the pops name -/

/-- A register list loads the registers that `regWrites` lists for it. -/
theorem slotIn_regSlots {ns : List SysReg} {bits : List Nat} {m : BitVec 18} {count base : Nat} {x : Slot}
    (hx : x ∈ regSlots m count base) :
    SlotIn (3 :: (List.range count).filterMap fun k => if m.getLsbD k then some (Fin.ofNat 32 (base + k)) else none)
      ns bits x := by
  obtain ⟨i, hi, hm, rfl⟩ := (mem_regSlots m count base x).1 hx
  exact List.mem_cons_of_mem _ (List.mem_filterMap.2 ⟨i, List.mem_range.2 hi, by simp [hm]⟩)

theorem mem_slotsIf {m : BitVec 18} {i : Nat} {xs : List Slot} {x : Slot} :
    x ∈ slotsIf m i xs ↔ m.getLsbD i = true ∧ x ∈ xs := by
  by_cases h : m.getLsbD i = true <;> simp only [slotsIf, h, if_true, if_false, Bool.false_eq_true, true_and, false_and,
    List.not_mem_nil]

/-- The entries POPMH may write are those of the pair that PSW chooses (44_transfer.md R253). -/
theorem sysWrites_popmh (s : State) (m : BitVec 18) (len : Len) :
    sysWrites s (.popmh m len) =
      (if m.getLsbD 16 then [(contextPair s).2] else []) ++ (if m.getLsbD 17 then [(contextPair s).1] else []) := by
  simp only [sysWrites, contextPair, State.flag, flagBit]
  by_cases hnmi : (s.psw.getLsbD 7 && !s.psw.getLsbD 6) = true <;>
    simp only [hnmi, if_true, if_false, Bool.false_eq_true]

/-- As `sysWrites_popmh`, for POPML. -/
theorem sysWrites_popml (s : State) (m : BitVec 18) (len : Len) :
    sysWrites s (.popml m len) = if m.getLsbD 16 then [(contextPair s).1, (contextPair s).2] else [] := by
  simp only [sysWrites, contextPair, State.flag, flagBit]
  by_cases hnmi : (s.psw.getLsbD 7 && !s.psw.getLsbD 6) = true <;>
    simp only [hnmi, if_true, if_false, Bool.false_eq_true]

/-- The entries of the pair are not PSW. -/
theorem contextPair_ne_psw (s : State) : (contextPair s).1 ≠ SysReg.psw ∧ (contextPair s).2 ≠ SysReg.psw := by
  unfold contextPair
  split <;> decide

theorem slotIn_tableB (s : State) (m : BitVec 18) (len : Len) (bits : List Nat) :
    ∀ x ∈ tableB m (contextPair s), SlotIn (regWrites (.popmh m len)) (sysWrites s (.popmh m len)) bits x := by
  intro x hx
  obtain ⟨hpc, hpsw⟩ := contextPair_ne_psw s
  rw [tableB, List.mem_append, List.mem_append, mem_slotsIf, mem_slotsIf] at hx
  obtain (hx | ⟨hm, hx⟩) | ⟨hm, hx⟩ := hx
  · exact slotIn_regSlots hx
  · obtain rfl := List.mem_singleton.1 hx
    exact ⟨fun _ => by simp [sysWrites_popmh, hm], fun h => absurd h hpsw⟩
  · obtain rfl := List.mem_singleton.1 hx
    exact ⟨fun _ => by simp [sysWrites_popmh, hm], fun h => absurd h hpc⟩

/-- The PSW bits an instruction may write, all of them where it may replace the whole PSW. -/
def pswBits (i : Instr) : List Nat := (pswWrites i).getD (List.range 32)

theorem slotIn_tableC (s : State) (m : BitVec 18) (len : Len) :
    ∀ x ∈ tableC m (contextPair s),
      SlotIn (regWrites (.popml m len)) (sysWrites s (.popml m len)) (pswBits (.popml m len)) x := by
  intro x hx
  obtain ⟨hpc, hpsw⟩ := contextPair_ne_psw s
  rw [tableC, List.mem_append, List.mem_append, mem_slotsIf, mem_slotsIf] at hx
  obtain (hx | ⟨hm, hx⟩) | ⟨hm, hx⟩ := hx
  · exact slotIn_regSlots hx
  · obtain rfl := List.mem_singleton.1 hx
    exact ⟨fun h => absurd rfl h, fun _ k hk => by simpa [pswBits, pswWrites, hm] using hk⟩
  · obtain rfl | hx := List.mem_cons.1 hx
    · exact ⟨fun _ => by simp [sysWrites_popml, hm], fun h => absurd h hpsw⟩
    · obtain rfl := List.mem_singleton.1 hx
      exact ⟨fun _ => by simp [sysWrites_popml, hm], fun h => absurd h hpc⟩

/-! ## Every instruction -/

/-- The instruction writes a state within the spec's write-sets for it, and ends from there. -/
def Completes (i : Instr) (s t : State) : Prop :=
  ∃ u, Ends u t ∧ Frame s u (regWrites i) (sysWrites s i) (pswBits i)

/-- TRAP: a software trap writes the saved context, the cause, and ID and EP (60_exceptions.md R402); the gate exits, aborts,
or serves a call, which writes memory, x[10] and x[11] (45_system.md R281 to R284). -/
theorem completes_trap {code : BitVec 5} {len : Len} {s t : State} (h : exec (.trap code len) s = .next t) :
    Completes (.trap code len) s t := by
  by_cases hc : code.toNat ≤ 30
  · have hraise : raiseTrap code s = .next t := by
      rw [← h]
      simp [exec, execTrap, trapOrCall, hc]
    refine ⟨_, .of_jumpTo hraise, ?_⟩
    simp only [regWrites, sysWrites, pswBits, pswWrites, hc, if_true, Option.getD_some]
    exact Frame.trapEntry code s
  · have hcall : hostCall s = .next t := by
      rw [← h]
      simp [exec, execTrap, trapOrCall, hc]
    obtain ⟨-, he⟩ | ⟨-, ⟨f, -, he⟩ | ⟨-, he⟩⟩ := hostCall_cases s <;> rw [he] at hcall
    · exact ⟨s, .of_exitRun hcall, Frame.refl ..⟩
    · refine ⟨_, .of_advance hcall, ?_⟩
      exact (((Frame.hostWritten f s _ _ _).writeReg _ (by simp [regWrites, hc])).writeReg _
        (by simp [regWrites, hc])).bumpDraws
    · exact ⟨s, .of_abortRun hcall, Frame.refl ..⟩

/-- PREPARE writes x[3], and x[30] where an option asks for it (44_transfer.md R255). -/
theorem Frame.writeEp {s u : State} {mask : BitVec 18} {frame : BitVec 5} {e : EpOption} {len : Len} {ns : List SysReg}
    {bits : List Nat} (hf : Frame s u (regWrites (.prepare mask frame e len)) ns bits) :
    Frame s (writeEp e u) (regWrites (.prepare mask frame e len)) ns bits := by
  cases e with
  | none | reserved k => exact hf
  | sp | simm16 v | himm16 v | imm32 v => exact hf.writeReg _ (by simp [regWrites])

/-- A bit operation writes Z, and memory but for TST1 (47_loadstore_bit.md R329). -/
theorem completes_bitOp {kind : BitKind} {ra : Reg} {bit : Fin 8} {d : Imm} {len : Len} {s t : State}
    (h : bitOp kind ra bit d len s = .next t) {rs : List Reg} {ns : List SysReg} :
    ∃ u, Ends u t ∧ Frame s u rs ns [0] := by
  rw [bitOp_eq] at h
  refine ⟨_, .of_advanceLen h, ?_⟩
  have hz (b : Bool) : Frame s (s.setFlag .z b) rs ns [0] := (Frame.refl ..).setFlag .z b (by decide)
  split
  · exact (hz _).memWrite _ _ _
  · exact hz _

/-- All that an instruction can do when it answers a next state. -/
theorem exec_completes {i : Instr} {s t : State} (h : exec i s = .next t) : Completes i s t := by
  have hs : ∀ rs ns bits, Frame s s rs ns bits := Frame.refl s
  cases i with
  | add rd ra b len | sub rd ra b len =>
    exact ⟨_, .of_advanceLen h, ((hs _ _ _).writeReg _ (by simp [regWrites])).setArith _ _ _ (List.Subset.refl _)⟩
  | cmp ra b len => exact ⟨_, .of_advanceLen h, (hs _ _ _).setArith _ _ _ (List.Subset.refl _)⟩
  | satadd rd ra b len | satsub rd ra b len =>
    exact ⟨_, .of_advanceLen h, (((hs _ _ _).writeReg _ (by simp [regWrites])).setArith _ _ _
      (by simp [pswBits, pswWrites])).setSat _ (by simp [pswBits, pswWrites])⟩
  | and rd ra b len | or rd ra b len | xor rd ra b len | not rd b len =>
    exact ⟨_, .of_advanceLen h, ((hs _ _ _).writeReg _ (by simp [regWrites])).setLogic _ (List.Subset.refl _)⟩
  | tst ra b len => exact ⟨_, .of_advanceLen h, (hs _ _ _).setLogic _ (List.Subset.refl _)⟩
  | shl rd ra b len | shr rd ra b len | sar rd ra b len =>
    exact ⟨_, .of_advanceLen h,
      (((hs _ _ _).writeReg _ (by simp [regWrites])).setShift _ _ (List.Subset.refl _)).countDraw _⟩
  | addnf rd ra b len | mov rd b len | sxb rd b len | sxh rd b len | zxb rd b len | zxh rd b len | mulh rd ra b len
  | ldb rd ra d len | ldbu rd ra d len | ldh rd ra d len | ldhu rd ra d len | ldw rd ra d len | stsr rd n len =>
    exact ⟨_, .of_advanceLen h, (hs _ _ _).writeReg _ (by simp [regWrites])⟩
  | mul rd rd2 ra b len | mulu rd rd2 ra b len =>
    exact ⟨_, .of_advanceLen h,
      ((hs _ _ _).writeReg _ (by simp [regWrites])).writeReg _ (by simp [regWrites])⟩
  | div rd rem ra b len | divu rd rem ra b len | divn rd rem ra b n len | divun rd rem ra b n len
  | divh rd rem ra b len | divhu rd rem ra b len =>
    exact ⟨_, .of_advanceLen h, (hs _ _ _).divideState _ _ _ (List.Subset.refl _) (List.Subset.refl _)⟩
  | stb ra rb d len | sth ra rb d len | stw ra rb d len =>
    exact ⟨_, .of_advanceLen h, (hs _ _ _).memWrite _ _ _⟩
  | set1 ra bit d len => exact completes_bitOp (kind := .set) h
  | clr1 ra bit d len => exact completes_bitOp (kind := .clr) h
  | not1 ra bit d len => exact completes_bitOp (kind := .not) h
  | tst1 ra bit d len => exact completes_bitOp (kind := .tst) h
  | bcond c d len =>
    simp only [exec, execBcond] at h
    split at h <;> exact ⟨s, .of_advance h, hs _ _ _⟩
  | jarl link d len =>
    exact ⟨_, .of_jumpTo h, (hs _ _ _).writeRegOpt _ fun q hq => by simpa [regWrites] using hq⟩
  | jmp ra len => exact ⟨s, .of_jumpTo h, hs _ _ _⟩
  | callt index len =>
    exact ⟨_, .of_jumpTo h, ((hs _ _ _).writeEntry SysReg.ctpc _ (by simp [sysWrites]) (by decide)).writeEntry
      SysReg.ctpsw _ (by simp [sysWrites]) (by decide)⟩
  | ctret len | reti len =>
    exact ⟨_, .of_jumpTo h, (hs _ _ _).writePsw _ fun k hk => List.mem_range.2 hk⟩
  | trap code len => exact completes_trap h
  | ldsr ra n len =>
    refine ⟨_, .of_advanceLen h, (hs _ _ _).writeSys _ (by simp [sysWrites]) ?_⟩
    rintro rfl k hk
    exact List.mem_range.2 hk
  | brkpt => exact ⟨s, .of_breakRun h, hs _ _ _⟩
  | prepare mask frame e len =>
    have hsp : Reg.sp ∈ regWrites (.prepare mask frame e len) := by simp only [regWrites]; split <;> simp
    exact ⟨_, .of_advanceLen h, (((hs _ _ _).pushList _ hsp).writeReg _ hsp).writeEp⟩
  | dispose mask frame jmp len =>
    have hpop := (hs (regWrites (.dispose mask frame jmp len)) [] []).popList (xs := tableA mask)
      (s.readReg Reg.sp + frameBytes frame) (by simp [regWrites]) fun x hx => slotIn_regSlots hx
    cases jmp with
    | some ra => exact ⟨_, .of_jumpTo h, hpop⟩
    | none => exact ⟨_, .of_advanceLen h, hpop⟩
  | pushmh mask len | pushml mask len => exact ⟨_, .of_advanceLen h, (hs _ _ _).pushList _ (by simp [regWrites])⟩
  | popmh mask len =>
    exact ⟨_, .of_advanceLen h, (hs _ _ _).popList _ (by simp [regWrites]) (slotIn_tableB s mask len _)⟩
  | popml mask len =>
    exact ⟨_, .of_advanceLen h, (hs _ _ _).popList _ (by simp [regWrites]) (slotIn_tableC s mask len)⟩

/-! ## The statements about the state -/

/-- Settles O9: an ending leaves an even `pc` or the old one, and what is written before it keeps the memory's canonical form
and takes commands out of the program at most. -/
theorem everyStepKeepsTheInvariant : Obligations.EveryStepKeepsTheInvariant := by
  unfold Obligations.EveryStepKeepsTheInvariant
  rintro s t ⟨hpc, hmem, hprog⟩ h
  obtain ⟨-, c, i, -, -, -, hexec⟩ := step_next h
  obtain ⟨u, hend, hframe⟩ := exec_completes hexec
  refine ⟨?_, ?_, ?_⟩
  · obtain hsame | heven := hend.pc
    · rw [hsame, hframe.pc, hpc]
    · exact heven
  · rw [hend.mem]
    exact hframe.memWf hmem
  · rw [hend.program, keysRise_iff_pairwise]
    exact ((keysRise_iff_pairwise _).1 hprog).sublist hframe.program

/-- Settles O8: the step refuses by the status, and where it completes the block was running until the command ended. -/
theorem runStatusFollowsTheOutcome : Obligations.RunStatusFollowsTheOutcome := by
  unfold Obligations.RunStatusFollowsTheOutcome
  refine ⟨rfl, fun s hs => ?_, fun s t h => ?_⟩
  · cases hst : s.status with
    | running => exact absurd hst hs
    | exited e => simp only [step, hst]
    | aborted => simp only [step, hst]
  · obtain ⟨hrun, c, i, -, -, -, hexec⟩ := step_next h
    obtain ⟨u, hend, hframe⟩ := exec_completes hexec
    exact hend.status (hframe.status.trans hrun)

/-- Settles O13, by the frame of what is written before the ending. -/
theorem flagsOutsideTheWriteSetAreKept : Obligations.FlagsOutsideTheWriteSetAreKept := by
  unfold Obligations.FlagsOutsideTheWriteSetAreKept
  intro i s t bits h hbits k hk
  obtain ⟨u, hend, hframe⟩ := exec_completes h
  rw [hend.psw]
  exact hframe.psw k (by rwa [pswBits, hbits])

/-- Settles O15, by the frame of what is written before the ending. -/
theorem generalRegistersNotNamedAreKept : Obligations.GeneralRegistersNotNamedAreKept := by
  unfold Obligations.GeneralRegistersNotNamedAreKept
  intro i s t h q hq
  obtain ⟨u, hend, hframe⟩ := exec_completes h
  rw [hend.readReg, hframe.regs q hq]

/-- Settles O16, by the frame of what is written before the ending. -/
theorem systemRegistersNotNamedAreKept : Obligations.SystemRegistersNotNamedAreKept := by
  unfold Obligations.SystemRegistersNotNamedAreKept
  intro i s t h k hk hne
  obtain ⟨u, hend, hframe⟩ := exec_completes h
  rw [hend.readSys, hframe.sys k hk hne]

theorem getLsbD_of_not_evenAddr {a : Word} (h : ¬ EvenAddr a) : a.getLsbD 0 = true := by
  simpa [EvenAddr] using h

theorem jumpTo_fault {a : Word} (s : State) (h : ¬ EvenAddr a) : jumpTo a s = .fault .oddTarget :=
  jumpTo_of_odd a s (getLsbD_of_not_evenAddr h)

theorem advance_fault (d : Word) (s : State) (h : ¬ EvenAddr (s.pc + d)) : advance d s = .fault .oddTarget :=
  advance_of_odd d s (getLsbD_of_not_evenAddr h)

/-- Settles O20: each of the forms is `Next(d)` or a `Jump` to the odd address, and every ending leaves an even `pc` or the
old one. -/
theorem oddTargetFaults : Obligations.OddTargetFaults := by
  unfold Obligations.OddTargetFaults
  refine ⟨advance_fault, fun s ra len h => jumpTo_fault s h, fun s link d len h => jumpTo_fault _ h, ?bcond,
    fun s n len h => jumpTo_fault _ h, fun s len h => jumpTo_fault _ h, fun s len h => jumpTo_fault _ h,
    fun s m f ra len h => jumpTo_fault _ h, ?pc⟩
  case bcond =>
    intro s c d len hc h
    simp only [exec, execBcond, hc, if_true]
    exact advance_fault _ s h
  case pc =>
    intro i s t h
    obtain ⟨u, hend, hframe⟩ := exec_completes h
    rw [← hframe.pc]
    exact hend.pc

/-- Settles O7, by the laws of the fetcher's table. -/
theorem placedRecordIsPresented : Obligations.PlacedRecordIsPresented := by
  unfold Obligations.PlacedRecordIsPresented
  intro s nbits w
  have hlookup (a : Nat) : lookupKey a (s.withFetchWord nbits w).program =
      if a = s.pc.toNat then some (Command.ofBits (tableBits nbits w)) else lookupKey a s.program := lookupKey_put ..
  refine ⟨presented_of_listed ?_, fun a ha => ?_, fun hnone => ⟨fun hsees => ?_, fun hsees => ?_⟩⟩
  · exact (hlookup _).trans (if_pos rfl)
  · rw [hlookup, if_neg ha]
  · rw [presented_of_unlisted hnone, hsees, if_pos rfl]
  · rw [presented_of_unlisted hnone, hsees, if_neg Bool.false_ne_true]

/-- Settles O10: 0 is even, and the empty memory and program are in order. -/
theorem resetMeetsTheInvariant : Obligations.ResetMeetsTheInvariant := by
  unfold Obligations.ResetMeetsTheInvariant
  exact ⟨by decide, wf_reset, rfl⟩

end Sys2Proof.Proofs
end

section
/-! The memory port for every width (20_memory.md R61 to R63): the value of a read by its bytes, and a read of what was just
written. -/

namespace Sys2Proof.Proofs

open Sys2Proof.Machine

/-- A read of `n` bytes is below `2 ^ (8 n)`. -/
theorem toNat_read_lt (m : Memory) (a : Word) (n : Nat) : (m.read a n).toNat < 2 ^ (8 * n) :=
  Nat.lt_pow_two_of_testBit _ (getLsbD_read_high m a n)

/-- The byte at the address is the low one of a read (20_memory.md R63). -/
theorem toNat_read_succ (m : Memory) (a : Word) {n : Nat} (hn : n < 4) :
    (m.read a (n + 1)).toNat = (m.readByte a).toNat + 2 ^ 8 * (m.read (a + 1) n).toNat := by
  have hbyte := (m.readByte a).isLt
  have hrest : (m.read (a + 1) n).toNat < 2 ^ 24 :=
    (toNat_read_lt m (a + 1) n).trans_le (Nat.pow_le_pow_right (by decide) (by omega))
  rw [Memory.read, BitVec.toNat_or, BitVec.toNat_setWidth_of_le (by decide), BitVec.toNat_shiftLeft,
    Nat.mod_eq_of_lt (by rw [Nat.shiftLeft_eq]; omega), Nat.or_comm, ← Nat.shiftLeft_add_eq_or_of_lt hbyte,
    Nat.shiftLeft_eq]
  omega

/-- A read is the sum of its bytes by their places (20_memory.md R61). -/
theorem toNat_read (m : Memory) (a : Word) {n : Nat} (hn : n ≤ 4) : (m.read a n).toNat =
    ((List.range n).map fun k => (m.readByte (a + BitVec.ofNat 32 k)).toNat * 2 ^ (8 * k)).sum := by
  induction n generalizing a with
  | zero => rfl
  | succ n ih =>
    have hplace (k : Nat) : (m.readByte (a + BitVec.ofNat 32 (k + 1))).toNat * 2 ^ (8 * (k + 1)) =
        2 ^ 8 * ((m.readByte (a + 1 + BitVec.ofNat 32 k)).toNat * 2 ^ (8 * k)) := by
      rw [show a + BitVec.ofNat 32 (k + 1) = a + 1 + BitVec.ofNat 32 k by bv_omega, Nat.mul_add, Nat.pow_add]
      ring
    rw [toNat_read_succ m a (by omega), ih _ (by omega), ← List.sum_map_mul_left, List.range_succ_eq_map, List.map_cons,
      List.sum_cons, List.map_map]
    simp [hplace, Function.comp_def]

/-- Byte `k` of a write stands `k` above its address (20_memory.md R62, R63). -/
theorem readByte_write_inside (m : Memory) (a v : Word) {n k : Nat} (hn : n < 2 ^ 32) (hk : k < n) :
    (m.write a n v).readByte (a + BitVec.ofNat 32 k) = v.extractLsb' (8 * k) 8 := by
  have hdist : (a + BitVec.ofNat 32 k - a).toNat = k := by bv_omega
  rw [readByte_write _ _ _ _ _ hn, hdist, if_pos hk, BitVec.setWidth_ushiftRight_eq_extractLsb]

/-- A read sees the write before it, truncated to its width (20_memory.md R61, R62). -/
theorem toNat_read_write (m : Memory) (a v : Word) {n : Nat} (hn : n ≤ 4) :
    ((m.write a n v).read a n).toNat = v.toNat % 2 ^ (8 * n) := by
  apply Nat.eq_of_testBit_eq
  intro i
  rw [Nat.testBit_mod_two_pow, BitVec.testBit_toNat, BitVec.testBit_toNat]
  by_cases hi : i < 8 * n
  · have hbit : 8 * (i / 8) + i % 8 = i := Nat.div_add_mod i 8
    rw [getLsbD_read _ _ _ _ hi (by omega), readByte_write_inside _ _ _ (by omega) (by omega), BitVec.getLsbD_extractLsb',
      hbit]
    simp [hi, Nat.mod_lt]
  · rw [getLsbD_read_high _ _ _ _ (by omega)]
    simp [hi]

/-- Settles O38: the widths 1, 2 and 4 of the laws of the port. -/
theorem portIsLittleEndianAndReadsTheLastWrite : Obligations.PortIsLittleEndianAndReadsTheLastWrite := by
  unfold Obligations.PortIsLittleEndianAndReadsTheLastWrite
  intro m a v n hwidth
  have hn : n ≤ 4 := by omega
  exact ⟨toNat_read m a hn, fun k hk => readByte_write_inside m a v (by omega) hk,
    fun b hb => readByte_write_outside m a b n v (by omega) hb, toNat_read_write m a v hn⟩

end Sys2Proof.Proofs
end

section
/-! What every instruction that completes does to memory and to the fetcher's program, said once: it stores to the bytes of
`StoresTo`, whatever it stores there, and where fetches see stores the commands of which a byte is stored to go
(20_memory.md R67, R74). -/

namespace Sys2Proof.Proofs

open Sys2Proof.Machine Sys2Proof.Claims

/-! ## Stores seen from outside -/

/-- From `s` to `u` the bytes of `P` were stored to, and no other. -/
structure StoredTo (s u : State) (P : Word → Prop) : Prop where
  mem    : ∀ b, ¬ P b → u.mem.readByte b = s.mem.readByte b
  listed : ∀ p, p ∈ u.program ↔ p ∈ s.program ∧
    (s.params.fetchSeesStores = true → ∀ k < instrLen p.2, ¬ P (BitVec.ofNat 32 p.1 + BitVec.ofNat 32 k))
  unseen : s.params.fetchSeesStores = false → u.program = s.program

/-- From `s` to `u` nothing was stored. -/
structure NotStored (s u : State) : Prop where
  mem     : u.mem = s.mem
  program : u.program = s.program

theorem NotStored.refl (s : State) : NotStored s s := ⟨rfl, rfl⟩

theorem NotStored.storedTo {s u : State} {P : Word → Prop} (h : NotStored s u) (hP : ∀ b, ¬ P b) : StoredTo s u P where
  mem b _ := by rw [h.mem]
  listed p := by simp only [h.program, hP, not_false_eq_true, implies_true, and_true]
  unseen _ := h.program

/-- Updates that store nothing may follow a store. -/
theorem StoredTo.notStored {s u t : State} {P : Word → Prop} (h : StoredTo s u P) (ht : NotStored u t) :
    StoredTo s t P where
  mem b hb := by rw [ht.mem, h.mem b hb]
  listed p := by rw [ht.program, h.listed p]
  unseen hs := by rw [ht.program, h.unseen hs]

/-! ### Endings store nothing and keep the parameters (30_encoding.md R96, R97) -/

section Ended

variable {s u t : State} {P : Word → Prop} (hend : Ends u t)
include hend

theorem Ends.notStored (h : NotStored s u) : NotStored s t := ⟨hend.mem.trans h.mem, hend.program.trans h.program⟩

theorem Ends.storedTo (h : StoredTo s u P) : StoredTo s t P := h.notStored ⟨hend.mem, hend.program⟩

theorem Ends.params : t.params = u.params := by cases hend <;> rfl

end Ended

/-! ### The shared operations -/

theorem storedTo_memWrite (s : State) (a : Word) {n : Nat} (v : Word) (hn : 0 < n) (hn' : n < 2 ^ 32) :
    StoredTo s (s.memWrite a n v) fun b => (b - a).toNat < n where
  mem b hb := readByte_write_outside _ _ _ _ _ hn' (not_lt.1 hb)
  listed p := by
    simp only [not_lt]
    exact mem_programAfterStore s a n hn p
  unseen := programAfterStore_of_unseen s a n

/-- A store of one byte stores to its address alone. -/
theorem storedTo_memWrite_byte (s : State) (a v : Word) : StoredTo s (s.memWrite a 1 v) fun b => b = a := by
  have honly (b : Word) : b = a ↔ (b - a).toNat < 1 := ⟨fun h => by simp [h], fun h => by bv_omega⟩
  simp only [honly]
  exact storedTo_memWrite s a v (by decide) (by decide)

/-- A push stores to its words alone, counted down from x[3] (44_transfer.md R251). -/
theorem not_pushStoresTo_iff (s : State) (xs : List Slot) (b : Word) : ¬ PushStoresTo s xs b ↔
    ∀ k < xs.length, 4 ≤ (b - alignWord (s.readReg Reg.sp - BitVec.ofNat 32 (4 * (k + 1)))).toNat := by
  have hslot (j k : Nat) (h : j + k + 1 = xs.length) :
      s.readReg 3 - BitVec.ofNat 32 (4 * xs.length) + BitVec.ofNat 32 (4 * j) =
        s.readReg Reg.sp - BitVec.ofNat 32 (4 * (k + 1)) := by
    rw [← h, Reg.sp]
    bv_omega
  simp only [PushStoresTo, not_exists, not_and, not_lt]
  refine ⟨fun h k hk => ?_, fun h j hj => ?_⟩
  · rw [← hslot (xs.length - 1 - k) k (by omega)]
    exact h _ (by omega)
  · rw [hslot j (xs.length - 1 - j) (by omega)]
    exact h _ (by omega)

theorem storedTo_pushList (xs : List Slot) (s : State) : StoredTo s (pushList xs s) (PushStoresTo s xs) := by
  rw [pushList_eq]
  refine ⟨fun b hb => ?_, fun p => ?_, fun hs => pushSlots_program_of_unseen _ _ _ hs⟩
  · rw [not_pushStoresTo_iff] at hb
    exact readByte_pushSlots_outside _ _ _ _ (by simpa only [List.length_reverse] using hb)
  · rw [State.writeReg_program, mem_program_pushSlots, List.length_reverse]
    simp only [not_pushStoresTo_iff]

/-- The host stores to the bytes it writes alone (45_system.md R281; log 12). -/
theorem storedTo_hostWritten (f : HostFn) (s : State) :
    StoredTo s (hostWritten f s) fun b => b ∈ (hostBytes f s).map Prod.fst where
  mem _ hb := readByte_writeAll _ _ _ fun _ hp he => hb (he ▸ List.mem_map_of_mem hp)
  listed p := mem_program_writeAll _ s p
  unseen := writeAll_program_of_unseen _ s

theorem popList_notStored (xs : List Slot) (c : Word) (s : State) : NotStored s (popList xs c s) := by
  rw [popList_eq]
  exact ⟨popSlots_mem xs c s, popSlots_program xs c s⟩

theorem divideState_notStored (ov : Bool) (q r : Word) (rd : Reg) (rem : Option Reg) (s : State) :
    NotStored s (divideState ov q r rd rem s) := by
  constructor <;> simp [divideState]

/-! ## Every instruction -/

/-- An instruction that is none of the storing ones stores to no byte. -/
theorem not_storesTo {i : Instr} (hm : MayStore i = false) (s : State) (b : Word) : ¬ StoresTo s b i := by
  cases i with
  | stb | sth | stw | set1 | clr1 | not1 | prepare | pushmh | pushml => cases hm
  | trap code len =>
    rintro ⟨hc, -⟩
    simp [MayStore, hc] at hm
  | _ => exact id

/-- TRAP below 31 is a software trap (45_system.md R280). -/
theorem exec_trap_eq_raiseTrap {code : BitVec 5} (hc : code.toNat ≠ 31) (len : Len) (s : State) :
    exec (.trap code len) s = raiseTrap code s := by
  have hle : code.toNat ≤ 30 := by omega
  simp [exec, execTrap, trapOrCall, hle]

/-- TRAP 31 is the host-call gate (45_system.md R280). -/
theorem exec_trap_eq_hostCall {code : BitVec 5} (hc : code.toNat = 31) (len : Len) (s : State) :
    exec (.trap code len) s = hostCall s := by
  simp [exec, execTrap, trapOrCall, hc]

/-- An instruction that is none of the storing ones leaves memory and the program as they are (20_memory.md R67). -/
theorem exec_notStored {i : Instr} {s t : State} (hm : MayStore i = false) (h : exec i s = .next t) : NotStored s t := by
  cases i with
  | add rd ra b len | addnf rd ra b len | sub rd ra b len | cmp ra b len | and rd ra b len | or rd ra b len
  | xor rd ra b len | not rd b len | tst ra b len | mov rd b len | sxb rd b len | sxh rd b len | zxb rd b len
  | zxh rd b len | mul rd rd2 ra b len | mulu rd rd2 ra b len | mulh rd ra b len | ldb rd ra d len | ldbu rd ra d len
  | ldh rd ra d len | ldhu rd ra d len | ldw rd ra d len | tst1 ra bit d len | ldsr ra n len | stsr rd n len =>
    exact (Ends.of_advanceLen h).notStored ⟨rfl, rfl⟩
  | satadd rd ra b len | satsub rd ra b len =>
    exact (Ends.of_advanceLen h).notStored ⟨setSat_mem _ _, setSat_program _ _⟩
  | shl rd ra b len | shr rd ra b len | sar rd ra b len =>
    exact (Ends.of_advanceLen h).notStored ⟨countDraw_mem _ _, countDraw_program _ _⟩
  | div rd rem ra b len | divu rd rem ra b len | divn rd rem ra b n len | divun rd rem ra b n len
  | divh rd rem ra b len | divhu rd rem ra b len => exact (Ends.of_advanceLen h).notStored (divideState_notStored ..)
  | bcond c d len =>
    simp only [exec, execBcond] at h
    split at h <;> exact (Ends.of_advance h).notStored (.refl s)
  | jarl link d len => exact (Ends.of_jumpTo h).notStored ⟨State.writeRegOpt_mem .., State.writeRegOpt_program ..⟩
  | jmp ra len | callt index len | ctret len | reti len => exact (Ends.of_jumpTo h).notStored ⟨rfl, rfl⟩
  | trap code len =>
    rw [exec_trap_eq_raiseTrap (by simpa [MayStore] using hm)] at h
    exact (Ends.of_jumpTo h).notStored ⟨rfl, rfl⟩
  | brkpt => exact (Ends.of_breakRun h).notStored (.refl s)
  | dispose mask frame jmp len =>
    cases jmp with
    | some ra => exact (Ends.of_jumpTo h).notStored (popList_notStored ..)
    | none => exact (Ends.of_advanceLen h).notStored (popList_notStored ..)
  | popmh mask len | popml mask len => exact (Ends.of_advanceLen h).notStored (popList_notStored ..)
  | stb | sth | stw | set1 | clr1 | not1 | prepare | pushmh | pushml => cases hm

/-- The gate stores where it serves a call, to the bytes the host writes (45_system.md R281 to R284). -/
theorem storedTo_hostCall {code : BitVec 5} (hc : code.toNat = 31) (len : Len) {s t : State} (h : hostCall s = .next t) :
    StoredTo s t fun b => StoresTo s b (.trap code len) := by
  obtain ⟨hexit, he⟩ | ⟨hexit, ⟨f, hf, he⟩ | ⟨hnone, he⟩⟩ := hostCall_cases s <;> rw [he] at h
  · refine ((Ends.of_exitRun h).notStored (.refl s)).storedTo fun b hb => ?_
    obtain ⟨-, hserved, -⟩ := hb
    exact hserved hexit
  · have hbytes (b : Word) : StoresTo s b (.trap code len) ↔ b ∈ (hostBytes f s).map Prod.fst := by
      simp [StoresTo, hc, hexit, hf]
    simp only [hbytes]
    exact (Ends.of_advance h).storedTo (.notStored (storedTo_hostWritten f s) ⟨rfl, rfl⟩)
  · refine ((Ends.of_abortRun h).notStored (.refl s)).storedTo fun b hb => ?_
    obtain ⟨-, -, f, hf, -⟩ := hb
    rw [hnone] at hf
    cases hf

/-- All that an instruction stores when it answers a next state. -/
theorem exec_storedTo {i : Instr} {s t : State} (h : exec i s = .next t) : StoredTo s t fun b => StoresTo s b i := by
  by_cases hm : MayStore i = false
  · exact (exec_notStored hm h).storedTo (not_storesTo hm s)
  cases i with
  | stb ra rb d len => exact (Ends.of_advanceLen h).storedTo (storedTo_memWrite_byte s _ _)
  | sth ra rb d len | stw ra rb d len =>
    exact (Ends.of_advanceLen h).storedTo (storedTo_memWrite s _ _ (by decide) (by decide))
  | set1 ra bit d len | clr1 ra bit d len | not1 ra bit d len =>
    -- Z is written before the byte is stored; `StoredTo` does not speak of it.
    have hbyte := storedTo_memWrite_byte (s.setFlag .z (!(s.memRead (byteAddr ra d s) 1).getLsbD bit.val))
      (byteAddr ra d s)
    exact (Ends.of_advanceLen h).storedTo { hbyte _ with }
  | prepare mask frame e len =>
    exact (Ends.of_advanceLen h).storedTo (.notStored (storedTo_pushList _ _) ⟨writeEp_mem .., writeEp_program ..⟩)
  | pushmh mask len | pushml mask len => exact (Ends.of_advanceLen h).storedTo (storedTo_pushList _ _)
  | trap code len =>
    have hc : code.toNat = 31 := by simpa [MayStore] using hm
    rw [exec_trap_eq_hostCall hc] at h
    exact storedTo_hostCall hc len h
  | _ => exact absurd rfl hm

/-! ## The statements about memory and the program -/

/-- Settles O18, by what every instruction stores. -/
theorem memoryIsWrittenOnlyByStores : Obligations.MemoryIsWrittenOnlyByStores := by
  unfold Obligations.MemoryIsWrittenOnlyByStores
  intro i s t h
  exact ⟨fun hm a => by rw [(exec_notStored hm h).mem], (exec_storedTo h).mem⟩

/-- Settles O12: the parameters are in the frame of every instruction, and a listed command goes by what the presented
instruction stores. -/
theorem parametersAndProgramOutlastAStep : Obligations.ParametersAndProgramOutlastAStep := by
  unfold Obligations.ParametersAndProgramOutlastAStep
  intro s t h
  obtain ⟨-, c, i, hpresented, hdecode, -, hexec⟩ := step_next h
  obtain ⟨u, hend, hframe⟩ := exec_completes hexec
  have hstored := exec_storedTo hexec
  refine ⟨hend.params.trans hframe.params, hend.program ▸ hframe.program, hstored.unseen, ?_⟩
  rintro c' i' ⟨-, hpresented'⟩ hdecode'
  obtain rfl : c = c' := Option.some.inj (hpresented.symm.trans hpresented')
  obtain rfl : i = i' := Except.ok.inj (hdecode.symm.trans hdecode')
  refine ⟨fun hm => (exec_notStored hm hexec).program, fun p hp => ?_⟩
  rw [hstored.listed p]
  exact and_iff_right hp

end Sys2Proof.Proofs
end

section
/-! The encoding of 30_encoding.md: the decoder inverts the encoder and reads the table of R92, the check is R95's list, and
the step runs what it accepts and faults on the rest. -/

namespace Sys2Proof.Proofs

open Sys2Proof.Machine Sys2Proof.Claims

/-! ## The encoder and the decoder (30_encoding.md R91, R92) -/

/-- The decoder of bytes inverts the encoder, on ill-formed instructions too. -/
theorem decodeBytes_encodeBytes (i : Instr) (rest : List Byte) :
    decodeBytes (encodeBytes i ++ rest) = .ok (i, rest) := by
  rw [encodeBytes, decodeBytes_bytesOf _ _ (toBits_padding _), ofBits_toBits, decode_encode]

/-- Settles O1, by the decoder's inverting the encoder on every instruction. -/
theorem encodedInstructionDecodesToItself : Obligations.EncodedInstructionDecodesToItself := by
  unfold Obligations.EncodedInstructionDecodesToItself
  exact fun i rest _ => decodeBytes_encodeBytes i rest

/-- A record with an operation's op value decodes to that operation on its fields. -/
theorem decode_of_op {c : Command} {o : Op} (h : c.op = o.code) : decode c = .ok (decodeOp o c) := by
  simp only [decode, h, Op.ofCode_code]

/-! ### The spec's reading of each field is the decoder's -/

theorem fieldExt_eq_ofBits (c : Command) : fieldExt c = Ext.ofBits c.ext := by
  unfold fieldExt
  generalize c.ext = x
  revert x
  decide

theorem fieldImm_eq_immOf : fieldImm = immOf := by
  funext c
  rw [fieldImm, fieldExt_eq_ofBits, immOf]

theorem fieldB_eq_operandOf : fieldB = operandOf := by
  funext c
  unfold fieldB operandOf
  rw [fieldImm_eq_immOf]
  obtain h | h := BitVec.eq_zero_or_eq_one c.bsel <;> rw [h] <;> rfl

theorem fieldOpt_eq_optReg : fieldOpt = optReg := by
  funext flag r
  obtain rfl | rfl := BitVec.eq_zero_or_eq_one flag <;> rfl

/-- A three-bit field is 0 to 7. -/
theorem threeBits_cases (x : BitVec 3) : x = 0 ∨ x = 1 ∨ x = 2 ∨ x = 3 ∨ x = 4 ∨ x = 5 ∨ x = 6 ∨ x = 7 := by
  revert x
  decide

theorem fieldEp_eq_epOf : fieldEp = epOf := by
  funext c
  unfold fieldEp epOf
  obtain h | h | h | h | h | h | h | h := threeBits_cases c.epm <;> rw [h] <;> rfl

/-- The table of R92 is the decoder's, row by row. -/
theorem recordTable_eq_map : recordTable = Op.all.map fun o => (o.code, decodeOp o) := by
  unfold recordTable
  rw [fieldB_eq_operandOf, fieldImm_eq_immOf, fieldOpt_eq_optReg, fieldEp_eq_epOf]
  rfl

/-- Settles O3: a row of the table is an operation's op value with the decoder's reading of its fields; the six records are
evaluated. -/
theorem writtenRecordsDecode : Obligations.WrittenRecordsDecode := by
  unfold Obligations.WrittenRecordsDecode
  refine ⟨fun row hrow c hop => ?_, by decide, by decide, by decide, by decide, by decide, by decide⟩
  rw [recordTable_eq_map, List.mem_map] at hrow
  obtain ⟨o, -, rfl⟩ := hrow
  exact decode_of_op hop

/-! ## Well-formedness (30_encoding.md R95) -/

/-- R95 item 6, with the length it fixes. -/
theorem epLen_eq_some_iff (e : EpOption) (l : Len) : epLen e = some l ↔ e.wfLen l = true := by
  cases e <;> simp [epLen, EpOption.wfLen, eq_comm (b := l)]

/-- The length a base-pointer option fixes is one of item 2's. -/
theorem len_wf_of_wfLen {e : EpOption} {l : Len} (h : e.wfLen l = true) : Len.wf l = true := by
  rw [Len.wf_iff]
  cases e <;> simp_all [EpOption.wfLen]

/-- R95 item 3 for the second operand and the displacement. -/
theorem forall_readsImm_iff (i : Instr) (P : Imm → Prop) :
    (∀ d, ReadsImm i d → P d) ↔ (∀ d, displacement i = some d → P d) ∧ ∀ d, operandB i = some (.imm d) → P d := by
  simp only [ReadsImm, or_imp, forall_and]

/-- R95 items 2 to 7 by the model's checks of the fields. -/
theorem meetsR95_iff (i : Instr) :
    MeetsR95 i ↔
      (∀ l, lenOf i = some l → Len.wf l = true) ∧
      (∀ c d l, i = .bcond c d l → l = 2) ∧
      (∀ c l, i = .trap c l → l = 4) ∧
      (∀ d, displacement i = some d → d.wf = true) ∧
      (∀ b, operandB i = some b → b.wf = true) ∧
      (∀ n, widthOf i = some n → widthWf n = true) ∧
      (∀ m zs, maskZeros i = some (m, zs) → ∀ k ∈ zs, m.getLsbD k = false) ∧
      (∀ m f e l, i = .prepare m f e l → e.wfLen l = true) := by
  have hoperand : (∀ b, operandB i = some b → b.wf = true) ↔ ∀ d, operandB i = some (.imm d) → d.wf = true := by
    simp only [OperandB.wf_iff]
    exact ⟨fun h d hd => h _ hd d rfl, fun h b hb d hbd => h d (hbd ▸ hb)⟩
  simp only [hoperand, Len.wf_iff, widthWf_iff, ← epLen_eq_some_iff]
  constructor
  · rintro ⟨h2, hbcond, htrap, h3, h4, h5, h6⟩
    simp only [← Imm.wf_iff] at h3
    obtain ⟨hd, hb⟩ := (forall_readsImm_iff i _).1 h3
    exact ⟨h2, hbcond, htrap, hd, hb, h4, h5, h6⟩
  · rintro ⟨h2, hbcond, htrap, hd, hb, h4, h5, h6⟩
    refine ⟨h2, hbcond, htrap, ?_, h4, h5, h6⟩
    simp only [← Imm.wf_iff]
    exact (forall_readsImm_iff i _).2 ⟨hd, hb⟩

/-- R95 item 5 for Table A, bit by bit. -/
theorem maskWfA_iff_forall_mem (m : BitVec 18) :
    maskWfA m = true ↔ ∀ k ∈ [12, 13, 14, 15, 16, 17], m.getLsbD k = false := by
  rw [maskWfA_iff]
  constructor
  · intro h k hk
    simp only [List.mem_cons, List.not_mem_nil, or_false] at hk
    exact h k (by omega) (by omega)
  · intro h k h1 h2
    refine h k ?_
    simp only [List.mem_cons, List.not_mem_nil, or_false]
    omega

/-- Settles O4: each instruction's check is the conjunction of the items that speak of its fields. BCOND's, TRAP's and PREPARE's
own item implies that the length is one of item 2's. -/
theorem wellFormedExactlyByTheListedConditions : Obligations.WellFormedExactlyByTheListedConditions := by
  unfold Obligations.WellFormedExactlyByTheListedConditions
  intro i
  rw [meetsR95_iff]
  cases i
  all_goals
    simp only [Instr.wf, lenOf, displacement, operandB, widthOf, maskZeros, maskWfA_iff_forall_mem, maskWfC_iff,
      Bool.and_eq_true, beq_iff_eq, Option.some.injEq, Prod.mk.injEq, and_imp, forall_eq', forall_apply_eq_imp_iff,
      List.forall_mem_singleton, reduceCtorEq, IsEmpty.forall_iff, implies_true, and_true, true_and, and_assoc]
  case bcond cond disp l =>
    constructor
    · rintro rfl
      exact ⟨by decide, by rintro _ _ _ ⟨⟩; rfl⟩
    · exact fun ⟨_, hl⟩ => hl _ _ _ rfl
  case trap code l =>
    constructor
    · rintro rfl
      exact ⟨by decide, by rintro _ _ ⟨⟩; rfl⟩
    · exact fun ⟨_, hl⟩ => hl _ _ rfl
  case prepare mask frame e l =>
    constructor
    · exact fun ⟨hm, he⟩ => ⟨len_wf_of_wfLen he, hm, by rintro _ _ _ _ ⟨⟩; exact he⟩
    · exact fun ⟨_, hm, he⟩ => ⟨hm, he _ _ _ _ rfl⟩

/-! ## What the step makes of a presented command (30_encoding.md R90, R95, R99, R100) -/

/-- The op values of R92, in runs of consecutive ones. -/
theorem map_code_all : Op.all.map (·.code.toNat) =
    List.range' 0x01 19 ++ List.range' 0x20 3 ++ List.range' 0x28 6 ++ List.range' 0x30 5 ++ List.range' 0x38 3 ++
      List.range' 0x40 4 ++ List.range' 0x50 5 ++ List.range' 0x60 5 ++ List.range' 0x70 6 := by
  decide

/-- The reserved values are the ones no operation has. -/
theorem ofCode_eq_none_iff_reservedOp (x : BitVec 8) : Op.ofCode x = none ↔ ReservedOp x.toNat := by
  have hmem : (∀ o : Op, o.code ≠ x) ↔ x.toNat ∉ Op.all.map (·.code.toNat) := by
    simp [Op.mem_all, BitVec.toNat_inj]
  have hlt := x.isLt
  rw [Op.ofCode_eq_none, hmem, map_code_all, ReservedOp]
  simp only [List.mem_append, List.mem_range'_1]
  omega

/-- The step of a running block hands the presented command on. -/
theorem step_of_presents {s : State} {c : Command} (h : Presents s c) : step s = runCommand c s := by
  obtain ⟨hrun, hc⟩ := h
  simp only [step, hrun, hc]

/-- A command is accepted when it is well-formed and its operation is admitted. -/
theorem accepts_iff (i : Instr) (s : State) : accepts i s = true ↔ i.wf = true ∧ i.op ∈ s.params.admitted := by
  simp only [accepts, Bool.and_eq_true, List.contains_iff_mem]

/-- Settles O5: a command that is accepted is executed. -/
theorem stepRunsTheDecodedInstruction : Obligations.StepRunsTheDecodedInstruction := by
  unfold Obligations.StepRunsTheDecodedInstruction
  rintro s c i ⟨hrun, hc⟩ hi hwf hadm
  exact step_eq_exec hrun hc hi ((accepts_iff i s).2 ⟨hwf, hadm⟩)

/-- Settles O6: either condition keeps the command from being accepted. -/
theorem unacceptedCommandFaults : Obligations.UnacceptedCommandFaults := by
  unfold Obligations.UnacceptedCommandFaults
  intro s c i hc hi hbad
  have hacc : ¬ accepts i s = true := by
    rw [accepts_iff]
    rintro ⟨hwf, hadm⟩
    obtain hbad | hbad := hbad
    · exact absurd hwf (by simp [hbad])
    · exact hbad hadm
  rw [step_of_presents hc, runCommand]
  simp only [hi, if_neg hacc]

/-- Settles O2: a reserved op value decodes to nothing, a used reserved `ext` fails item 3 of R95, and any other op value is an
operation's. -/
theorem reservedValuesFault : Obligations.ReservedValuesFault := by
  unfold Obligations.ReservedValuesFault
  refine ⟨fun s c hc hres => ?_, fun s c i d hc hi hreads hext => ?_, fun c hres => ?_⟩
  · rw [step_of_presents hc, runCommand, decode, (ofCode_eq_none_iff_reservedOp c.op).2 hres]
  · refine unacceptedCommandFaults s c i hc hi (.inl ?_)
    rw [← Bool.not_eq_true, wellFormedExactlyByTheListedConditions i]
    exact fun h => (h.item3 d hreads).1 hext
  · rw [decode_ok_iff, ne_eq, ofCode_eq_none_iff_reservedOp]
    exact hres

/-! ## Operands (30_encoding.md R93, R94) -/

/-- Sign extension repeats the field's top bit. -/
theorem getLsbD_sextField {n k : Nat} (v : Word) (hn : 1 ≤ n) (hk : k < 32) :
    (sextField n v).getLsbD k = v.getLsbD (min k (n - 1)) := by
  simp only [sextField, BitVec.getLsbD_signExtend, BitVec.getLsbD_setWidth, BitVec.msb_setWidth]
  by_cases h : k < n
  · have : min k (n - 1) = k := by omega
    simp [h, hk, this]
  · have : min k (n - 1) = n - 1 := by omega
    have hpos : 0 < n := hn
    simp [h, hk, this, hpos]

/-- Zero extension has 0 above the field. -/
theorem getLsbD_zextField {n k : Nat} (v : Word) (hk : k < 32) :
    (zextField n v).getLsbD k = (decide (k < n) && v.getLsbD k) := by
  simp [zextField, hk]

/-- Settles O29, by the bits of the two extensions. -/
theorem operandsAreAssembledByTheirFields : Obligations.OperandsAreAssembledByTheirFields := by
  unfold Obligations.OperandsAreAssembledByTheirFields
  refine ⟨fun iw v k hiw _ hk => ⟨?_, ?_, ?_⟩, fun s rb i => ⟨rfl, rfl⟩⟩
  · exact getLsbD_sextField v hiw hk
  · exact getLsbD_zextField v hk
  · rw [immVal, BitVec.getLsbD_shiftLeft, getLsbD_zextField v (by omega)]
    by_cases h : k < 16
    · simp [h, Nat.not_le.2 h]
    · have hlow : k - 16 < 16 := by omega
      simp [h, hk, hlow, Nat.not_lt.1 h]

end Sys2Proof.Proofs
end

section
/-! The condition evaluator (40_condition.md): the sixteen codes by the flags, and what ten of them say of the operands
after a comparison. -/

namespace Sys2Proof.Proofs

open Sys2Proof.Machine Sys2Proof.Claims

/-! ## Codes and their complements (40_condition.md R131, R132) -/

/-- Bit 3 of a code complements it: the upper half of the table is the lower half's complements. -/
theorem condHolds_xor_eight_of_lt {c : BitVec 4} (p : Word) (hlow : c < 8) (h5 : c ≠ 5) :
    condHolds (c ^^^ 8) p = !condHolds c p := by
  have hcodes : c = 0 ∨ c = 1 ∨ c = 2 ∨ c = 3 ∨ c = 4 ∨ c = 6 ∨ c = 7 := by bv_omega
  rcases hcodes with rfl | rfl | rfl | rfl | rfl | rfl | rfl <;> rfl

/-- Code `c xor 8` is the complement of code `c`, 5 and 13 apart: an upper code is the partner of a lower one. -/
theorem condHolds_xor_eight {c : BitVec 4} (p : Word) (h5 : c ≠ 5) (h13 : c ≠ 13) :
    condHolds (c ^^^ 8) p = !condHolds c p := by
  by_cases hlow : c < 8
  · exact condHolds_xor_eight_of_lt p hlow h5
  · have hpartner : c ^^^ 8 < 8 ∧ c ^^^ 8 ≠ 5 ∧ c ^^^ 8 ^^^ 8 = c := by revert c; decide
    obtain ⟨hlow', h5', hback⟩ := hpartner
    have hcompl := condHolds_xor_eight_of_lt p hlow' h5'
    rw [hback] at hcompl
    rw [hcompl, Bool.not_not]

/-- An upper code holds where its lower partner does not. -/
theorem condHolds_xor_eight_iff {c : BitVec 4} {p : Word} {P : Prop} (h : condHolds c p = true ↔ P) (h5 : c ≠ 5)
    (h13 : c ≠ 13) : condHolds (c ^^^ 8) p = true ↔ ¬ P := by
  rw [condHolds_xor_eight p h5 h13, Bool.not_eq_true', ← h, Bool.not_eq_true]

/-- Settles O41: the table is the evaluator's own, and an upper code complements its lower partner. -/
theorem conditionCodesTestTheirFlags : Obligations.ConditionCodesTestTheirFlags := by
  unfold Obligations.ConditionCodesTestTheirFlags
  exact ⟨fun p => rfl, fun c p => condHolds_xor_eight p⟩

/-! ## The flags of a comparison (41_alu.md R151, R153) -/

/-- Z of a difference tests equality. -/
theorem zf_sub_iff (x y : Word) : zf (x - y) = true ↔ x = y :=
  beq_iff_eq.trans sub_eq_zero

/-- CY of a difference orders the operands unsigned. -/
theorem carrySub_iff (x y : Word) : carrySub x y = true ↔ x.toNat < y.toNat :=
  BitVec.ult_iff_lt

/-- S XOR OV of a difference: operands of one sign do not overflow, and of two signs the minuend's decides. -/
theorem sf_xor_ovSub (x y : Word) :
    (sf (x - y) ^^ ovSub x y (x - y)) = if sf x = sf y then sf (x - y) else sf x := by
  change (sf (x - y) ^^ (sf x != sf y && sf (x - y) != sf x)) = _
  generalize sf (x - y) = r
  by_cases hsame : sf x = sf y
  · simp [hsame]
  · simp [hsame, bne_iff_ne.2 hsame]

/-- S XOR OV of a difference orders the operands signed. -/
theorem sf_xor_ovSub_iff (x y : Word) :
    (sf (x - y) ^^ ovSub x y (x - y)) = true ↔ x.toInt < y.toInt := by
  rw [sf_xor_ovSub, toInt_cases, toInt_cases]
  split
  next hsame =>
    have hsign : 2 ^ 31 ≤ x.toNat ↔ 2 ^ 31 ≤ y.toNat := by
      rw [← getLsbD31_iff, ← getLsbD31_iff]
      exact Bool.eq_iff_iff.1 hsame
    rw [sf, getLsbD31_iff, BitVec.toNat_sub]
    omega
  next hdiff =>
    have hsign : ¬ (2 ^ 31 ≤ x.toNat ↔ 2 ^ 31 ≤ y.toNat) := by
      rw [← getLsbD31_iff, ← getLsbD31_iff]
      exact fun h => hdiff (Bool.eq_iff_iff.2 h)
    rw [sf, getLsbD31_iff]
    omega

/-! ## The codes after a comparison (40_condition.md R133) -/

/-- What a CMP or SUB that completes leaves in PSW for the condition codes. -/
theorem compare_psw_orders {s t : State} {rd ra : Reg} {b : OperandB} {len : Len}
    (h : exec (.cmp ra b len) s = .next t ∨ exec (.sub rd ra b len) s = .next t) :
    (t.psw.getLsbD 0 = true ↔ s.readReg ra = opB b s) ∧
    (t.psw.getLsbD 3 = true ↔ (s.readReg ra).toNat < (opB b s).toNat) ∧
    ((t.psw.getLsbD 1 ^^ t.psw.getLsbD 2) = true ↔ (s.readReg ra).toInt < (opB b s).toInt) := by
  obtain ⟨u, ht⟩ : ∃ u, t.psw = (setArith (s.readReg ra - opB b s) (carrySub (s.readReg ra) (opB b s))
      (ovSub (s.readReg ra) (opB b s) (s.readReg ra - opB b s)) u).psw := by
    rcases h with hcmp | hsub
    · exact ⟨s, (Ends.of_advanceLen hcmp).psw⟩
    · exact ⟨s.writeReg rd (s.readReg ra - opB b s), (Ends.of_advanceLen hsub).psw⟩
  simp only [ht, getLsbD_psw_setArith]
  exact ⟨zf_sub_iff _ _, carrySub_iff _ _, sf_xor_ovSub_iff _ _⟩

/-- The lower codes on a PSW whose flags compare `x` with `y`: 3 and 7 are the strict orders or equality. -/
theorem lowerCodes_order {p x y : Word} (hz : p.getLsbD 0 = true ↔ x = y)
    (hcy : p.getLsbD 3 = true ↔ x.toNat < y.toNat)
    (hlt : (p.getLsbD 1 ^^ p.getLsbD 2) = true ↔ x.toInt < y.toInt) :
    (condHolds 2 p = true ↔ x = y) ∧ (condHolds 1 p = true ↔ x.toNat < y.toNat) ∧
    (condHolds 3 p = true ↔ x.toNat ≤ y.toNat) ∧ (condHolds 6 p = true ↔ x.toInt < y.toInt) ∧
    (condHolds 7 p = true ↔ x.toInt ≤ y.toInt) := by
  refine ⟨hz, hcy, ?_, hlt, ?_⟩
  · calc
      condHolds 3 p = true ↔ p.getLsbD 3 = true ∨ p.getLsbD 0 = true := Bool.or_eq_true_iff ..
      _ ↔ x.toNat ≤ y.toNat := by rw [hcy, hz, Nat.le_iff_lt_or_eq, BitVec.toNat_inj]
  · calc
      condHolds 7 p = true ↔ (p.getLsbD 1 ^^ p.getLsbD 2) = true ∨ p.getLsbD 0 = true := Bool.or_eq_true_iff ..
      _ ↔ x.toInt ≤ y.toInt := by rw [hlt, hz, Int.le_iff_lt_or_eq, BitVec.toInt_inj]

/-- Settles O42, by the flags of the difference and the complements of the lower codes. -/
theorem conditionsAfterCompareOrderTheOperands : Obligations.ConditionsAfterCompareOrderTheOperands := by
  unfold Obligations.ConditionsAfterCompareOrderTheOperands
  intro s t rd ra b len hexec
  obtain ⟨hz, hcy, hlt⟩ := compare_psw_orders hexec
  obtain ⟨h2, h1, h3, h6, h7⟩ := lowerCodes_order hz hcy hlt
  exact ⟨h2, condHolds_xor_eight_iff h2 (by decide) (by decide),
    h1, (condHolds_xor_eight_iff h1 (by decide) (by decide)).trans Nat.not_lt,
    h3, (condHolds_xor_eight_iff h3 (by decide) (by decide)).trans Nat.not_le,
    h6, (condHolds_xor_eight_iff h6 (by decide) (by decide)).trans Int.not_lt,
    h7, (condHolds_xor_eight_iff h7 (by decide) (by decide)).trans Int.not_le⟩

end Sys2Proof.Proofs
end

section
/-! The flag functions of the ALU (41_alu.md R152 to R154): carry, borrow and overflow are the comparisons of the exact result
with its range, and saturation is the clamp. -/

namespace Sys2Proof.Proofs

open Sys2Proof.Machine Sys2Proof.Claims

/-! ## The flag functions as comparisons (41_alu.md R152, R153) -/

theorem carryAdd_eq_decide (x y r : Word) : carryAdd x y r = decide (r.toNat < x.toNat ∨ r.toNat < y.toNat) :=
  (Bool.decide_or ..).symm

theorem ovAdd_eq_decide (x y r : Word) :
    ovAdd x y r = decide (x.getLsbD 31 = y.getLsbD 31 ∧ r.getLsbD 31 ≠ x.getLsbD 31) := by
  rw [Bool.eq_iff_iff, ovAdd, Bool.and_eq_true, beq_iff_eq, bne_iff_ne, decide_eq_true_iff]

theorem ovSub_eq_decide (x y r : Word) :
    ovSub x y r = decide (x.getLsbD 31 ≠ y.getLsbD 31 ∧ r.getLsbD 31 ≠ x.getLsbD 31) := by
  rw [Bool.eq_iff_iff, ovSub, Bool.and_eq_true, bne_iff_ne, bne_iff_ne, decide_eq_true_iff]

/-- The wrapped sum is below an operand exactly when the exact sum wraps. -/
theorem carryAdd_iff (x y : Word) : carryAdd x y (x + y) = true ↔ 2 ^ 32 ≤ x.toNat + y.toNat := by
  rw [carryAdd_eq_decide, decide_eq_true_iff, BitVec.toNat_add]
  omega

/-- The model's overflow of a sum is the library's. -/
theorem ovAdd_eq_saddOverflow (x y : Word) : ovAdd x y (x + y) = x.saddOverflow y := by
  rw [BitVec.saddOverflow_eq, BitVec.msb_eq_getLsbD_last, BitVec.msb_eq_getLsbD_last, BitVec.msb_eq_getLsbD_last]
  rfl

/-- The model's overflow of a difference is the library's. -/
theorem ovSub_eq_ssubOverflow (x y : Word) : ovSub x y (x - y) = x.ssubOverflow y := by
  rw [BitVec.ssubOverflow_eq, BitVec.msb_eq_getLsbD_last, BitVec.msb_eq_getLsbD_last, BitVec.msb_eq_getLsbD_last, ovSub]
  cases x.getLsbD 31 <;> cases y.getLsbD 31 <;> simp

theorem ovAdd_iff (x y : Word) :
    ovAdd x y (x + y) = true ↔ x.toInt + y.toInt < -2 ^ 31 ∨ 2 ^ 31 - 1 < x.toInt + y.toInt := by
  rw [ovAdd_eq_saddOverflow, BitVec.saddOverflow, Bool.or_eq_true, decide_eq_true_iff, decide_eq_true_iff]
  omega

theorem ovSub_iff (x y : Word) :
    ovSub x y (x - y) = true ↔ x.toInt - y.toInt < -2 ^ 31 ∨ 2 ^ 31 - 1 < x.toInt - y.toInt := by
  rw [ovSub_eq_ssubOverflow, BitVec.ssubOverflow, Bool.or_eq_true, decide_eq_true_iff, decide_eq_true_iff]
  omega

/-! ## Saturation (41_alu.md R154) -/

theorem getLsbD31_iff_toInt_neg (r : Word) : r.getLsbD 31 = true ↔ r.toInt < 0 := by
  rw [getLsbD31_iff, toInt_cases]
  have := r.isLt
  omega

/-- The clamp is the bound on the other side of the sign of the wrapped result. -/
theorem toInt_clamp (r : Word) : (clamp r).toInt = if r.toInt < 0 then 2 ^ 31 - 1 else -2 ^ 31 := by
  unfold clamp
  by_cases hneg : r.getLsbD 31 = true
  · rw [if_pos hneg, if_pos ((getLsbD31_iff_toInt_neg r).1 hneg)]
    rfl
  · rw [if_neg hneg, if_neg (mt (getLsbD31_iff_toInt_neg r).2 hneg)]
    rfl

/-- Where the exact result `n` overflows by less than its range, the wrapped result `r` has the other sign, so the clamp is the
bound that `n` passed. -/
theorem toInt_saturate {r : Word} {n : Int} {ov : Bool} (hr : r.toInt = n.bmod (2 ^ 32))
    (hov : ov = true ↔ n < -2 ^ 31 ∨ 2 ^ 31 - 1 < n) (hlow : -2 ^ 32 ≤ n) (hhigh : n < 2 ^ 32) :
    (saturate ov r).toInt = max (-2 ^ 31) (min (2 ^ 31 - 1) n) := by
  rw [Int.bmod_def] at hr
  cases ov with
  | false =>
    have hfits := mt hov.2 Bool.false_ne_true
    rw [saturate, if_neg Bool.false_ne_true]
    omega
  | true =>
    have hout := hov.1 rfl
    rw [saturate, if_pos rfl, toInt_clamp]
    omega

/-- Settles O24: the library's overflow predicates are the exact comparisons, and saturation needs them alone. -/
theorem flagFunctionsAreExactComparisons : Obligations.FlagFunctionsAreExactComparisons := by
  unfold Obligations.FlagFunctionsAreExactComparisons
  intro x y
  obtain ⟨hx, hx'⟩ : -2 ^ 31 ≤ x.toInt ∧ x.toInt < 2 ^ 31 := ⟨x.le_toInt, x.toInt_lt⟩
  obtain ⟨hy, hy'⟩ : -2 ^ 31 ≤ y.toInt ∧ y.toInt < 2 ^ 31 := ⟨y.le_toInt, y.toInt_lt⟩
  refine ⟨carryAdd_iff x y, ovAdd_iff x y, ?_, ovSub_iff x y, ?_, ?_⟩
  · rw [carrySub_iff]
    omega
  · exact toInt_saturate (BitVec.toInt_add x y) (ovAdd_iff x y) (by omega) (by omega)
  · exact toInt_saturate BitVec.toInt_sub (ovSub_iff x y) (by omega) (by omega)

end Sys2Proof.Proofs
end

section
/-! The ALU operations (41_alu.md R160 to R178): what an instruction that stores nothing leaves when it ends with
`Next(cmd.len)`, said once, then by the group of flags it writes. -/

namespace Sys2Proof.Proofs

open Sys2Proof.Machine Sys2Proof.Claims

/-! ## Instructions that write registers and flags alone -/

theorem runs_imp {i : Instr} {s : State} {P Q : State → Prop} (h : Runs i s P) (hPQ : ∀ t, P t → Q t) : Runs i s Q := by
  obtain ⟨t, hexec, hP⟩ := h
  exact ⟨t, hexec, hPQ t hP⟩

/-- By the write-sets, the instruction writes the general registers `rs` and the PSW bits `bits` and nothing else. -/
structure PlainWrites (i : Instr) (rs : List Reg) (bits : List Nat) : Prop where
  regs   : regWrites i = rs
  psw    : pswWrites i = some bits
  sys    : ∀ s, sysWrites s i = []
  stores : MayStore i = false

/-- An ending with `Next(d)` keeps the status. -/
theorem Ends.status_of_next {u t : State} {d : Word} (h : Ends u t) (hout : t.lastOutcome = some (.next d)) :
    t.status = u.status := by
  cases h with
  | next | jump | brk => rfl
  | exit | abort => cases hout

/-- The next state of an instruction that writes registers and flags alone is the written state `u`, ended. -/
theorem runs_plain {i : Instr} {s u : State} {rs : List Reg} {bits : List Nat} {len : Len}
    (hexec : exec i s = advanceLen len u) (hpc : u.pc = s.pc) (heven : EvenAddr (s.pc + lenBytes len))
    (hw : PlainWrites i rs bits := by exact ⟨rfl, rfl, fun _ => rfl, rfl⟩) :
    Runs i s fun t => Ends u t ∧ Plain s t rs bits len ∧ t.draws = u.draws := by
  have hnext := advance_of_even (lenBytes len) u (hpc ▸ heven)
  have hcomplete := hexec.trans hnext
  obtain ⟨v, hend, hframe⟩ := exec_completes hcomplete
  obtain ⟨hmem, hprogram⟩ := exec_notStored hw.stores hcomplete
  rw [hw.regs, hw.sys, pswBits, hw.psw] at hframe
  refine ⟨_, hcomplete, .of_advance hnext, ⟨⟨⟨?_, ?_, ?_, ?_, ?_⟩, hprogram⟩, fun a => by rw [hmem], ⟨?_, rfl⟩⟩, rfl⟩
  · exact fun q hq => (hend.readReg q).trans (hframe.regs q hq)
  · exact fun k hk hne => (hend.readSys k).trans (hframe.sys k hk hne)
  · exact fun k hk => (congrArg (BitVec.getLsbD · k) hend.psw).trans (hframe.psw k hk)
  · exact (hend.status_of_next rfl).trans hframe.status
  · exact hend.params.trans hframe.params
  · exact congrArg (· + lenBytes len) hpc

theorem readReg_writeReg_same (s : State) (r : Reg) (v : Word) : (s.writeReg r v).readReg r = v := by
  rw [readReg_writeReg, if_pos rfl]

/-! ## Z, S, CY and OV: addition, subtraction and comparison (41_alu.md R160, R162, R163) -/

theorem Ends.arithFlags {r : Word} {cy ov : Bool} {u t : State} (h : Ends (setArith r cy ov u) t) :
    ZS t r ∧ t.psw.getLsbD 3 = cy ∧ t.psw.getLsbD 2 = ov := by
  simp only [ZS, h.psw, getLsbD_psw_setArith, ← zf_eq]
  exact ⟨⟨rfl, rfl⟩, rfl, rfl⟩

theorem addCyOv_iff {t : State} {x y : Word} : AddCyOv t x y ↔
    t.psw.getLsbD 3 = carryAdd x y (x + y) ∧ t.psw.getLsbD 2 = ovAdd x y (x + y) := by
  rw [AddCyOv, carryAdd_eq_decide, ovAdd_eq_decide]

theorem subCyOv_iff {t : State} {x y : Word} : SubCyOv t x y ↔
    t.psw.getLsbD 3 = carrySub x y ∧ t.psw.getLsbD 2 = ovSub x y (x - y) := by
  rw [SubCyOv, ovSub_eq_decide]
  rfl

/-- Settles O21, by the flags of the sum. -/
theorem addStoresTheSumAndItsFlags : Obligations.AddStoresTheSumAndItsFlags := by
  unfold Obligations.AddStoresTheSumAndItsFlags
  intro s rd ra b len heven
  refine runs_imp (runs_plain rfl rfl heven) ?_
  rintro t ⟨hend, hplain, hdraws⟩
  obtain ⟨hzs, hcyov⟩ := hend.arithFlags
  exact ⟨(hend.readReg rd).trans (readReg_writeReg_same ..), hzs, addCyOv_iff.2 hcyov, hplain, hdraws⟩

/-- Settles O22, by the flags of the difference. -/
theorem subtractAndCompareSetBorrowFlags : Obligations.SubtractAndCompareSetBorrowFlags := by
  unfold Obligations.SubtractAndCompareSetBorrowFlags
  intro s rd ra b len heven x y
  refine ⟨runs_imp (runs_plain rfl rfl heven) ?_, runs_imp (runs_plain rfl rfl heven) ?_⟩ <;>
    rintro t ⟨hend, hplain, hdraws⟩ <;> obtain ⟨hzs, hcyov⟩ := hend.arithFlags
  · exact ⟨(hend.readReg rd).trans (readReg_writeReg_same ..), hzs, subCyOv_iff.2 hcyov, hplain, hdraws⟩
  · exact ⟨hzs, subCyOv_iff.2 hcyov, hplain, hdraws⟩

/-! ## Saturation and the sticky SAT (41_alu.md R154, R164, R165) -/

theorem Ends.satFlags {r : Word} {cy ov : Bool} {u t : State} (h : Ends (setSat ov (setArith r cy ov u)) t) :
    ZS t r ∧ (t.psw.getLsbD 3 = cy ∧ t.psw.getLsbD 2 = ov) ∧ t.psw.getLsbD 4 = (u.psw.getLsbD 4 || ov) := by
  simp only [ZS, h.psw, getLsbD_psw_setSat, getLsbD_psw_setArith, ← zf_eq]
  exact ⟨⟨rfl, rfl⟩, ⟨rfl, rfl⟩, rfl⟩

/-- A saturating operation with the wrapped result `r` and the overflow `ov` of its operation. -/
theorem runs_saturating {i : Instr} {s : State} {rd : Reg} {r : Word} {cy ov : Bool} {len : Len}
    (hexec : exec i s = advanceLen len
      (setSat ov (setArith (saturate ov r) cy ov (s.writeReg rd (saturate ov r)))))
    (heven : EvenAddr (s.pc + lenBytes len))
    (hw : PlainWrites i [rd] [0, 1, 2, 3, 4] := by exact ⟨rfl, rfl, fun _ => rfl, rfl⟩) :
    Runs i s fun t => t.readReg rd = saturate ov r ∧ Saturates s t (saturate ov r) r ∧ ZS t (saturate ov r) ∧
      (t.psw.getLsbD 3 = cy ∧ t.psw.getLsbD 2 = ov) ∧ Plain s t [rd] [0, 1, 2, 3, 4] len ∧ t.draws = s.draws := by
  refine runs_imp (runs_plain hexec (by rw [setSat_pc]; rfl) heven hw) ?_
  rintro t ⟨hend, hplain, hdraws⟩
  obtain ⟨hzs, hcyov, hsat⟩ := hend.satFlags
  refine ⟨?_, ⟨?_, ?_⟩, hzs, hcyov, hplain, hdraws.trans (setSat_draws ..)⟩
  · rw [hend.readReg, readReg_setSat, readReg_setArith, readReg_writeReg_same]
  · rw [hcyov.2]
    rfl
  · rw [hcyov.2, hsat, psw_writeReg]

/-- Settles O23: the two saturating operations differ in the wrapped result and its flags alone. -/
theorem saturatingOperationsClampAndSetSat : Obligations.SaturatingOperationsClampAndSetSat := by
  unfold Obligations.SaturatingOperationsClampAndSetSat
  intro s rd ra b len heven x y
  refine ⟨runs_imp (runs_saturating rfl heven) ?_, runs_imp (runs_saturating rfl heven) ?_⟩ <;>
    rintro t ⟨hrd, hsat, hzs, hcyov, hplain, hdraws⟩
  · exact ⟨_, hrd, hsat, hzs, addCyOv_iff.2 hcyov, hplain, hdraws⟩
  · exact ⟨_, hrd, hsat, hzs, subCyOv_iff.2 hcyov, hplain, hdraws⟩

/-- SAT is in the write-set of the two saturating operations alone. -/
theorem saturating_of_four_mem {i : Instr} {bits : List Nat} (hbits : pswWrites i = some bits) (h4 : 4 ∈ bits) :
    (∃ rd ra b len, i = .satadd rd ra b len) ∨ ∃ rd ra b len, i = .satsub rd ra b len := by
  cases i with
  | satadd rd ra b len => exact .inl ⟨rd, ra, b, len, rfl⟩
  | satsub rd ra b len => exact .inr ⟨rd, ra, b, len, rfl⟩
  | ctret | reti => cases hbits
  | trap | ldsr | popml =>
    simp only [pswWrites] at hbits
    split at hbits <;> cases hbits <;> exact absurd h4 (by decide)
  | _ =>
    cases hbits
    exact absurd h4 (by decide)

/-- Settles O14: a saturating operation sets SAT or keeps it, and SAT is in no other write-set. -/
theorem satIsClearedOnlyByWholePswLoads : Obligations.SatIsClearedOnlyByWholePswLoads := by
  unfold Obligations.SatIsClearedOnlyByWholePswLoads
  intro i s t hexec hload hsat
  obtain ⟨bits, hbits⟩ := Option.ne_none_iff_exists'.1 hload
  by_cases h4 : 4 ∈ bits
  · have hset {ov : Bool} (h : t.psw.getLsbD 4 = (s.psw.getLsbD 4 || ov)) : t.psw.getLsbD 4 = true := by
      rw [h, hsat, Bool.true_or]
    obtain ⟨rd, ra, b, len, rfl⟩ | ⟨rd, ra, b, len, rfl⟩ := saturating_of_four_mem hbits h4
    · exact hset (Ends.of_advanceLen hexec).satFlags.2.2
    · exact hset (Ends.of_advanceLen hexec).satFlags.2.2
  · rw [flagsOutsideTheWriteSetAreKept i s t bits hexec hbits 4 h4, hsat]

/-! ## Z, S, and OV cleared: the logical operations (41_alu.md R166 to R170) -/

theorem Ends.logicFlags {r : Word} {u t : State} (h : Ends (setLogic r u) t) : ZS t r ∧ t.psw.getLsbD 2 = false := by
  simp only [ZS, h.psw, getLsbD_psw_setLogic, ← zf_eq]
  exact ⟨⟨rfl, rfl⟩, rfl⟩

/-- A logical operation that stores its result. -/
theorem runs_logic {i : Instr} {s : State} {rd : Reg} {r : Word} {len : Len}
    (hexec : exec i s = advanceLen len (setLogic r (s.writeReg rd r))) (heven : EvenAddr (s.pc + lenBytes len))
    (hw : PlainWrites i [rd] [0, 1, 2] := by exact ⟨rfl, rfl, fun _ => rfl, rfl⟩) :
    Runs i s fun t => t.readReg rd = r ∧ ZS t r ∧ t.psw.getLsbD 2 = false ∧ Plain s t [rd] [0, 1, 2] len ∧
      t.draws = s.draws := by
  refine runs_imp (runs_plain hexec rfl heven hw) ?_
  rintro t ⟨hend, hplain, hdraws⟩
  obtain ⟨hzs, hov⟩ := hend.logicFlags
  exact ⟨(hend.readReg rd).trans (readReg_writeReg_same ..), hzs, hov, hplain, hdraws⟩

/-- Settles O25: the four that store their result share one form, and TST has its flags alone. -/
theorem logicalOperationsClearOverflowAndKeepCarry : Obligations.LogicalOperationsClearOverflowAndKeepCarry := by
  unfold Obligations.LogicalOperationsClearOverflowAndKeepCarry
  intro s rd ra b len heven x y leaves
  refine ⟨runs_logic rfl heven, runs_logic rfl heven, runs_logic rfl heven, runs_logic rfl heven,
    runs_imp (runs_plain rfl rfl heven) ?_⟩
  rintro t ⟨hend, hplain, hdraws⟩
  obtain ⟨hzs, hov⟩ := hend.logicFlags
  exact ⟨hzs, hov, hplain, hdraws⟩

/-! ## Shifts (41_alu.md R155, R171 to R173) -/

theorem shiftAmount_eq (b : OperandB) (s : State) : shiftAmount b s = (opB b s).toNat % 32 := by
  rw [shiftAmount, BitVec.extractLsb'_toNat, Nat.shiftRight_zero]

theorem Ends.shiftFlags {r : Word} {cy drawn : Bool} {u t : State} (h : Ends (countDraw drawn (setShift r cy u)) t) :
    ZS t r ∧ t.psw.getLsbD 3 = cy ∧ t.psw.getLsbD 2 = false := by
  simp only [ZS, h.psw, countDraw_psw, getLsbD_psw_setShift, ← zf_eq]
  exact ⟨⟨rfl, rfl⟩, rfl, rfl⟩

/-- A shift by `sh` whose result is `r`. -/
theorem runs_shift {i : Instr} {s : State} {rd : Reg} {r : Word} {sh : Nat} {lastOut : Bool} {len : Len}
    (hexec : exec i s = advanceLen len
      (countDraw (sh == 0) (setShift r (shiftCarry sh lastOut s) (s.writeReg rd r))))
    (heven : EvenAddr (s.pc + lenBytes len))
    (hw : PlainWrites i [rd] [0, 1, 2, 3] := by exact ⟨rfl, rfl, fun _ => rfl, rfl⟩) :
    Runs i s fun t => t.readReg rd = r ∧ ZS t r ∧ t.psw.getLsbD 3 = shiftCarry sh lastOut s ∧
      t.psw.getLsbD 2 = false ∧ Plain s t [rd] [0, 1, 2, 3] len ∧ (sh ≠ 0 → t.draws = s.draws) := by
  refine runs_imp (runs_plain hexec (by rw [countDraw_pc]; rfl) heven hw) ?_
  rintro t ⟨hend, hplain, hdraws⟩
  obtain ⟨hzs, hcy, hov⟩ := hend.shiftFlags
  refine ⟨?_, hzs, hcy, hov, hplain, fun hne => ?_⟩
  · rw [hend.readReg, readReg_countDraw, readReg_setShift, readReg_writeReg_same]
  · rw [hdraws, beq_false_of_ne hne]
    rfl

/-- A shift by `sh` in 1..31 carries the last bit out and takes no free value. -/
theorem runs_shift_of_pos {i : Instr} {s : State} {rd : Reg} {r : Word} {sh : Nat} {lastOut : Bool} {len : Len}
    (hexec : exec i s = advanceLen len
      (countDraw (sh == 0) (setShift r (shiftCarry sh lastOut s) (s.writeReg rd r))))
    (hpos : 1 ≤ sh) (heven : EvenAddr (s.pc + lenBytes len))
    (hw : PlainWrites i [rd] [0, 1, 2, 3] := by exact ⟨rfl, rfl, fun _ => rfl, rfl⟩) :
    Runs i s fun t => t.readReg rd = r ∧ ZS t (t.readReg rd) ∧ t.psw.getLsbD 3 = lastOut ∧
      t.psw.getLsbD 2 = false ∧ Plain s t [rd] [0, 1, 2, 3] len ∧ t.draws = s.draws := by
  have hne : sh ≠ 0 := Nat.ne_of_gt hpos
  refine runs_imp (runs_shift hexec heven hw) ?_
  rintro t ⟨hrd, hzs, hcy, hov, hplain, hdraws⟩
  exact ⟨hrd, hrd ▸ hzs, hcy.trans (if_neg hne), hov, hplain, hdraws hne⟩

/-- Settles O26: the three shifts differ in the result and the last bit out. -/
theorem shiftsCarryTheLastBitOut : Obligations.ShiftsCarryTheLastBitOut := by
  unfold Obligations.ShiftsCarryTheLastBitOut
  intro s rd ra b len sh heven hsh hpos x leaves
  rw [← shiftAmount_eq] at hsh
  subst hsh
  refine ⟨runs_imp (runs_shift_of_pos rfl hpos heven) fun t ⟨hrd, hleaves⟩ => ⟨?_, hleaves⟩,
    runs_imp (runs_shift_of_pos rfl hpos heven) fun t ⟨hrd, hleaves⟩ => ⟨?_, hleaves⟩,
    runs_imp (runs_shift_of_pos rfl hpos heven) fun t ⟨hrd, hleaves⟩ => ⟨?_, hleaves⟩⟩
  · rw [hrd, BitVec.toNat_shiftLeft, Nat.shiftLeft_eq]
  · rw [hrd, BitVec.toNat_ushiftRight, Nat.shiftRight_eq_div_pow]
  · rw [hrd, BitVec.toInt_sshiftRight, Int.shiftRight_eq_div_pow, Nat.cast_pow, Nat.cast_ofNat]

/-- A shift of which CY and the draw are left open; its value is given in another form. -/
theorem runs_shift_value {i : Instr} {s : State} {rd : Reg} {v r : Word} {sh : Nat} {lastOut : Bool} {len : Len}
    (hexec : exec i s = advanceLen len
      (countDraw (sh == 0) (setShift v (shiftCarry sh lastOut s) (s.writeReg rd v))))
    (hr : v = r) (heven : EvenAddr (s.pc + lenBytes len))
    (hw : PlainWrites i [rd] [0, 1, 2, 3] := by exact ⟨rfl, rfl, fun _ => rfl, rfl⟩) :
    Runs i s fun t => t.readReg rd = r ∧ ZS t r ∧ t.psw.getLsbD 2 = false ∧ Plain s t [rd] [0, 1, 2, 3] len := by
  subst hr
  refine runs_imp (runs_shift hexec heven hw) ?_
  rintro t ⟨hrd, hzs, -, hov, hplain, -⟩
  exact ⟨hrd, hzs, hov, hplain⟩

/-- Settles O27: a shift by zero is the identity, whatever its CY. -/
theorem shiftByZeroKeepsTheValue : Obligations.ShiftByZeroKeepsTheValue := by
  unfold Obligations.ShiftByZeroKeepsTheValue
  intro s rd ra b len heven hsh x leaves
  rw [← shiftAmount_eq] at hsh
  exact ⟨runs_shift_value rfl (by rw [hsh, BitVec.shiftLeft_zero]) heven,
    runs_shift_value rfl (by rw [hsh, BitVec.ushiftRight_zero]) heven,
    runs_shift_value rfl (by rw [hsh, BitVec.sshiftRight_zero]) heven⟩

/-! ## Moves and extensions: no flag (41_alu.md R161, R174 to R178) -/

/-- A command that writes one register and ends with `Next(len)`; the value is given in the statement's form. -/
theorem runs_writeReg {i : Instr} {s : State} {rd : Reg} {v r : Word} {len : Len}
    (hexec : exec i s = advanceLen len (s.writeReg rd v)) (hr : v = r) (heven : EvenAddr (s.pc + lenBytes len))
    (hw : PlainWrites i [rd] [] := by exact ⟨rfl, rfl, fun _ => rfl, rfl⟩) :
    Runs i s fun t => t.readReg rd = r ∧ Plain s t [rd] [] len ∧ t.draws = s.draws := by
  subst hr
  refine runs_imp (runs_plain hexec rfl heven hw) ?_
  rintro t ⟨hend, hplain, hdraws⟩
  exact ⟨(hend.readReg rd).trans (readReg_writeReg_same ..), hplain, hdraws⟩

/-- Sign extension is of the low bits. -/
theorem sextField_eq {n : Nat} (y : Word) (hn : n ≤ 32) : sextField n y = (y.extractLsb' 0 n).signExtend 32 := by
  rw [sextField, BitVec.setWidth_eq_extractLsb' hn]

/-- Zero extension masks the low bits. -/
theorem zextField_eq_and (n : Nat) (y : Word) : zextField n y = y &&& BitVec.ofNat 32 (2 ^ n - 1) := by
  apply BitVec.eq_of_getLsbD_eq
  intro k hk
  rw [getLsbD_zextField y hk, BitVec.getLsbD_and, BitVec.getLsbD_ofNat, Nat.testBit_two_pow_sub_one, decide_eq_true hk,
    Bool.true_and, Bool.and_comm]

/-- Settles O28: each writes one register and no flag, and the extensions are those of the low bits. -/
theorem movesAndExtensionsWriteNoFlag : Obligations.MovesAndExtensionsWriteNoFlag := by
  unfold Obligations.MovesAndExtensionsWriteNoFlag
  intro s rd ra b len heven y leaves
  exact ⟨runs_writeReg rfl rfl heven, runs_writeReg rfl rfl heven,
    runs_writeReg rfl (sextField_eq y (by decide)) heven, runs_writeReg rfl (sextField_eq y (by decide)) heven,
    runs_writeReg rfl (zextField_eq_and 8 y) heven, runs_writeReg rfl (zextField_eq_and 16 y) heven⟩

end Sys2Proof.Proofs
end

section
/-! The multiply engine (42_multiply.md R200 to R205): the exactness of the products that are stored, what the three
operations leave, and the engine's own half-word algorithm against the exact product. -/

namespace Sys2Proof.Proofs

open Sys2Proof.Machine Sys2Proof.Claims

/-! ## The exact products and their words (42_multiply.md R200) -/

theorem highWord_append_lowWord (p : BitVec 64) : highWord p ++ lowWord p = p := by
  rw [highWord, lowWord, BitVec.extractLsb'_append_extractLsb'_eq_extractLsb' (by rfl), BitVec.extractLsb'_eq_self]

theorem toNat_append_word (hi lo : Word) : (hi ++ lo).toNat = hi.toNat * 2 ^ 32 + lo.toNat := by
  rw [BitVec.toNat_append, ← Nat.shiftLeft_add_eq_or_of_lt lo.isLt, Nat.shiftLeft_eq]

theorem toInt_append_word (hi lo : Word) : (hi ++ lo).toInt = hi.toInt * 2 ^ 32 + lo.toNat := by
  rw [BitVec.toInt_append, if_neg (by decide), mul_comm]

/-- The signed product of two `n`-bit values fits in `2 * n` bits. -/
theorem toInt_signExtend_mul_signExtend {n m : Nat} (x y : BitVec n) (hn : 1 ≤ n) (h : 2 * n ≤ m) :
    (x.signExtend m * y.signExtend m).toInt = x.toInt * y.toInt := by
  have hbound : (2 : Int) ^ (n * 2 - 2) * 2 < 2 ^ m := by
    rw [← pow_succ]
    exact pow_lt_pow_right₀ (by decide) (by omega)
  have hlower := BitVec.le_toInt_mul_toInt (x := x) (y := y)
  have hupper := BitVec.toInt_mul_toInt_le (x := x) (y := y)
  rw [BitVec.toInt_mul, BitVec.toInt_signExtend_of_le (by omega), BitVec.toInt_signExtend_of_le (by omega)]
  refine Int.bmod_eq_of_le_mul_two ?_ ?_ <;> push_cast <;> omega

theorem toNat_mulU64 (a b : Word) : (mulU64 a b).toNat = a.toNat * b.toNat := by
  rw [mulU64, BitVec.toNat_mul, BitVec.toNat_setWidth_of_le (by decide), BitVec.toNat_setWidth_of_le (by decide),
    Nat.mod_eq_of_lt ((Nat.mul_lt_mul'' a.isLt b.isLt).trans_eq (by decide))]

theorem toInt_mulS64 (a b : Word) : (mulS64 a b).toInt = a.toInt * b.toInt :=
  toInt_signExtend_mul_signExtend a b (by decide) (by decide)

/-! ## MUL, MULU and MULH (42_multiply.md R202 to R205) -/

/-- A command that writes the two words of the product `p`, the low one first, and ends with `Next(len)`. -/
theorem runs_writeProduct {i : Instr} {s : State} {rd rd2 : Reg} {p : BitVec 64} {len : Len}
    (hexec : exec i s = advanceLen len (writeProduct rd rd2 p s)) (heven : EvenAddr (s.pc + lenBytes len))
    (hw : PlainWrites i [rd, rd2] [] := by exact ⟨rfl, rfl, fun _ => rfl, rfl⟩) :
    Runs i s fun t => t.readReg rd2 = highWord p ∧ (rd ≠ rd2 → t.readReg rd = lowWord p) ∧
      Plain s t [rd, rd2] [] len ∧ t.draws = s.draws := by
  refine runs_imp (runs_plain hexec rfl heven hw) ?_
  rintro t ⟨hend, hplain, hdraws⟩
  refine ⟨?_, fun hne => ?_, hplain, hdraws⟩
  · rw [hend.readReg, writeProduct, readReg_writeReg_same]
  · rw [hend.readReg, writeProduct, readReg_writeReg, if_neg hne.symm, readReg_writeReg_same]

/-- Settles O30: the two words written are those of a product that is exact. -/
theorem multiplyStoresTheExactProduct : Obligations.MultiplyStoresTheExactProduct := by
  unfold Obligations.MultiplyStoresTheExactProduct
  intro s rd rd2 ra b len heven x y leaves
  refine ⟨⟨lowWord (mulS64 x y), highWord (mulS64 x y), ?_, runs_writeProduct rfl heven⟩,
    ⟨lowWord (mulU64 x y), highWord (mulU64 x y), ?_, runs_writeProduct rfl heven⟩⟩
  · rw [← toInt_append_word, highWord_append_lowWord, toInt_mulS64]
  · rw [← toNat_append_word, highWord_append_lowWord, toNat_mulU64]

/-- Settles O31: the product of the sign-extended low halves is exact in 32 bits. -/
theorem mulhMultipliesTheLowHalves : Obligations.MulhMultipliesTheLowHalves := by
  unfold Obligations.MulhMultipliesTheLowHalves
  intro s rd ra b len heven
  refine runs_imp (runs_writeReg rfl rfl heven) ?_
  rintro t ⟨hrd, hplain⟩
  refine ⟨?_, hplain⟩
  rw [hrd, sextField_eq _ (by decide), sextField_eq _ (by decide),
    toInt_signExtend_mul_signExtend _ _ (by decide) (by decide)]

/-! ## The engine's algorithm (42_multiply.md R201) -/

/-- A word by its halves. -/
theorem toNat_halves (a : Word) : a.toNat = (a >>> 16).toNat * 2 ^ 16 + (zextField 16 a).toNat := by
  rw [BitVec.toNat_ushiftRight, Nat.shiftRight_eq_div_pow, zextField, BitVec.toNat_setWidth, BitVec.toNat_setWidth]
  omega

theorem toNat_low_half_lt (a : Word) : (zextField 16 a).toNat < 2 ^ 16 := by
  rw [zextField, BitVec.toNat_setWidth, BitVec.toNat_setWidth]
  omega

theorem toNat_high_half_lt (a : Word) : (a >>> 16).toNat < 2 ^ 16 := by
  have := toNat_halves a
  omega

/-- A partial product of two halves is exact in 32 bits. -/
theorem toNat_partial_product {x y : Word} (hx : x.toNat < 2 ^ 16) (hy : y.toNat < 2 ^ 16) :
    (x * y).toNat = x.toNat * y.toNat := by
  rw [BitVec.toNat_mul, Nat.mod_eq_of_lt ((Nat.mul_lt_mul'' hx hy).trans_eq (by decide))]

/-- The carry is what a 32-bit addition loses. -/
theorem toNat_engineCarry (x y : Word) : (engineCarry x y).toNat = (x.toNat + y.toNat) / 2 ^ 32 := by
  rw [engineCarry]
  split
  · change 1 = _
    omega
  · change 0 = _
    omega

/-- The pair of accumulation words as one 64-bit value. -/
def accumulated (p : Word × Word) : BitVec 64 := p.1 ++ p.2

theorem toNat_accumulated (p : Word × Word) : (accumulated p).toNat = p.1.toNat * 2 ^ 32 + p.2.toNat :=
  toNat_append_word ..

/-- Adding a cross product with the carry from the low word to the high word is a 64-bit addition, modulo 2^64. -/
theorem toNat_accumulated_engineAccumulate (m hi lo : Word) :
    (accumulated (engineAccumulate m hi lo)).toNat =
      (hi.toNat * 2 ^ 32 + lo.toNat + m.toNat * 2 ^ 16) % 2 ^ 64 := by
  simp only [toNat_accumulated, engineAccumulate, BitVec.toNat_add, toNat_engineCarry, BitVec.toNat_shiftLeft,
    BitVec.toNat_ushiftRight, Nat.shiftLeft_eq, Nat.shiftRight_eq_div_pow]
  omega

/-- The unsigned algorithm gives the exact product. -/
theorem accumulated_engineMulU (a b : Word) : accumulated (engineMulU a b) = mulU64 a b := by
  apply BitVec.eq_of_toNat_eq
  have hal := toNat_low_half_lt a
  have hah := toNat_high_half_lt a
  have hbl := toNat_low_half_lt b
  have hbh := toNat_high_half_lt b
  rw [← Nat.mod_eq_of_lt (mulU64 a b).isLt, toNat_mulU64, engineMulU, toNat_accumulated_engineAccumulate,
    ← toNat_accumulated, toNat_accumulated_engineAccumulate, Nat.mod_add_mod, toNat_partial_product hah hbh,
    toNat_partial_product hal hbl, toNat_partial_product hal hbh, toNat_partial_product hah hbl, toNat_halves a,
    toNat_halves b]
  congr 1
  ring

/-- The magnitude the signed algorithm multiplies. -/
def engineMagnitude (a : Word) : Word := if a.getLsbD 31 then 0 - a else a

/-- A signed operand is its magnitude, negated where the operand is negative; 0x80000000 has the magnitude 2^31. -/
theorem signExtend_eq_magnitude (a : Word) :
    a.signExtend 64 = if a.getLsbD 31 then -(engineMagnitude a).setWidth 64 else (engineMagnitude a).setWidth 64 := by
  have hmsb : a.msb = a.getLsbD 31 := BitVec.msb_eq_getLsbD_last a
  cases hneg : a.getLsbD 31 with
  | false => simp only [engineMagnitude, hneg, Bool.false_eq_true, if_false,
      BitVec.signExtend_eq_setWidth_of_msb_false (hmsb.trans hneg)]
  | true =>
    have hbig := BitVec.msb_eq_true_iff_two_mul_ge.1 (hmsb.trans hneg)
    apply BitVec.eq_of_toNat_eq
    simp only [BitVec.toNat_signExtend, engineMagnitude, hmsb, hneg, if_true, zero_sub, BitVec.toNat_neg,
      BitVec.toNat_setWidth]
    omega

/-- The signed algorithm by the unsigned one: it negates the 64-bit product of the magnitudes where the signs differ. -/
theorem accumulated_engineMulS (a b : Word) : accumulated (engineMulS a b) =
    if a.getLsbD 31 ^^ b.getLsbD 31 then -accumulated (engineMulU (engineMagnitude a) (engineMagnitude b))
    else accumulated (engineMulU (engineMagnitude a) (engineMagnitude b)) := by
  simp only [engineMulS, engineMagnitude]
  split
  · rw [accumulated, highWord_append_lowWord, zero_sub, accumulated]
  · rfl

/-- Settles O32: the unsigned algorithm by the halves of its operands, the signed one by the rule of signs. -/
theorem multiplyEngineComputesTheExactProduct : Obligations.MultiplyEngineComputesTheExactProduct := by
  unfold Obligations.MultiplyEngineComputesTheExactProduct
  intro a b
  refine ⟨accumulated_engineMulU a b, (accumulated_engineMulS a b).trans ?_⟩
  rw [accumulated_engineMulU, mulU64, mulS64, signExtend_eq_magnitude, signExtend_eq_magnitude]
  cases a.getLsbD 31 <;> cases b.getLsbD 31
  · rfl
  · exact (mul_neg _ _).symm
  · exact (neg_mul _ _).symm
  · exact (neg_mul_neg _ _).symm

end Sys2Proof.Proofs
end

section
/-! The division engine (43_divide.md R220 to R233): its exact results and when they overflow, what the six operations
leave, and the restoring algorithm against the exact results. -/

namespace Sys2Proof.Proofs

open Sys2Proof.Machine Sys2Proof.Claims

/-! ## Truncating division of integers (43_divide.md R221) -/

theorem tmod_nonpos {x : Int} (y : Int) (hx : x ≤ 0) : x.tmod y ≤ 0 := by
  have h := Int.tmod_nonneg y (neg_nonneg.2 hx)
  rwa [Int.neg_tmod, neg_nonneg] at h

theorem abs_tmod_lt (x : Int) {y : Int} (hy : y ≠ 0) : |x.tmod y| < |y| := by
  rw [Int.abs_eq_natAbs, Int.abs_eq_natAbs, Int.natAbs_tmod, Int.ofNat_lt]
  exact Nat.mod_lt _ (Int.natAbs_pos.2 hy)

theorem dividesTo_tdiv_tmod (x : Int) {y : Int} (hy : y ≠ 0) : DividesTo x y (x.tdiv y) (x.tmod y) :=
  ⟨(Int.tdiv_mul_add_tmod x y).symm, abs_tmod_lt x hy, Int.tmod_nonneg y, tmod_nonpos y⟩

/-- The quotient of the magnitudes, negated where the signs differ. -/
theorem tdiv_eq_magnitudes (x y : Int) :
    x.tdiv y = if decide (x < 0) ^^ decide (y < 0) then -((x.natAbs / y.natAbs : Nat) : Int)
      else ((x.natAbs / y.natAbs : Nat) : Int) := by
  rw [Int.ofNat_tdiv, Int.natCast_natAbs, Int.natCast_natAbs]
  rcases lt_or_ge x 0 with hx | hx <;> rcases lt_or_ge y 0 with hy | hy
  · simp [hx, hy, abs_of_neg, Int.neg_tdiv, Int.tdiv_neg]
  · simp [hx, hy.not_gt, abs_of_neg, abs_of_nonneg hy, Int.neg_tdiv]
  · simp [hx.not_gt, hy, abs_of_neg, abs_of_nonneg hx, Int.tdiv_neg]
  · simp [hx.not_gt, hy.not_gt, abs_of_nonneg hx, abs_of_nonneg hy]

/-- The remainder of the magnitudes, negated where the dividend is negative. -/
theorem tmod_eq_magnitudes (x y : Int) :
    x.tmod y = if x < 0 then -((x.natAbs % y.natAbs : Nat) : Int) else ((x.natAbs % y.natAbs : Nat) : Int) := by
  have habs := Int.natAbs_tmod x y
  split
  next hx => have := tmod_nonpos y (le_of_lt hx); omega
  next hx => have := Int.tmod_nonneg y (not_lt.1 hx); omega

/-! ## Overflow and the stored results (43_divide.md R221, R222) -/

theorem divisor_ne_zero {sg : Signedness} {n : Nat} {a b : Word} (h : ¬ divOverflow sg n a b = true) : b ≠ 0 :=
  fun hb => h (by rw [divOverflow, beq_iff_eq.2 hb, Bool.true_or])

theorem divOverflow_signed_iff (n : Nat) (a b : Word) : divOverflow .signed n a b = true ↔
    b = 0 ∨ a.toInt.tdiv b.toInt < -(2 ^ (n - 1)) ∨ 2 ^ (n - 1) - 1 < a.toInt.tdiv b.toInt := by
  simp only [divOverflow, divFits, Bool.or_eq_true, beq_iff_eq, Bool.not_eq_true', Bool.and_eq_false_iff,
    decide_eq_false_iff_not, not_le]
  rfl

theorem divExact_unsigned (a b : Word) : divExact .unsigned a b = ((a.toNat / b.toNat : Nat) : Int) :=
  (Int.ofNat_tdiv ..).symm

theorem divOverflow_unsigned_iff (n : Nat) (a b : Word) : divOverflow .unsigned n a b = true ↔
    b = 0 ∨ 2 ^ n - 1 < a.toNat / b.toNat := by
  have hpos := Nat.two_pow_pos n
  simp only [divOverflow, divFits, divExact_unsigned, Bool.or_eq_true, beq_iff_eq, Bool.not_eq_true',
    Bool.and_eq_false_iff, decide_eq_false_iff_not, not_le]
  refine or_congr_right ?_
  rw [← Nat.cast_two (R := Int), ← Nat.cast_pow]
  generalize a.toNat / b.toNat = q
  omega

/-- The remainder R221 defines by the quotient is the truncating one. -/
theorem divR_eq (sg : Signedness) (a b : Word) :
    divR sg a b = BitVec.ofInt 32 ((divValue sg a).tmod (divValue sg b)) := by
  rw [divR, divExact, Int.tmod_def, mul_comm]

theorem toInt_divQ_signed {n : Nat} {a b : Word} (hn : n ≤ 32) (h : ¬ divOverflow .signed n a b = true) :
    (divQ .signed a b).toInt = a.toInt.tdiv b.toInt := by
  rw [divOverflow_signed_iff, not_or, not_or, not_lt, not_lt] at h
  obtain ⟨-, hlower, hupper⟩ := h
  have hpow : (2 : Int) ^ (n - 1) ≤ 2 ^ (32 - 1) := pow_le_pow_right₀ (by decide) (by omega)
  exact BitVec.toInt_ofInt_eq_self (by decide) (le_trans (neg_le_neg hpow) hlower)
    ((Int.lt_of_le_sub_one hupper).trans_le hpow)

theorem toInt_divR_signed {a b : Word} (hb : b ≠ 0) : (divR .signed a b).toInt = a.toInt.tmod b.toInt := by
  have hlt := abs_lt.1 (abs_tmod_lt a.toInt (BitVec.toInt_ne.2 hb))
  have hmag : |b.toInt| ≤ 2 ^ (32 - 1) := abs_le.2 ⟨BitVec.le_toInt b, le_of_lt BitVec.toInt_lt⟩
  rw [divR_eq, divValue, divValue]
  exact BitVec.toInt_ofInt_eq_self (by decide) (by omega) (by omega)

theorem toNat_divQ_unsigned (a b : Word) : (divQ .unsigned a b).toNat = a.toNat / b.toNat := by
  rw [divQ, divExact_unsigned, BitVec.ofInt_natCast, BitVec.toNat_ofNat,
    Nat.mod_eq_of_lt ((Nat.div_le_self ..).trans_lt a.isLt)]

theorem toNat_divR_unsigned (a b : Word) : (divR .unsigned a b).toNat = a.toNat % b.toNat := by
  rw [divR_eq, divValue, divValue, ← Int.ofNat_tmod, BitVec.ofInt_natCast, BitVec.toNat_ofNat,
    Nat.mod_eq_of_lt ((Nat.mod_le ..).trans_lt a.isLt)]

theorem signed_dividesTo {n : Nat} {a b : Word} (hn : n ≤ 32) (h : ¬ divOverflow .signed n a b = true) :
    DividesTo a.toInt b.toInt (divQ .signed a b).toInt (divR .signed a b).toInt := by
  have hb : b ≠ 0 := divisor_ne_zero h
  rw [toInt_divQ_signed hn h, toInt_divR_signed hb]
  exact dividesTo_tdiv_tmod _ (BitVec.toInt_ne.2 hb)

theorem unsigned_dividesTo {n : Nat} {a b : Word} (h : ¬ divOverflow .unsigned n a b = true) :
    DividesTo a.toNat b.toNat (divQ .unsigned a b).toNat (divR .unsigned a b).toNat := by
  have hb : b ≠ 0 := divisor_ne_zero h
  rw [toNat_divQ_unsigned, toNat_divR_unsigned, Int.ofNat_tdiv, Int.ofNat_tmod]
  exact dividesTo_tdiv_tmod _ (Int.natCast_ne_zero.2 fun h => hb (BitVec.eq_of_toNat_eq h))

/-! ## The six operations (43_divide.md R223 to R225, R228 to R233) -/

theorem Ends.divideFlags {ov : Bool} {q r : Word} {rd : Reg} {rem : Option Reg} {s t : State}
    (h : Ends (divideState ov q r rd rem s) t) : ZS t q ∧ t.psw.getLsbD 2 = ov := by
  simp only [ZS, h.psw, getLsbD_psw_divideState, ← zf_eq]
  exact ⟨⟨rfl, rfl⟩, rfl⟩

/-- The written state of a divide, ended: the remainder's register is written last. -/
theorem runs_divideState {i : Instr} {s : State} {ov : Bool} {q r : Word} {rd : Reg} {rem : Option Reg} {len : Len}
    (hexec : exec i s = advanceLen len (divideState ov q r rd rem s)) (heven : EvenAddr (s.pc + lenBytes len))
    (hw : PlainWrites i (rd :: rem.toList) [0, 1, 2]) :
    Runs i s fun t => DivideLeaves s t rd rem len q r (ov = true) := by
  refine runs_imp (runs_plain hexec (divideState_pc ..) heven hw) ?_
  rintro t ⟨hend, hplain, -⟩
  obtain ⟨hzs, hov⟩ := hend.divideFlags
  refine ⟨fun rd2 hrem => ?_, fun hrem => ?_, hzs, by rw [hov], hplain⟩
  · rw [hend.readReg, readReg_divideState, if_pos hrem]
  · rw [hend.readReg, readReg_divideState, if_neg hrem, if_pos rfl]

/-- A divide stores some quotient and remainder, those of R221 where it does not overflow. -/
theorem runs_divideInto {i : Instr} {sg : Signedness} {n : Nat} {a b : Word} {s : State} {rd : Reg} {rem : Option Reg}
    {len : Len} {ov : Prop} {Exact : Word → Word → Prop} (hexec : exec i s = divideInto sg n a b rd rem len s)
    (hov : divOverflow sg n a b = true ↔ ov) (hexact : ¬ divOverflow sg n a b = true → Exact (divQ sg a b) (divR sg a b))
    (heven : EvenAddr (s.pc + lenBytes len)) (hw : PlainWrites i (rd :: rem.toList) [0, 1, 2]) :
    Runs i s fun t => ∃ q r, DivideLeaves s t rd rem len q r ov ∧ (¬ ov → Exact q r) := by
  obtain rfl := propext hov
  refine runs_imp (runs_divideState (hexec.trans (divideInto_eq ..)) heven hw) ?_
  intro t hleaves
  refine ⟨_, _, hleaves, fun hfits => ?_⟩
  rw [if_neg hfits, if_neg hfits]
  exact hexact hfits

theorem runs_signedDivide {i : Instr} {n : Nat} {a b y : Word} {s : State} {rd : Reg} {rem : Option Reg} {len : Len}
    (hexec : exec i s = divideInto .signed n a b rd rem len s) (hy : b = y) (heven : EvenAddr (s.pc + lenBytes len))
    (hn : n ≤ 32) (hw : PlainWrites i (rd :: rem.toList) [0, 1, 2] := by exact ⟨rfl, rfl, fun _ => rfl, rfl⟩) :
    Runs i s fun t => SignedDivide s t n a y rd rem len := by
  subst hy
  exact runs_divideInto hexec (divOverflow_signed_iff n a b) (signed_dividesTo hn) heven hw

theorem runs_unsignedDivide {i : Instr} {n : Nat} {a b y : Word} {s : State} {rd : Reg} {rem : Option Reg} {len : Len}
    (hexec : exec i s = divideInto .unsigned n a b rd rem len s) (hy : b = y) (heven : EvenAddr (s.pc + lenBytes len))
    (hw : PlainWrites i (rd :: rem.toList) [0, 1, 2] := by exact ⟨rfl, rfl, fun _ => rfl, rfl⟩) :
    Runs i s fun t => UnsignedDivide s t n a y rd rem len := by
  subst hy
  exact runs_divideInto hexec (divOverflow_unsigned_iff n a b) unsigned_dividesTo heven hw

/-- Settles O33: the three differ in the width and the divisor alone. -/
theorem signedDividesTruncateOrOverflow : Obligations.SignedDividesTruncateOrOverflow := by
  unfold Obligations.SignedDividesTruncateOrOverflow
  intro s rd ra rem b n len heven _ hn x y
  exact ⟨runs_signedDivide rfl rfl heven le_rfl, runs_signedDivide rfl rfl heven hn,
    runs_signedDivide rfl (sextField_eq y (by decide)) heven le_rfl⟩

/-- Settles O34: the three differ in the width and the divisor alone. -/
theorem unsignedDividesTruncateOrOverflow : Obligations.UnsignedDividesTruncateOrOverflow := by
  unfold Obligations.UnsignedDividesTruncateOrOverflow
  intro s rd ra rem b n len heven _ _ x y
  exact ⟨runs_unsignedDivide rfl rfl heven, runs_unsignedDivide rfl rfl heven,
    runs_unsignedDivide rfl (zextField_eq_and 16 y) heven⟩

/-! ## The restoring algorithm (43_divide.md R226) -/

/-- From a partial remainder below the divisor, the last `k` iterations divide it with the `k` low bits of the dividend
appended. -/
theorem restoringSteps_eq (a b k q r : Nat) (hr : r < b) :
    restoringSteps a b k (q, r) = (q + (r * 2 ^ k + a % 2 ^ k) / b, (r * 2 ^ k + a % 2 ^ k) % b) := by
  induction k generalizing q r with
  | zero => simp [restoringSteps, Nat.mod_one, Nat.div_eq_of_lt hr, Nat.mod_eq_of_lt hr]
  | succ k ih =>
    have hbit : r * 2 ^ (k + 1) + a % 2 ^ (k + 1) = (2 * r + (a >>> k) % 2) * 2 ^ k + a % 2 ^ k := by
      rw [Nat.mod_pow_succ, Nat.shiftRight_eq_div_pow]
      ring
    rw [hbit]
    simp only [restoringSteps]
    generalize hr' : 2 * r + (a >>> k) % 2 = r'
    split
    next hge =>
      have hsub : r' * 2 ^ k + a % 2 ^ k = (r' - b) * 2 ^ k + a % 2 ^ k + b * 2 ^ k := by
        rw [Nat.sub_mul]
        have := Nat.mul_le_mul_right (2 ^ k) hge
        omega
      rw [ih _ _ (by omega), hsub, Nat.add_mul_div_left _ _ (by omega), Nat.add_mul_mod_self_left, add_assoc,
        add_comm (2 ^ k)]
    next hlt => exact ih _ _ (not_le.1 hlt)

/-- The unsigned algorithm divides, or finds the quotient too wide. -/
theorem restoringU_eq (n a b : Nat) :
    restoringU n a b = if b = 0 ∨ 2 ^ n ≤ a / b then none else some (a / b, a % b) := by
  rw [restoringU]
  by_cases hb : b = 0
  · simp [hb]
  have hwide : a >>> n ≥ b ↔ 2 ^ n ≤ a / b := by
    rw [Nat.shiftRight_eq_div_pow, ge_iff_le, Nat.le_div_iff_mul_le (Nat.two_pow_pos n),
      Nat.le_div_iff_mul_le (Nat.pos_of_ne_zero hb), mul_comm]
  simp only [hb, hwide, if_false, false_or]
  split
  · rfl
  next hfits =>
    rw [restoringSteps_eq _ _ _ _ _ (not_le.1 (mt hwide.1 hfits)), Nat.shiftRight_eq_div_pow, Nat.div_add_mod', zero_add]

theorem getLsbD31_eq_decide (a : Word) : a.getLsbD 31 = decide (a.toInt < 0) :=
  (BitVec.msb_eq_getLsbD_last a).symm.trans BitVec.msb_eq_toInt

/-- A quotient of magnitudes too wide for the unsigned algorithm does not fit in the signed range either. -/
theorem divOverflow_signed_of_wide {n : Nat} (hn : 1 ≤ n) {a b : Word}
    (h : 2 ^ n ≤ a.toInt.natAbs / b.toInt.natAbs) : divOverflow .signed n a b = true := by
  have habs : (a.toInt.tdiv b.toInt).natAbs = a.toInt.natAbs / b.toInt.natAbs := Int.natAbs_tdiv ..
  have hpow := Nat.two_pow_pred_mul_two hn
  have hpos := Nat.two_pow_pos (n - 1)
  rw [divOverflow_signed_iff, ← Nat.cast_two (R := Int), ← Nat.cast_pow]
  omega

/-- The signed algorithm puts the signs back on the results of the magnitudes. -/
theorem restoringS_eq {n : Nat} (hn : 1 ≤ n) (a b : Word) : restoringS n a b =
    if divOverflow .signed n a b then none else some (divQ .signed a b, divR .signed a b) := by
  rw [restoringS, restoringU_eq]
  by_cases hwide : b.toInt.natAbs = 0 ∨ 2 ^ n ≤ a.toInt.natAbs / b.toInt.natAbs
  · have hov : divOverflow .signed n a b = true := by
      rcases hwide with hb | hwide
      · exact (divOverflow_signed_iff n a b).2 (.inl (BitVec.eq_of_toInt_eq (Int.natAbs_eq_zero.1 hb)))
      · exact divOverflow_signed_of_wide hn hwide
    rw [if_pos hwide, if_pos hov]
  · have hb : (b == 0) = false := beq_false_of_ne fun hb => hwide (.inl (by rw [hb]; rfl))
    rw [if_neg hwide]
    simp only [getLsbD31_eq_decide, ← tdiv_eq_magnitudes, decide_eq_true_eq, ← tmod_eq_magnitudes, divOverflow, hb,
      Bool.false_or, divQ, divR_eq, divExact, divValue]
    cases divFits .signed n (a.toInt.tdiv b.toInt) <;> rfl

/-- Settles O35: the algorithms by the quotient and remainder they compute. -/
theorem restoringDivisionGivesTheExactResults : Obligations.RestoringDivisionGivesTheExactResults := by
  unfold Obligations.RestoringDivisionGivesTheExactResults
  intro n a b hn _
  refine ⟨?_, restoringS_eq hn a b⟩
  have hov : (b.toNat = 0 ∨ 2 ^ n ≤ a.toNat / b.toNat) ↔ divOverflow .unsigned n a b = true := by
    have hpos := Nat.two_pow_pos n
    rw [divOverflow_unsigned_iff, ← BitVec.toNat_inj]
    exact or_congr_right (by omega)
  simp only [restoringU_eq, hov, toNat_divQ_unsigned, toNat_divR_unsigned]

end Sys2Proof.Proofs
end

section
/-! The register-list transfers (44_transfer.md R250 to R262): the tables, what a push leaves in memory and a pop in the
slots, then the six instructions and the round trip. -/

namespace Sys2Proof.Proofs

open Sys2Proof.Machine Sys2Proof.Claims

/-! ## The tables (R250, R253, R262) -/

/-- Settles O55: the two flags of the test are PSW bits 7 and 6. -/
theorem contextPairFollowsNpAndEp : Obligations.ContextPairFollowsNpAndEp := by
  unfold Obligations.ContextPairFollowsNpAndEp
  intro s
  have htest : (s.flag .np && !s.flag .ep) = true ↔ s.psw.getLsbD 7 = true ∧ s.psw.getLsbD 6 = false := by
    rw [Bool.and_eq_true, Bool.not_eq_true']
    rfl
  rw [← htest]
  exact ⟨fun h => if_pos h, fun h => if_neg h⟩

theorem contextPair_cases (s : State) :
    contextPair s = (SysReg.eipc, SysReg.eipsw) ∨ contextPair s = (SysReg.fepc, SysReg.fepsw) := by
  unfold contextPair
  split
  · exact .inr rfl
  · exact .inl rfl

theorem contextPair_congr {s t : State} (h : t.psw = s.psw) : contextPair t = contextPair s := by
  rw [contextPair, contextPair, State.flag, State.flag, State.flag, State.flag, h]

theorem regSlots_eq_map_filter (m : BitVec 18) (count base : Nat) : regSlots m count base =
    ((List.range count).filter fun i => m.getLsbD i).map fun i => .reg (Fin.ofNat 32 (base + i)) := by
  rw [regSlots, ← List.filterMap_eq_map, List.filterMap_filter]
  rfl

theorem length_slotsIf_le (m : BitVec 18) (i : Nat) (xs : List Slot) : (slotsIf m i xs).length ≤ xs.length := by
  unfold slotsIf
  split <;> simp

theorem nodup_slotsIf (m : BitVec 18) (i : Nat) {xs : List Slot} (h : xs.Nodup) : (slotsIf m i xs).Nodup := by
  unfold slotsIf
  split
  · exact h
  · exact List.nodup_nil

theorem sys_notMem_regSlots (m : BitVec 18) (count base : Nat) (n : SysReg) : .sys n ∉ regSlots m count base := by
  rw [mem_regSlots]
  rintro ⟨i, -, -, h⟩
  cases h

theorem nodup_tableA (m : BitVec 18) : (tableA m).Nodup := nodup_regSlots m 12 20 (by decide)

theorem length_tableA_le (m : BitVec 18) : (tableA m).length ≤ 12 := length_regSlots_le m 12 20

theorem length_tableB_le (m : BitVec 18) (pair : SysReg × SysReg) : (tableB m pair).length ≤ 18 := by
  have hregs := length_regSlots_le m 16 16
  have hpsw := length_slotsIf_le m 16 [.sys pair.2]
  have hpc := length_slotsIf_le m 17 [.sys pair.1]
  simp only [tableB, List.length_append, List.length_singleton] at *
  omega

theorem length_tableC_le (m : BitVec 18) (pair : SysReg × SysReg) : (tableC m pair).length ≤ 18 := by
  have hregs := length_regSlots_le m 15 1
  have hpsw := length_slotsIf_le m 15 [.sys SysReg.psw]
  have hpair := length_slotsIf_le m 16 [.sys pair.2, .sys pair.1]
  simp only [tableC, List.length_append, List.length_cons, List.length_nil] at *
  omega

/-- Two system-register parts of a table that name different entries follow the registers without a repeat. -/
theorem nodup_regSlots_append {m : BitVec 18} {count base : Nat} (h : base + count ≤ 32) {ys zs : List SysReg} {i j : Nat}
    (hys : (ys ++ zs).Nodup) :
    (regSlots m count base ++ slotsIf m i (ys.map .sys) ++ slotsIf m j (zs.map .sys)).Nodup := by
  have hinj : Function.Injective Slot.sys := fun _ _ h => Slot.sys.inj h
  obtain ⟨hy, hz, hdisj⟩ := List.nodup_append.1 hys
  refine List.nodup_append.2 ⟨List.nodup_append.2 ⟨nodup_regSlots m count base h, nodup_slotsIf m i (hy.map hinj), ?_⟩,
    nodup_slotsIf m j (hz.map hinj), ?_⟩
  · rintro x hx y hmem rfl
    obtain ⟨-, hmem⟩ := mem_slotsIf.1 hmem
    obtain ⟨n, -, rfl⟩ := List.mem_map.1 hmem
    exact sys_notMem_regSlots _ _ _ _ hx
  · rintro x hx y hmem rfl
    obtain ⟨-, hmem⟩ := mem_slotsIf.1 hmem
    obtain ⟨n, hn, rfl⟩ := List.mem_map.1 hmem
    obtain hx | hx := List.mem_append.1 hx
    · exact sys_notMem_regSlots _ _ _ _ hx
    · obtain ⟨-, hx⟩ := mem_slotsIf.1 hx
      obtain ⟨k, hk, heq⟩ := List.mem_map.1 hx
      exact hdisj k hk n hn (hinj heq)

theorem nodup_tableB (m : BitVec 18) {pair : SysReg × SysReg}
    (h : pair = (SysReg.eipc, SysReg.eipsw) ∨ pair = (SysReg.fepc, SysReg.fepsw)) : (tableB m pair).Nodup :=
  nodup_regSlots_append (ys := [pair.2]) (zs := [pair.1]) (by decide) (by obtain rfl | rfl := h <;> decide)

theorem nodup_tableC (m : BitVec 18) {pair : SysReg × SysReg}
    (h : pair = (SysReg.eipc, SysReg.eipsw) ∨ pair = (SysReg.fepc, SysReg.fepsw)) : (tableC m pair).Nodup :=
  nodup_regSlots_append (ys := [SysReg.psw]) (zs := [pair.2, pair.1]) (by decide) (by obtain rfl | rfl := h <;> decide)

/-- Settles O54, table by table. -/
theorem tablesHoldTheirSlotsInOrder : Obligations.TablesHoldTheirSlotsInOrder := by
  unfold Obligations.TablesHoldTheirSlotsInOrder
  intro m pair
  refine ⟨regSlots_eq_map_filter m 12 20, ?_, ?_, nodup_tableA m, length_tableA_le m, fun hpair =>
    ⟨nodup_tableB m hpair, length_tableB_le m pair, nodup_tableC m hpair, length_tableC_le m pair⟩⟩
  · rw [tableB, regSlots_eq_map_filter, List.append_assoc]
    rfl
  · rw [tableC, regSlots_eq_map_filter, List.append_assoc]
    rfl

/-! ## What a push and a pop leave (R251, R252, R254) -/

/-- A push leaves the value of slot `j` in the `j`-th word above the new stack pointer. -/
theorem memRead_pushList (xs : List Slot) (s : State) (hl : xs.length < 2 ^ 30) (j : Nat) (hj : j < xs.length) :
    (pushList xs s).memRead (SlotAddr (s.readReg 3 - BitVec.ofNat 32 (4 * xs.length)) j) 4 = slotValue s xs[j] := by
  -- The store sequence counts the slots from the highest down.
  have hword := read_pushSlots xs.reverse (s.readReg Reg.sp) s (by rwa [List.length_reverse]) (xs.length - 1 - j)
    (by rw [List.length_reverse]; omega)
  have haddr : s.readReg Reg.sp - BitVec.ofNat 32 (4 * (xs.length - 1 - j + 1)) =
      s.readReg 3 - BitVec.ofNat 32 (4 * xs.length) + BitVec.ofNat 32 (4 * j) := by
    obtain ⟨k, hk⟩ : ∃ k, xs.length = j + k + 1 := ⟨xs.length - 1 - j, by omega⟩
    rw [hk, Reg.sp]
    bv_omega
  have hslot : xs.length - 1 - (xs.length - 1 - j) = j := by omega
  rw [haddr] at hword
  simp only [List.getElem_reverse, hslot] at hword
  rw [pushList_eq]
  exact hword

/-- A state with the memory of a push holds the pushed list. -/
theorem pushed_of_mem {xs : List Slot} {s t : State} (hmem : t.mem = (pushList xs s).mem) (hl : xs.length ≤ 18) :
    Pushed s t xs := by
  refine ⟨fun j hj => ?_, fun b hb => ?_⟩
  · rw [State.memRead, hmem]
    exact memRead_pushList xs s (by omega) j hj
  · rw [hmem]
    exact (storedTo_pushList xs s).mem b fun ⟨j, hj, hlt⟩ => absurd hlt (not_lt.2 (hb j hj))

section PopList

variable (xs : List Slot) (c : Word) (s : State)

@[simp] theorem popList_pc : (popList xs c s).pc = s.pc := by rw [popList_eq]; exact popSlots_pc xs c s
@[simp] theorem popList_status : (popList xs c s).status = s.status := by rw [popList_eq]; exact popSlots_status xs c s
@[simp] theorem popList_draws : (popList xs c s).draws = s.draws := by rw [popList_eq]; exact popSlots_draws xs c s

end PopList

/-- A pop leaves the word of every slot but x[3] in it, and the counter in x[3]. -/
theorem popped_popList (xs : List Slot) (c : Word) (s : State) (hn : xs.Nodup) : Popped s (popList xs c s) xs c := by
  rw [popList_eq]
  refine ⟨readReg_writeReg_same .., fun j hj hne => ?_⟩
  have hkept : ∀ x : Slot, x ≠ .reg 3 → ∀ u v, slotValue (State.writeReg u Reg.sp v) x = slotValue u x := by
    intro x hx u v
    cases x with
    | reg r =>
      have hr : Reg.sp ≠ r := fun h => hx (h ▸ rfl)
      rw [slotValue, readReg_writeReg, if_neg hr, slotValue]
    | sys n => rfl
  rw [hkept _ hne]
  exact slotValue_popSlots xs c s hn j hj hne

theorem Ends.slotValue {u t : State} (h : Ends u t) (x : Slot) : slotValue t x = slotValue u x := by
  cases x with
  | reg r => exact h.readReg r
  | sys n => exact h.readSys n

theorem Ends.popped {xs : List Slot} {c : Word} {s t : State} (h : Ends (popList xs c s) t) (hn : xs.Nodup) :
    Popped s t xs c := by
  obtain ⟨hsp, hslots⟩ := popped_popList xs c s hn
  exact ⟨(h.readReg 3).trans hsp, fun j hj hne => (h.slotValue _).trans (hslots j hj hne)⟩

/-- A pop from where a push of the same list ended, over the same memory, restores every slot and x[3] (R261). -/
theorem restored_of_pushed_popped {s t t' u : State} {xs : List Slot} {c : Word} (hpush : Pushed s t xs)
    (hmem : MemKept t t') (hpop : Popped t' u xs c) (hc : c = s.readReg 3 - BitVec.ofNat 32 (4 * xs.length)) :
    (∀ x ∈ xs, slotValue u x = slotValue s x) ∧ u.readReg 3 = s.readReg 3 := by
  obtain ⟨hsp, hslots⟩ := hpop
  have hsp' : u.readReg 3 = s.readReg 3 := by rw [hsp, hc, BitVec.sub_add_cancel]
  refine ⟨fun x hx => ?_, hsp'⟩
  by_cases hx3 : x = .reg 3
  · subst hx3
    exact hsp'
  · obtain ⟨j, hj, rfl⟩ := List.getElem_of_mem hx
    calc slotValue u xs[j]
      _ = t'.memRead (SlotAddr c j) 4 := hslots j hj hx3
      _ = t.memRead (SlotAddr c j) 4 := read_congr _ _ _ _ fun k _ => hmem _
      _ = slotValue s xs[j] := hc ▸ hpush.1 j hj

/-! ## Instructions that complete from a state within their write-sets -/

theorem Ends.draws {u t : State} (h : Ends u t) : t.draws = u.draws := by cases h <;> rfl

/-- A completed instruction that leaves the run status keeps all that is outside its write-sets. -/
theorem exec_keptByStore {i : Instr} {s t : State} (h : exec i s = .next t) (hstatus : t.status = s.status) :
    KeptByStore s t (regWrites i) (sysWrites s i) (pswBits i) := by
  obtain ⟨u, hend, hframe⟩ := exec_completes h
  exact {
    regs := fun q hq => (hend.readReg q).trans (hframe.regs q hq)
    sys := fun k hk hne => (hend.readSys k).trans (hframe.sys k hk hne)
    psw := fun k hk => (congrArg (BitVec.getLsbD · k) hend.psw).trans (hframe.psw k hk)
    status := hstatus
    params := hend.params.trans hframe.params }

/-- What an instruction leaves that writes `u` and ends with `Next(cmd.len)`. -/
theorem runs_advanceLen {i : Instr} {s u : State} {len : Len} (hexec : exec i s = advanceLen len u) (hpc : u.pc = s.pc)
    (hstatus : u.status = s.status) (heven : EvenAddr (s.pc + lenBytes len)) :
    Runs i s fun t => Ends u t ∧ KeptByStore s t (regWrites i) (sysWrites s i) (pswBits i) ∧
      EndsNext s t (lenBytes len) := by
  have hnext := advance_of_even (lenBytes len) u (hpc ▸ heven)
  exact ⟨_, hexec.trans hnext, .of_advance hnext, exec_keptByStore (hexec.trans hnext) hstatus,
    congrArg (· + lenBytes len) hpc, rfl⟩

/-- What an instruction leaves that writes `u` and ends with a `Jump`. -/
theorem runs_jumpTo {i : Instr} {s u : State} {a : Word} (hexec : exec i s = jumpTo a u) (hstatus : u.status = s.status)
    (heven : EvenAddr a) :
    Runs i s fun t => Ends u t ∧ KeptByStore s t (regWrites i) (sysWrites s i) (pswBits i) ∧ EndsJump t a := by
  have hnext := jumpTo_of_even a u heven
  exact ⟨_, hexec.trans hnext, .of_jumpTo hnext, exec_keptByStore (hexec.trans hnext) hstatus, rfl, rfl⟩

/-- A pop stores nothing. -/
theorem Ends.kept_of_popList {xs : List Slot} {c : Word} {s t : State} {rs : List Reg} {ns : List SysReg}
    {bits : List Nat} (h : Ends (popList xs c s) t) (hkept : KeptByStore s t rs ns bits) :
    Kept s t rs ns bits ∧ MemKept s t := by
  obtain ⟨hmem, hprogram⟩ := h.notStored (popList_notStored xs c s)
  exact ⟨⟨hkept, hprogram⟩, fun a => by rw [hmem]⟩

/-! ## PUSHMH and PUSHML, POPMH and POPML (R257 to R260) -/

theorem Ends.readReg_sp_of_pushList {xs : List Slot} {s t : State} (h : Ends (pushList xs s) t) :
    t.readReg 3 = s.readReg 3 - BitVec.ofNat 32 (4 * xs.length) :=
  (h.readReg 3).trans (readReg_pushList xs s 3)

/-- What an instruction leaves that pushes the list `xs`. -/
theorem runs_pushList {i : Instr} {s : State} {xs : List Slot} {len : Len}
    (hexec : exec i s = advanceLen len (pushList xs s)) (hl : xs.length ≤ 18) (heven : EvenAddr (s.pc + lenBytes len)) :
    Runs i s fun t => Pushed s t xs ∧ t.readReg 3 = s.readReg 3 - BitVec.ofNat 32 (4 * xs.length) ∧
      KeptByStore s t (regWrites i) (sysWrites s i) (pswBits i) ∧ EndsNext s t (lenBytes len) ∧ t.draws = s.draws := by
  refine runs_imp (runs_advanceLen hexec (by simp) (by simp) heven) ?_
  rintro t ⟨hend, hkept, hnext⟩
  exact ⟨pushed_of_mem hend.mem hl, hend.readReg_sp_of_pushList, hkept, hnext, hend.draws.trans (pushList_draws xs s)⟩

/-- Settles O58: both push the list of their table. -/
theorem pushesStoreTheirListBelowTheStackPointer : Obligations.PushesStoreTheirListBelowTheStackPointer := by
  unfold Obligations.PushesStoreTheirListBelowTheStackPointer
  intro s m len heven
  exact ⟨runs_pushList rfl (length_tableB_le ..) heven, runs_pushList rfl (length_tableC_le ..) heven⟩

/-- What an instruction leaves that pops the list `xs` from the counter `c` and ends with `Next(cmd.len)`. -/
theorem runs_popList {i : Instr} {s : State} {xs : List Slot} {c : Word} {len : Len}
    (hexec : exec i s = advanceLen len (popList xs c s)) (hn : xs.Nodup) (heven : EvenAddr (s.pc + lenBytes len)) :
    Runs i s fun t => Popped s t xs c ∧ Kept s t (regWrites i) (sysWrites s i) (pswBits i) ∧ MemKept s t ∧
      EndsNext s t (lenBytes len) ∧ t.draws = s.draws := by
  refine runs_imp (runs_advanceLen hexec (by simp) (by simp) heven) ?_
  rintro t ⟨hend, hkept, hnext⟩
  obtain ⟨hkept, hmem⟩ := hend.kept_of_popList hkept
  exact ⟨hend.popped hn, hkept, hmem, hnext, hend.draws.trans (popList_draws xs c s)⟩

theorem pswBits_popml (m : BitVec 18) (len : Len) :
    pswBits (.popml m len) = if m.getLsbD 15 then List.range 32 else [] := by
  simp only [pswBits, pswWrites]
  split <;> rfl

/-- Settles O59: both pop the list of their table. -/
theorem popsLoadTheirListFromTheStackPointer : Obligations.PopsLoadTheirListFromTheStackPointer := by
  unfold Obligations.PopsLoadTheirListFromTheStackPointer
  intro s m len heven
  refine ⟨runs_popList rfl (nodup_tableB m (contextPair_cases s)) heven, ?_⟩
  rw [← pswBits_popml m len]
  exact runs_popList rfl (nodup_tableC m (contextPair_cases s)) heven

/-! ## PREPARE and DISPOSE (R255, R256) -/

theorem frameBytes_eq (f : BitVec 5) : frameBytes f = BitVec.ofNat 32 (4 * f.toNat) := by
  have := f.isLt
  apply BitVec.eq_of_toNat_eq
  rw [frameBytes, BitVec.toNat_shiftLeft, BitVec.toNat_setWidth, BitVec.toNat_ofNat, Nat.shiftLeft_eq]
  omega

section AllocFrame

variable (f : BitVec 5) (s : State)

@[simp] theorem allocFrame_sregs : (allocFrame f s).sregs = s.sregs := rfl
@[simp] theorem allocFrame_pc : (allocFrame f s).pc = s.pc := rfl
@[simp] theorem allocFrame_status : (allocFrame f s).status = s.status := rfl
@[simp] theorem allocFrame_mem : (allocFrame f s).mem = s.mem := rfl
@[simp] theorem allocFrame_draws : (allocFrame f s).draws = s.draws := rfl

theorem readReg_allocFrame_sp : (allocFrame f s).readReg 3 = s.readReg 3 - BitVec.ofNat 32 (4 * f.toNat) := by
  rw [← frameBytes_eq]
  exact readReg_writeReg_same ..

end AllocFrame

/-- The base-pointer write leaves every register but x[30] alone. -/
theorem readReg_writeEp_of_ne (e : EpOption) (s : State) {q : Reg} (hq : Reg.ep ≠ q) :
    (writeEp e s).readReg q = s.readReg q := by
  cases e with
  | none | reserved k => rfl
  | sp | simm16 v | himm16 v | imm32 v => rw [writeEp, readReg_writeReg, if_neg hq]

/-- What PREPARE leaves in x[3]: the counter of its push lowered by the frame. -/
theorem Ends.readReg_sp_of_prepare {m : BitVec 18} {f : BitVec 5} {e : EpOption} {s t : State}
    (h : Ends (writeEp e (allocFrame f (pushList (tableA m) s))) t) :
    t.readReg 3 =
      s.readReg 3 - BitVec.ofNat 32 (4 * (tableA m).length) - BitVec.ofNat 32 (4 * f.toNat) := by
  rw [h.readReg, readReg_writeEp_of_ne _ _ (by decide), readReg_allocFrame_sp, readReg_pushList]
  rfl

theorem Ends.pushed_of_prepare {m : BitVec 18} {f : BitVec 5} {e : EpOption} {s t : State}
    (h : Ends (writeEp e (allocFrame f (pushList (tableA m) s))) t) : Pushed s t (tableA m) :=
  pushed_of_mem (h.mem.trans (by rw [writeEp_mem, allocFrame_mem])) ((length_tableA_le m).trans (by decide))

theorem setWidth_shiftLeft_16 (v : BitVec 16) : v.setWidth 32 <<< 16 = v ++ 0#16 := by
  rw [BitVec.append_def, BitVec.shiftLeftZeroExtend_eq]
  simp

/-- Settles O56: a push, the frame's allocation and the base-pointer write, option by option. -/
theorem prepareStoresTheListThenAllocates : Obligations.PrepareStoresTheListThenAllocates := by
  unfold Obligations.PrepareStoresTheListThenAllocates
  intro s m f e len heven
  refine runs_imp (runs_advanceLen rfl (by simp) (by simp) heven) ?_
  rintro t ⟨hend, hkept, hnext⟩
  have hep {v : Word} (he : writeEp e (allocFrame f (pushList (tableA m) s)) =
      (allocFrame f (pushList (tableA m) s)).writeReg Reg.ep v) : t.readReg 30 = v := by
    rw [hend.readReg, he]
    exact readReg_writeReg_same ..
  refine ⟨hend.pushed_of_prepare, hend.readReg_sp_of_prepare, ?_, ?_, ?_, ?_, hkept, hnext, hend.draws.trans (by simp)⟩
  · rintro rfl
    rw [← hend.readReg_sp_of_prepare, hend.readReg 3, readReg_writeEp_of_ne _ _ (by decide)]
    exact hep rfl
  · rintro v rfl
    exact hep rfl
  · rintro v rfl
    rw [← setWidth_shiftLeft_16]
    exact hep rfl
  · rintro v rfl
    exact hep rfl

/-- Settles O57: DISPOSE pops its list above the frame; with `jmp` it ends as a jump to a register of the restored state. -/
theorem disposeReleasesRestoresAndMayJump : Obligations.DisposeReleasesRestoresAndMayJump := by
  unfold Obligations.DisposeReleasesRestoresAndMayJump
  intro s m f len
  rw [← frameBytes_eq]
  refine ⟨fun heven => ?_, fun ra => ⟨fun heven => ?_, fun hodd => jumpTo_fault _ hodd⟩⟩
  · refine runs_imp (runs_popList rfl (nodup_tableA m) heven) ?_
    rintro t ⟨hpop, hkept, hmem, hnext, hdraws⟩
    exact ⟨⟨hpop, hkept, hmem, hdraws⟩, hnext⟩
  · refine runs_imp (runs_jumpTo rfl (popList_status ..) heven) ?_
    rintro t ⟨hend, hkept, hjump⟩
    obtain ⟨hkept, hmem⟩ := hend.kept_of_popList hkept
    rw [hend.readReg ra]
    exact ⟨⟨hend.popped (nodup_tableA m), hkept, hmem, hend.draws.trans (popList_draws ..)⟩, hjump⟩

/-! ## The round trip (R261) -/

/-- The round trip of a push and a pop of one list that each begin at x[3]. -/
theorem restored_of_ends {s t t' u : State} {xs : List Slot} (hpush : Ends (pushList xs s) t)
    (hpop : Ends (popList xs (t'.readReg 3) t') u) (hn : xs.Nodup) (hl : xs.length ≤ 18)
    (hsp : t'.readReg 3 = t.readReg 3) (hmem : MemKept t t') :
    (∀ x ∈ xs, slotValue u x = slotValue s x) ∧ u.readReg 3 = s.readReg 3 :=
  restored_of_pushed_popped (pushed_of_mem hpush.mem hl) hmem (hpop.popped hn) (hsp.trans hpush.readReg_sp_of_pushList)

/-- DISPOSE writes x[30] only where mask bit 10 lists it. -/
theorem ep_notMem_regWrites_dispose {m : BitVec 18} (h : m.getLsbD 10 = false) (f : BitVec 5) (jmp : Option Reg)
    (len : Len) : 30 ∉ regWrites (.dispose m f jmp len) := by
  simp only [regWrites, List.mem_cons, List.mem_filterMap, List.mem_range, not_or, not_exists, not_and]
  refine ⟨by decide, fun k hk => ?_⟩
  split
  · next hbit =>
    intro heq
    have hval : (20 + k) % 32 = 30 := congrArg Fin.val (Option.some.inj heq)
    obtain rfl : k = 10 := by omega
    exact Bool.false_ne_true (h.symm.trans hbit)
  · exact fun heq => nomatch heq

/-- Settles O60: the three pushes change no bit of PSW and leave their lists where the pops read them. -/
theorem popUndoesPush : Obligations.PopUndoesPush := by
  unfold Obligations.PopUndoesPush
  intro s t t' u m f e l l'
  refine ⟨?pair, fun hsp hmem hpair => ⟨?mh, ?ml, ?frame⟩⟩
  case pair =>
    have hpsw {v : State} (hend : Ends v t) (hv : v.sregs = s.sregs) : contextPair t = contextPair s :=
      contextPair_congr (congrArg (Vector.get · SysReg.psw) (hend.sregs.trans hv))
    rintro (h | h | h) <;> exact hpsw (.of_advanceLen h) (by simp)
  case mh =>
    intro hpush hpop
    have hpopped := Ends.of_advanceLen hpop
    rw [hpair] at hpopped
    exact restored_of_ends (.of_advanceLen hpush) hpopped (nodup_tableB m (contextPair_cases s)) (length_tableB_le ..) hsp
      hmem
  case ml =>
    intro hpush hpop
    have hpopped := Ends.of_advanceLen hpop
    rw [hpair] at hpopped
    exact restored_of_ends (.of_advanceLen hpush) hpopped (nodup_tableC m (contextPair_cases s)) (length_tableC_le ..) hsp
      hmem
  case frame =>
    intro hpush hpop
    have hpushed := Ends.of_advanceLen hpush
    have hpopped := Ends.of_advanceLen hpop
    have hcounter : t'.readReg 3 + frameBytes f = s.readReg 3 - BitVec.ofNat 32 (4 * (tableA m).length) := by
      rw [hsp, hpushed.readReg_sp_of_prepare, frameBytes_eq, BitVec.sub_add_cancel]
    refine ⟨restored_of_pushed_popped hpushed.pushed_of_prepare hmem (hpopped.popped (nodup_tableA m)) hcounter,
      fun hbit => ?_⟩
    obtain ⟨v, hend, hframe⟩ := exec_completes hpop
    exact (hend.readReg 30).trans (hframe.regs 30 (ep_notMem_regWrites_dispose hbit f none l'))

end Sys2Proof.Proofs
end

section
/-! Traps, returns, system registers and the host-call gate (45_system.md R280 to R288). -/

namespace Sys2Proof.Proofs

open Sys2Proof.Machine Sys2Proof.Claims

/-! ## Instructions that store nothing and keep the status -/

/-- Where such an instruction ends, it left all outside its write-sets, the fetcher's program and memory as they were. -/
theorem exec_kept {i : Instr} {s t : State} (hstores : MayStore i = false) (h : exec i s = .next t)
    (hstatus : t.status = s.status) :
    Kept s t (regWrites i) (sysWrites s i) (pswBits i) ∧ MemKept s t := by
  obtain ⟨hmem, hprogram⟩ := exec_notStored hstores h
  exact ⟨⟨exec_keptByStore h hstatus, hprogram⟩, fun a => by rw [hmem]⟩

/-- Settles O50, by the frame of every instruction: BRKPT's write-sets are empty. -/
theorem breakpointChangesNothing : Obligations.BreakpointChangesNothing := by
  unfold Obligations.BreakpointChangesNothing
  intro s
  have hexec : exec .brkpt s = .next (s.setOutcome .brk) := rfl
  obtain ⟨hkept, hmem⟩ := exec_kept rfl hexec rfl
  exact ⟨_, hexec, rfl, rfl, hkept, hmem, rfl⟩

/-! ## Traps with the gate off (R280) -/

/-- The low halfword of the cause a trap writes (60_exceptions.md R404). -/
theorem extractLsb'_trapCause_low (ecr : Word) (code : BitVec 5) :
    (trapCause ecr code).extractLsb' 0 16 = 0x40#16 + code.setWidth 16 := extractLsb'_append_low ..

/-- Without the gate every code traps. -/
theorem trapOrCall_false (code : BitVec 5) (s : State) : trapOrCall false code s = raiseTrap code s := by
  rw [trapOrCall, Bool.not_false, Bool.or_true, if_pos rfl]

/-- Settles O46: without the gate code 31 is one of the codes that take the high vector. -/
theorem withoutTheGateCode31IsATrap : Obligations.WithoutTheGateCode31IsATrap := by
  unfold Obligations.WithoutTheGateCode31IsATrap
  intro s
  have htrap := trapOrCall_false 31 s
  refine ⟨htrap, _, htrap.trans (raiseTrap_eq 31 s), rfl, ?_⟩
  obtain ⟨-, -, hecr⟩ := readSys_trapEntry 31 s
  rw [readSys_setOutcome, readSys_setPc, hecr, extractLsb'_trapCause_low]
  decide

/-! ## Returns through a saved pair (R285) -/

/-- What an instruction leaves that returns through `pair`: `pc` and the whole PSW are the pair's. -/
theorem runs_returnThrough {i : Instr} {s : State} {pair : SysReg × SysReg} (hexec : exec i s = returnThrough pair s)
    (hstores : MayStore i = false) (heven : EvenAddr (s.readSys pair.1)) :
    Runs i s fun t => EndsJump t (s.readSys pair.1) ∧ t.psw = s.readSys pair.2 ∧
      Kept s t (regWrites i) (sysWrites s i) (pswBits i) ∧ MemKept s t ∧ t.draws = s.draws := by
  have hcomplete := hexec.trans (jumpTo_of_even _ (s.writePsw (s.readSys pair.2)) heven)
  obtain ⟨hkept, hmem⟩ := exec_kept hstores hcomplete rfl
  exact ⟨_, hcomplete, ⟨rfl, rfl⟩, psw_writePsw .., hkept, hmem, rfl⟩

/-- RETI chooses its pair as the list transfers do (44_transfer.md R253). -/
theorem retiPair_eq_contextPair (s : State) : retiPair s = contextPair s := by
  unfold retiPair contextPair
  cases s.flag .ep <;> simp

theorem exec_reti {s : State} {pair : SysReg × SysReg} (hpair : contextPair s = pair) (len : Len) :
    exec (.reti len) s = returnThrough pair s :=
  congrArg (returnThrough · s) ((retiPair_eq_contextPair s).trans hpair)

/-- Settles O47: each choice of the pair is a return through it, or a fault where its saved `pc` is odd. -/
theorem retiReturnsThroughThePairEpAndNpChoose : Obligations.RetiReturnsThroughThePairEpAndNpChoose := by
  unfold Obligations.RetiReturnsThroughThePairEpAndNpChoose
  intro s len fe
  obtain ⟨hfe, hei⟩ := contextPairFollowsNpAndEp s
  rw [and_comm] at hfe hei
  refine ⟨fun h heven => ?_, fun h hodd => ?_, fun h heven => ?_, fun h hodd => ?_⟩
  · exact runs_returnThrough (exec_reti (hfe h) len) rfl heven
  · exact (exec_reti (hfe h) len).trans (jumpTo_fault _ hodd)
  · exact runs_returnThrough (exec_reti (hei h) len) rfl heven
  · exact (exec_reti (hei h) len).trans (jumpTo_fault _ hodd)

/-! ## System registers (R286, R287) -/

theorem pswBits_ldsr (ra : Reg) (n : SysReg) (len : Len) :
    pswBits (.ldsr ra n len) = if n = SysReg.psw then List.range 32 else [] := by
  simp only [pswBits, pswWrites]
  split <;> rfl

/-- What LDSR leaves: PSW is the entry 5. -/
theorem runs_ldsr {s : State} (ra : Reg) (n : SysReg) {len : Len} (heven : EvenAddr (s.pc + lenBytes len)) :
    Runs (.ldsr ra n len) s fun t => t.readSys n = s.readReg ra ∧ (n = SysReg.psw → t.psw = s.readReg ra) ∧
      Kept s t [] [n] (pswBits (.ldsr ra n len)) ∧ MemKept s t ∧ EndsNext s t (lenBytes len) ∧ t.draws = s.draws := by
  have hcomplete := advance_of_even (lenBytes len) (s.writeSys n (s.readReg ra)) heven
  obtain ⟨hkept, hmem⟩ := exec_kept (i := .ldsr ra n len) rfl hcomplete rfl
  have hentry : (s.writeSys n (s.readReg ra)).readSys n = s.readReg ra := by rw [readSys_writeSys, if_pos rfl]
  refine ⟨_, hcomplete, hentry, ?_, hkept, hmem, ⟨rfl, rfl⟩, rfl⟩
  rintro rfl
  exact hentry

/-- Settles O49: LDSR writes one entry and STSR one register. -/
theorem systemRegistersAreReadAndWrittenWhole : Obligations.SystemRegistersAreReadAndWrittenWhole := by
  unfold Obligations.SystemRegistersAreReadAndWrittenWhole
  intro s r n len heven
  rw [← pswBits_ldsr r n len]
  exact ⟨runs_ldsr r n heven, runs_writeReg rfl rfl heven⟩

/-! ## The host-call gate (R281 to R284) -/

/-- TRAP 31 exits on the exit selector. -/
theorem exec_trap_eq_exitRun {s : State} (hexit : s.readReg 6 = s.params.selectors.exit) (len : Len) :
    exec (.trap 31 len) s = exitRun (Config.exitDecode (s.readReg 7)) s := by
  rw [exec_trap_eq_hostCall rfl, hostCall, if_pos hexit]

/-- TRAP 31 serves a function's selector. -/
theorem exec_trap_eq_hostServe {s : State} {f : HostFn} (hexit : s.readReg 6 ≠ s.params.selectors.exit)
    (hf : hostFn s.params.selectors (s.readReg 6) = some f) (len : Len) :
    exec (.trap 31 len) s = hostServe f s := by
  rw [exec_trap_eq_hostCall rfl, hostCall, if_neg hexit, hf]

/-- TRAP 31 aborts on any other selector. -/
theorem exec_trap_eq_abortRun {s : State} (hexit : s.readReg 6 ≠ s.params.selectors.exit)
    (hf : hostFn s.params.selectors (s.readReg 6) = none) (len : Len) :
    exec (.trap 31 len) s = abortRun s := by
  rw [exec_trap_eq_hostCall rfl, hostCall, if_neg hexit, hf]

/-- The selectors are those that name a function, and exit's. -/
theorem isSelector_iff (sel : Selectors) (w : Word) :
    IsSelector sel w ↔ (hostFn sel w).isSome = true ∨ w = sel.exit := by
  simp [IsSelector, hostFn, apply_ite Option.isSome, or_assoc]

/-- Settles O51: the gate ends the run on the exit selector, writing the status alone. -/
theorem hostExitEndsTheRun : Obligations.HostExitEndsTheRun := by
  unfold Obligations.HostExitEndsTheRun
  refine ⟨if_pos rfl, fun s len hexit => ?_⟩
  exact ⟨_, exec_trap_eq_exitRun hexit len, rfl, rfl⟩

/-- Settles O52: a selector that is none of the listed ones names no function and is not the exit one. -/
theorem unknownSelectorAborts : Obligations.UnknownSelectorAborts := by
  unfold Obligations.UnknownSelectorAborts
  intro s len hunknown
  rw [isSelector_iff, not_or, Option.not_isSome_iff_eq_none] at hunknown
  obtain ⟨hf, hexit⟩ := hunknown
  exact ⟨_, exec_trap_eq_abortRun hexit hf len, rfl, rfl⟩

/-- What a served call leaves: the host's answers, and memory outside the bytes its function may write as it was. -/
theorem runs_hostServe {s : State} {f : HostFn} {len : Len} (hexec : exec (.trap 31 len) s = hostServe f s)
    (heven : EvenAddr (s.pc + 4)) :
    Runs (.trap 31 len) s fun t => EndsNext s t 4 ∧ KeptByStore s t [10, 11] [] [] ∧
      ∀ b, hostMayWrite f s b = false → t.mem.readByte b = s.mem.readByte b := by
  refine runs_imp (runs_advanceLen (len := 4) hexec rfl rfl heven) ?_
  rintro t ⟨hend, hkept, hnext⟩
  exact ⟨hnext, hkept, fun b hb => hend.mem ▸ readByte_hostWritten f s b hb⟩

theorem withinBytes_eq_false_iff (a base n : Word) : withinBytes a base n = false ↔ n.toNat ≤ (a - base).toNat :=
  decide_eq_false_iff_not.trans Nat.not_lt

/-- `time` writes no byte for a null pointer, else a word (R282). -/
theorem hostMayWrite_time_eq_false {s : State} {b : Word}
    (h : (if s.readReg 7 = 0 then 0 else 4) ≤ (b - s.readReg 7).toNat) : hostMayWrite .time s b = false := by
  rw [hostMayWrite, Bool.and_eq_false_iff, bne_eq_false_iff_eq, withinBytes_eq_false_iff]
  split at h
  · next hnull => exact .inl hnull
  · exact .inr h

/-- Settles O53: the bytes a function may write bound what a served call changes in memory. -/
theorem servedHostCallWritesOnlyItsAnswers : Obligations.ServedHostCallWritesOnlyItsAnswers := by
  unfold Obligations.ServedHostCallWritesOnlyItsAnswers
  intro s len hsel hexit heven
  obtain ⟨f, hf⟩ := Option.isSome_iff_exists.1 (((isSelector_iff ..).1 hsel).resolve_right hexit)
  refine runs_imp (runs_hostServe (exec_trap_eq_hostServe hexit hf len) heven) ?_
  rintro t ⟨hnext, hkept, hmem⟩
  refine ⟨hnext, hkept, fun g hg => ?_⟩
  obtain rfl : f = g := Option.some.inj (hf.symm.trans hg)
  refine ⟨fun hnone b => hmem b ?_, ?read, ?time⟩
  · simp only [List.mem_cons, List.not_mem_nil, or_false] at hnone
    rcases hnone with rfl | rfl | rfl | rfl | rfl | rfl | rfl | rfl | rfl <;> rfl
  case read =>
    rintro rfl b hb
    exact hmem b ((withinBytes_eq_false_iff ..).2 hb)
  case time =>
    rintro rfl b hb
    exact hmem b (hostMayWrite_time_eq_false hb)

end Sys2Proof.Proofs
end

section
/-! Branches, jumps and calls (46_branch.md R300 to R304): none stores, so each leaves its target and its link, and keeps all
outside its write-sets. -/

namespace Sys2Proof.Proofs

open Sys2Proof.Machine Sys2Proof.Claims

/-! ## BCOND (R300) -/

/-- What an instruction leaves that writes nothing and ends with `Next(d)`. -/
theorem runs_advance {i : Instr} {s : State} {d : Word} (hexec : exec i s = advance d s) (hstores : MayStore i = false)
    (heven : EvenAddr (s.pc + d)) :
    Runs i s fun t => EndsNext s t d ∧ Kept s t (regWrites i) (sysWrites s i) (pswBits i) ∧ MemKept s t ∧
      t.draws = s.draws := by
  have hcomplete := hexec.trans (advance_of_even d s heven)
  obtain ⟨hkept, hmem⟩ := exec_kept hstores hcomplete rfl
  exact ⟨_, hcomplete, ⟨rfl, rfl⟩, hkept, hmem, rfl⟩

theorem exec_bcond_taken {s : State} {c : BitVec 4} (hc : condHolds c s.psw = true) (d : BitVec 9) (len : Len) :
    exec (.bcond c d len) s = advance (d.signExtend 32) s := if_pos hc

theorem exec_bcond_notTaken {s : State} {c : BitVec 4} (hc : condHolds c s.psw = false) (d : BitVec 9) (len : Len) :
    exec (.bcond c d len) s = advance 2 s := if_neg (Bool.not_eq_true _ ▸ hc)

/-- Past BCOND's 2 bytes an even address stays even. -/
theorem evenAddr_add_two {a : Word} (h : EvenAddr a) : EvenAddr (a + 2) := by
  rw [EvenAddr, BitVec.getLsbD_add (by decide), h, BitVec.carry_zero]
  rfl

/-- Settles O40: BCOND is `Next` of its displacement or of 2, by the condition. -/
theorem conditionalBranchTakesItsDisplacement : Obligations.ConditionalBranchTakesItsDisplacement := by
  unfold Obligations.ConditionalBranchTakesItsDisplacement
  intro s c d len
  refine ⟨fun hc heven => ?_, fun hc hodd => ?_, fun hc heven => ?_⟩
  · exact runs_advance (exec_bcond_taken hc d len) rfl heven
  · exact (exec_bcond_taken hc d len).trans (advance_fault _ s hodd)
  · exact runs_advance (exec_bcond_notTaken hc d len) rfl (evenAddr_add_two heven)

/-! ## JARL and JMP (R301, R302) -/

/-- What an instruction leaves that stores nothing, writes `u` and ends with a `Jump`. -/
theorem runs_jumpTo_kept {i : Instr} {s u : State} {a : Word} (hexec : exec i s = jumpTo a u) (hstores : MayStore i = false)
    (hstatus : u.status = s.status) (heven : EvenAddr a) :
    Runs i s fun t => EndsJump t a ∧ Ends u t ∧ Kept s t (regWrites i) (sysWrites s i) (pswBits i) ∧ MemKept s t := by
  obtain ⟨t, hcomplete, hend, hkept, hjump⟩ := runs_jumpTo hexec hstatus heven
  exact ⟨t, hcomplete, hjump, hend, exec_kept hstores hcomplete hkept.status⟩

/-- What JARL leaves: the link, where there is one, is the address past it. -/
theorem runs_jarl {s : State} (link : Option Reg) {d : Imm} (len : Len) (heven : EvenAddr (s.pc + immVal d)) :
    Runs (.jarl link d len) s fun t =>
      EndsJump t (s.pc + immVal d) ∧ (∀ rd, link = some rd → t.readReg rd = s.pc + lenBytes len) ∧
      Kept s t link.toList [] [] ∧ MemKept s t ∧ t.draws = s.draws := by
  refine runs_imp (runs_jumpTo_kept (i := .jarl link d len) rfl rfl (State.writeRegOpt_status ..) heven) ?_
  rintro t ⟨hjump, hend, hkept, hmem⟩
  refine ⟨hjump, fun rd hrd => ?_, hkept, hmem, hend.draws.trans (State.writeRegOpt_draws ..)⟩
  rw [hend.readReg, readReg_writeRegOpt, if_pos hrd]

/-- What JMP leaves. -/
theorem runs_jmp {s : State} (ra : Reg) (len : Len) (heven : EvenAddr (s.readReg ra)) :
    Runs (.jmp ra len) s fun t =>
      EndsJump t (s.readReg ra) ∧ Kept s t [] [] [] ∧ MemKept s t ∧ t.draws = s.draws := by
  refine runs_imp (runs_jumpTo_kept (i := .jmp ra len) rfl rfl rfl heven) ?_
  rintro t ⟨hjump, hend, hkept, hmem⟩
  exact ⟨hjump, hkept, hmem, hend.draws⟩

/-- Settles O43: JARL jumps with its link written, JMP with nothing written. -/
theorem jumpsSetPcAndLinkTheReturnAddress : Obligations.JumpsSetPcAndLinkTheReturnAddress := by
  unfold Obligations.JumpsSetPcAndLinkTheReturnAddress
  exact ⟨fun s link d len heven => runs_jarl link len heven,
    fun s ra len => ⟨runs_jmp ra len, fun hodd => jumpTo_fault s hodd⟩⟩

/-! ## CALLT and CTRET (R303, R304) -/

/-- The target is the halfword of the masked table entry, zero-extended, above the table's base. -/
theorem calltTarget_eq (n : BitVec 6) (s : State) :
    let ctbp := s.readSys SysReg.ctbp
    let adr := (ctbp + n.setWidth 32 * 2) &&& 0xFFFFFFFE
    calltTarget n s = ctbp + (s.mem.readByte (adr + 1) ++ s.mem.readByte adr).setWidth 32 := by
  have hdouble : n.setWidth 32 <<< 1 = n.setWidth 32 * 2 := BitVec.shiftLeft_eq_mul_twoPow ..
  simp only [calltTarget, calltAddr, hdouble, alignHalf, State.memRead, read_half]

/-- What CALLT leaves: the fast-call pair holds the address past it and PSW. -/
theorem runs_callt {s : State} (n : BitVec 6) (len : Len) (heven : EvenAddr (calltTarget n s)) :
    Runs (.callt n len) s fun t =>
      EndsJump t (calltTarget n s) ∧ t.readSys SysReg.ctpc = s.pc + lenBytes len ∧ t.readSys SysReg.ctpsw = s.psw ∧
      Kept s t [] [SysReg.ctpc, SysReg.ctpsw] [] ∧ MemKept s t ∧ t.draws = s.draws := by
  refine runs_imp (runs_jumpTo_kept (i := .callt n len) rfl rfl rfl heven) ?_
  rintro t ⟨hjump, hend, hkept, hmem⟩
  refine ⟨hjump, ?ctpc, ?ctpsw, hkept, hmem, hend.draws⟩
  case ctpc => rw [hend.readSys, readSys_writeSys, if_neg (by decide), readSys_writeSys, if_pos rfl]
  case ctpsw => rw [hend.readSys, readSys_writeSys, if_pos rfl]

theorem exec_ctret (s : State) (len : Len) : exec (.ctret len) s = returnThrough (SysReg.ctpc, SysReg.ctpsw) s := rfl

/-- Settles O44: CALLT jumps to its table's target, and CTRET returns through the pair CALLT saved. -/
theorem fastCallSavesAndReturnRestoresItsPair : Obligations.FastCallSavesAndReturnRestoresItsPair := by
  unfold Obligations.FastCallSavesAndReturnRestoresItsPair
  refine ⟨fun s n len => ?callt, fun s len => ⟨runs_returnThrough (exec_ctret s len) rfl, fun hodd => jumpTo_fault _ hodd⟩⟩
  case callt =>
    intro ctbp adr target
    have htarget : calltTarget n s = target := calltTarget_eq n s
    rw [← htarget]
    exact ⟨runs_callt n len, fun hodd => jumpTo_fault _ hodd⟩

end Sys2Proof.Proofs
end

section
/-! Loads, stores and bit operations (47_loadstore_bit.md R320 to R333): the units read by their bytes, and what a
command leaves that ends after one store. -/

namespace Sys2Proof.Proofs

open Sys2Proof.Machine Sys2Proof.Claims

/-! ## Loads (R321 to R325) -/

theorem toNat_append_byte {n : Nat} (hi : BitVec n) (lo : Byte) : (hi ++ lo).toNat = lo.toNat + 2 ^ 8 * hi.toNat := by
  rw [BitVec.toNat_append, ← Nat.shiftLeft_add_eq_or_of_lt lo.isLt, Nat.shiftLeft_eq, Nat.add_comm, Nat.mul_comm]

/-- A word read: the higher the address, the higher the byte (20_memory.md R63). -/
theorem read_word (m : Memory) (a : Word) :
    m.read a 4 = m.readByte (a + 3) ++ m.readByte (a + 2) ++ m.readByte (a + 1) ++ m.readByte a := by
  have h2 : a + 1 + 1 = a + 2 := by bv_omega
  have h3 : a + 2 + 1 = a + 3 := by bv_omega
  apply BitVec.eq_of_toNat_eq
  rw [toNat_read_succ m a (by decide), toNat_read_succ m (a + 1) (by decide), h2, toNat_read_succ m (a + 2) (by decide), h3,
    read_byte, BitVec.toNat_setWidth_of_le (by decide)]
  simp only [toNat_append_byte]

/-- The extensions of a unit that was read zero-extended are those of the unit. -/
theorem sextField_of_eq_setWidth {n : Nat} {y : Word} {x : BitVec n} (h : y = x.setWidth 32) (hn : n ≤ 32) :
    sextField n y = x.signExtend 32 := by
  rw [sextField, h, BitVec.setWidth_setWidth_of_le x hn, BitVec.setWidth_eq]

theorem zextField_of_eq_setWidth {n : Nat} {y : Word} {x : BitVec n} (h : y = x.setWidth 32) (hn : n ≤ 32) :
    zextField n y = x.setWidth 32 := by
  rw [zextField, h, BitVec.setWidth_setWidth_of_le x hn, BitVec.setWidth_eq]

/-- Settles O36: each load writes one register, with the extension of the unit read. -/
theorem loadsExtendTheAlignedUnit : Obligations.LoadsExtendTheAlignedUnit := by
  unfold Obligations.LoadsExtendTheAlignedUnit
  intro s rd ra d len heven ea h w m leaves
  exact ⟨runs_writeReg rfl (sextField_of_eq_setWidth (read_byte s.mem ea) (by decide)) heven,
    runs_writeReg rfl (zextField_of_eq_setWidth (read_byte s.mem ea) (by decide)) heven,
    runs_writeReg rfl (sextField_of_eq_setWidth (read_half s.mem h) (by decide)) heven,
    runs_writeReg rfl (zextField_of_eq_setWidth (read_half s.mem h) (by decide)) heven,
    runs_writeReg rfl (read_word s.mem w) heven⟩

/-! ## Stores (R326 to R328) -/

/-- What a command leaves in memory that ends after a store. -/
theorem Ends.stored {u t : State} {a v : Word} {n : Nat} (h : Ends (u.memWrite a n v) t) (hn : n < 2 ^ 32) :
    (∀ k < n, t.mem.readByte (a + BitVec.ofNat 32 k) = v.extractLsb' (8 * k) 8) ∧ MemKeptOutside u t a n := by
  have hmem : t.mem = u.mem.write a n v := h.mem
  simp only [MemKeptOutside, hmem]
  exact ⟨fun k hk => readByte_write_inside u.mem a v hn hk, fun b hb => readByte_write_outside u.mem a b n v hn hb⟩

/-- What an instruction leaves that makes one store and ends with `Next(cmd.len)`. -/
theorem runs_store {i : Instr} {s : State} {a v : Word} {n : Nat} {len : Len}
    (hexec : exec i s = advanceLen len (s.memWrite a n v)) (hn : n < 2 ^ 32) (heven : EvenAddr (s.pc + lenBytes len)) :
    Runs i s fun t => (∀ k < n, t.mem.readByte (a + BitVec.ofNat 32 k) = v.extractLsb' (8 * k) 8) ∧
      MemKeptOutside s t a n ∧ KeptByStore s t (regWrites i) (sysWrites s i) (pswBits i) ∧
      EndsNext s t (lenBytes len) ∧ t.draws = s.draws := by
  refine runs_imp (runs_advanceLen hexec rfl rfl heven) ?_
  rintro t ⟨hend, hkept, hnext⟩
  obtain ⟨hbytes, houtside⟩ := hend.stored hn
  exact ⟨hbytes, houtside, hkept, hnext, hend.draws⟩

/-- Settles O37: each store writes its bytes at the masked address. -/
theorem storesWriteTheAlignedUnitAlone : Obligations.StoresWriteTheAlignedUnitAlone := by
  unfold Obligations.StoresWriteTheAlignedUnitAlone
  intro s ra rb d len heven ea v stores
  exact ⟨runs_store rfl (by decide) heven, runs_store rfl (by decide) heven, runs_store rfl (by decide) heven⟩

/-! ## Bit operations (R329 to R333) -/

/-- The state with Z set to the complement of a bit of the byte at `a`. -/
def bitTested (a : Word) (bit : Fin 8) (s : State) : State := s.setFlag .z (!(s.mem.readByte a).getLsbD bit.val)

/-- The state with that bit then replaced by `new` in memory. -/
def bitStored (a : Word) (bit : Fin 8) (new : Bool) (s : State) : State :=
  (bitTested a bit s).memWrite a 1 (setBit ((s.mem.readByte a).setWidth 32) bit.val new)

/-- Inverting a bit replaces it by its complement. -/
theorem xor_shiftLeft_one_eq_setBit (w : Word) {i : Nat} (hi : i < 32) :
    w ^^^ (1#32 <<< i) = setBit w i (!w.getLsbD i) := by
  apply BitVec.eq_of_getLsbD_eq
  intro k hk
  rw [getLsbD_setBit _ _ _ _ hi, BitVec.getLsbD_xor, ← BitVec.twoPow_eq, BitVec.getLsbD_twoPow]
  by_cases h : k = i
  · simp [h, hi]
  · simp [h, Ne.symm h]

/-- A bit of a byte read, by the byte. -/
theorem getLsbD_memRead_byte (s : State) (a : Word) (bit : Fin 8) :
    (s.memRead a 1).getLsbD bit.val = (s.mem.readByte a).getLsbD bit.val := by
  rw [State.memRead, read_byte, BitVec.getLsbD_setWidth, decide_eq_true (by omega), Bool.true_and]

/-- A bit operation that writes back tests the bit and replaces it. -/
theorem bitOp_eq_bitStored {kind : BitKind} {bit : Fin 8} {new : Bool} {ra : Reg} {d : Imm} {s : State}
    (hresult : bitResult kind bit (s.memRead (byteAddr ra d s) 1) =
      some (setBit (s.memRead (byteAddr ra d s) 1) bit.val new)) (len : Len) :
    bitOp kind ra bit d len s = advanceLen len (bitStored (byteAddr ra d s) bit new s) := by
  rw [bitOp_eq, hresult, getLsbD_memRead_byte, bitStored, ← read_byte]
  rfl

/-- TST1 tests the bit alone. -/
theorem exec_tst1 (ra : Reg) (bit : Fin 8) (d : Imm) (len : Len) (s : State) :
    exec (.tst1 ra bit d len) s = advanceLen len (bitTested (byteAddr ra d s) bit s) := by
  rw [bitTested, ← getLsbD_memRead_byte]
  rfl

/-- The byte a bit operation stores. -/
theorem getLsbD_low_setBit (v : Byte) (bit : Fin 8) (new : Bool) (k : Nat) :
    ((setBit (v.setWidth 32) bit.val new).extractLsb' 0 8).getLsbD k = if k = bit.val then new else v.getLsbD k := by
  rw [BitVec.getLsbD_extractLsb', Nat.zero_add, getLsbD_setBit _ _ _ _ (by omega), BitVec.getLsbD_setWidth]
  by_cases hk : k < 8
  · have hk32 : k < 32 := by omega
    simp [hk, hk32]
  · have hne : k ≠ bit.val := by omega
    simp [hk, hne, BitVec.getLsbD_of_ge v k (by omega)]

/-- Z after a bit operation. -/
theorem Ends.testedBit {s u t : State} {a : Word} {bit : Fin 8} (h : Ends u t) (hpsw : u.psw = (bitTested a bit s).psw) :
    t.psw.getLsbD 0 = !(s.mem.readByte a).getLsbD bit.val := by
  rw [h.psw, hpsw, bitTested, getLsbD_psw_setFlag]
  rfl

/-- What an instruction leaves that tests a bit and replaces it. -/
theorem runs_bitStored {i : Instr} {s : State} {a : Word} {bit : Fin 8} {new : Bool} {len : Len}
    (hexec : exec i s = advanceLen len (bitStored a bit new s)) (heven : EvenAddr (s.pc + lenBytes len)) :
    Runs i s fun t =>
      (t.psw.getLsbD 0 = (!(s.mem.readByte a).getLsbD bit.val) ∧
        KeptByStore s t (regWrites i) (sysWrites s i) (pswBits i) ∧ EndsNext s t (lenBytes len) ∧ t.draws = s.draws) ∧
      (∀ k, (t.mem.readByte a).getLsbD k = if k = bit.val then new else (s.mem.readByte a).getLsbD k) ∧
      MemKeptOutside s t a 1 := by
  refine runs_imp (runs_advanceLen hexec rfl rfl heven) ?_
  rintro t ⟨hend, hkept, hnext⟩
  obtain ⟨hbytes, houtside⟩ := hend.stored (by decide)
  have hbyte := hbytes 0 (by decide)
  rw [BitVec.add_zero] at hbyte
  exact ⟨⟨hend.testedBit rfl, hkept, hnext, hend.draws⟩, fun k => hbyte ▸ getLsbD_low_setBit .., houtside⟩

/-- Settles O39: SET1, CLR1 and NOT1 replace the tested bit by 1, 0 and its complement, and TST1 stores nothing. -/
theorem bitOperationsTestThenChangeOneBit : Obligations.BitOperationsTestThenChangeOneBit := by
  unfold Obligations.BitOperationsTestThenChangeOneBit
  intro s ra bit d len heven ea v tests writes
  have hnot : bitResult .not bit (s.memRead ea 1) = some (setBit (s.memRead ea 1) bit.val (!v.getLsbD bit.val)) := by
    rw [bitResult, xor_shiftLeft_one_eq_setBit _ (by omega), getLsbD_memRead_byte]
  refine ⟨runs_bitStored (bitOp_eq_bitStored (kind := .set) rfl len) heven,
    runs_bitStored (bitOp_eq_bitStored (kind := .clr) rfl len) heven,
    runs_bitStored (bitOp_eq_bitStored (kind := .not) hnot len) heven, ?tst1⟩
  case tst1 =>
    refine runs_imp (runs_plain (exec_tst1 ra bit d len s) rfl heven) ?_
    rintro t ⟨hend, ⟨hkept, hmem, hnext⟩, hdraws⟩
    exact ⟨⟨hend.testedBit rfl, hkept.toKeptByStore, hnext, hdraws⟩, hmem, hkept.program⟩

end Sys2Proof.Proofs
end

section
/-! Exceptions and reset (60_exceptions.md R400 to R411; 70_reset_and_hazards.md R440, R441): what trap entry leaves and RETI
undoes, which instructions write the NMI context and the cause, and which can fault. -/

namespace Sys2Proof.Proofs

open Sys2Proof.Machine Sys2Proof.Claims

/-! ## The reset state (70_reset_and_hazards.md R440, R441) -/

theorem reset_psw : State.reset.psw = BitVec.twoPow 32 5 := rfl

/-- Settles O11: PSW after reset is the power of two of its bit ID. -/
theorem resetStateIsAsSpecified : Obligations.ResetStateIsAsSpecified := by
  unfold Obligations.ResetStateIsAsSpecified
  refine ⟨rfl, reset_psw, rfl, fun k => ?_, rfl⟩
  rw [reset_psw, BitVec.getLsbD_twoPow]
  simp [eq_comm]

/-! ## Trap entry (60_exceptions.md R402 to R404) -/

/-- The cause code a trap writes, 0x40 to 0x5F (R404). -/
theorem toNat_trapCause_low (ecr : Word) (code : BitVec 5) :
    ((trapCause ecr code).extractLsb' 0 16).toNat = 0x40 + code.toNat := by
  rw [extractLsb'_trapCause_low]
  bv_omega

/-- A trap keeps the high halfword of ECR, FECC (R402, R409). -/
theorem extractLsb'_trapCause_high (ecr : Word) (code : BitVec 5) :
    (trapCause ecr code).extractLsb' 16 16 = ecr.extractLsb' 16 16 := by
  rw [trapCause, extractLsb'_append_high _ _ (by decide), BitVec.extractLsb'_eq_self]

section TrapEntered

variable {code : BitVec 5} {s t : State} (h : Ends (trapEntry code s) t)
include h

/-- A trap saves the address past it and PSW, and writes the cause (R402). -/
theorem Ends.context_of_trapEntry : t.readSys SysReg.eipc = s.pc + 4 ∧ t.readSys SysReg.eipsw = s.psw ∧
    t.readSys SysReg.ecr = trapCause (s.readSys SysReg.ecr) code := by
  simp only [h.readSys]
  exact readSys_trapEntry code s

/-- A trap sets EP and ID (R402). -/
theorem Ends.epId_of_trapEntry : t.psw.getLsbD 6 = true ∧ t.psw.getLsbD 5 = true := by
  simp [h.psw, getLsbD_psw_trapEntry]

end TrapEntered

/-- Settles O45: a trap is always taken, and TRAP takes it for every code but the gate's. -/
theorem trapEntrySavesContextAndVectors : Obligations.TrapEntrySavesContextAndVectors := by
  unfold Obligations.TrapEntrySavesContextAndVectors
  intro s code len enters
  have htaken := raiseTrap_eq code s
  have hraise : ∃ t, raiseTrap code s = .next t ∧ enters t := by
    have hend := Ends.of_jumpTo htaken
    obtain ⟨hpc, hpsw, hcause⟩ := hend.context_of_trapEntry
    obtain ⟨hep, hid⟩ := hend.epId_of_trapEntry
    have hkept := (Frame.trapEntry code s).toKeptByStore
    -- The jump changes `pc` and the outcome, which `KeptByStore` does not speak of.
    refine ⟨_, htaken, ⟨rfl, rfl⟩, hpc, hpsw, ?low, ?high, hep, hid, ⟨{ hkept with }, rfl⟩, fun _ => rfl, rfl⟩
    case low => rw [hcause, toNat_trapCause_low]
    case high => rw [hcause, extractLsb'_trapCause_high]
  refine ⟨hraise, fun hc => ?_⟩
  rw [Runs, exec_trap_eq_raiseTrap (by omega)]
  exact hraise

/-! ## RETI after a trap (60_exceptions.md R405, R407) -/

/-- A TRAP below 31 that completes ends from trap entry. -/
theorem ends_trapEntry {code : BitVec 5} {len : Len} {s t : State} (hc : code.toNat ≤ 30)
    (h : exec (.trap code len) s = .next t) : Ends (trapEntry code s) t := by
  rw [exec_trap_eq_raiseTrap (by omega)] at h
  exact .of_jumpTo h

/-- With EP set, RETI returns through EIPC and EIPSW (45_system.md R285). -/
theorem reti_next_of_ep {len : Len} {s t : State} (hep : s.psw.getLsbD 6 = true) (h : exec (.reti len) s = .next t) :
    t.pc = s.readSys SysReg.eipc ∧ t.psw = s.readSys SysReg.eipsw := by
  have hpair := (contextPairFollowsNpAndEp s).2 fun hfe => Bool.false_ne_true (hfe.2.symm.trans hep)
  rw [exec_reti hpair] at h
  obtain ⟨-, rfl⟩ := returnThrough_next h
  exact ⟨rfl, psw_writePsw ..⟩

/-- Settles O48: RETI reads back the pair that trap entry saved. -/
theorem retiUndoesTrapEntry : Obligations.RetiUndoesTrapEntry := by
  unfold Obligations.RetiUndoesTrapEntry
  intro s t h u code len len' hc htrap hep heipc heipsw hreti
  obtain ⟨hpc, hpsw, -⟩ := (ends_trapEntry hc htrap).context_of_trapEntry
  obtain ⟨hpc', hpsw'⟩ := reti_next_of_ep hep hreti
  exact ⟨hpc'.trans (heipc.trans hpc), hpsw'.trans (heipsw.trans hpsw)⟩

/-! ## The writers of the NMI context, NP and ECR (60_exceptions.md R404, R408, R409) -/

/-- The entries of the pair are not ECR. -/
theorem contextPair_ne_ecr (s : State) : (contextPair s).1 ≠ SysReg.ecr ∧ (contextPair s).2 ≠ SysReg.ecr := by
  obtain h | h := contextPair_cases s <;> rw [h] <;> decide

/-- FEPC and FEPSW are in the write-sets of LDSR, POPMH and POPML alone. -/
theorem fePair_notMem_sysWrites {i : Instr} (s : State) (hldsr : ∀ ra n l, i ≠ .ldsr ra n l)
    (hpopmh : ∀ m l, i ≠ .popmh m l) (hpopml : ∀ m l, i ≠ .popml m l) :
    SysReg.fepc ∉ sysWrites s i ∧ SysReg.fepsw ∉ sysWrites s i := by
  cases i with
  | ldsr ra n l => exact absurd rfl (hldsr ra n l)
  | popmh m l => exact absurd rfl (hpopmh m l)
  | popml m l => exact absurd rfl (hpopml m l)
  | trap c l =>
    simp only [sysWrites]
    split <;> decide
  | callt =>
    simp only [sysWrites]
    decide
  | _ => exact ⟨List.not_mem_nil, List.not_mem_nil⟩

/-- ECR is in the write-sets of LDSR to it and of the software traps alone. -/
theorem writer_of_ecr_mem {i : Instr} {s : State} (h : SysReg.ecr ∈ sysWrites s i) :
    (∃ ra l, i = .ldsr ra SysReg.ecr l) ∨ ∃ c l, i = .trap c l ∧ c.toNat ≤ 30 := by
  obtain ⟨hpc, hpsw⟩ := contextPair_ne_ecr s
  cases i with
  | ldsr ra n l =>
    obtain rfl := List.mem_singleton.1 h
    exact .inl ⟨ra, l, rfl⟩
  | trap c l =>
    refine .inr ⟨c, l, rfl, ?_⟩
    by_contra hc
    simp [sysWrites, hc] at h
  | popmh m l =>
    rw [sysWrites_popmh] at h
    split at h <;> split at h <;> simp [hpc.symm, hpsw.symm] at h
  | popml m l =>
    rw [sysWrites_popml] at h
    split at h <;> simp [hpc.symm, hpsw.symm] at h
  | callt =>
    simp only [sysWrites] at h
    exact absurd h (by decide)
  | _ => cases h

/-- NP is in no write-set of single PSW bits. -/
theorem np_notMem_pswWrites {i : Instr} {bits : List Nat} (hbits : pswWrites i = some bits) : 7 ∉ bits := by
  cases i with
  | ctret | reti => cases hbits
  | trap | ldsr | popml =>
    simp only [pswWrites] at hbits
    split at hbits <;> cases hbits <;> decide
  | _ =>
    cases hbits
    decide

/-- Settles O17: by the write-sets, ECR alone needing what a trap writes to it. -/
theorem nmiContextAndCauseHaveNamedWriters : Obligations.NmiContextAndCauseHaveNamedWriters := by
  unfold Obligations.NmiContextAndCauseHaveNamedWriters
  intro i s t hexec
  have hkept := systemRegistersNotNamedAreKept i s t hexec
  refine ⟨fun hldsr hpopmh hpopml => ?fe, fun hload => ?np, fun hldsr => ?ecr⟩
  case fe =>
    obtain ⟨hfepc, hfepsw⟩ := fePair_notMem_sysWrites s hldsr hpopmh hpopml
    exact ⟨hkept _ hfepc (by decide), hkept _ hfepsw (by decide)⟩
  case np =>
    obtain ⟨bits, hbits⟩ := Option.ne_none_iff_exists'.1 hload
    exact flagsOutsideTheWriteSetAreKept i s t bits hexec hbits 7 (np_notMem_pswWrites hbits)
  case ecr =>
    by_cases hecr : SysReg.ecr ∈ sysWrites s i
    · obtain ⟨ra, l, rfl⟩ | ⟨c, l, rfl, hc⟩ := writer_of_ecr_mem hecr
      · exact absurd rfl (hldsr ra l)
      · obtain ⟨-, -, hcause⟩ := (ends_trapEntry hc hexec).context_of_trapEntry
        rw [hcause, extractLsb'_trapCause_high, toNat_trapCause_low]
        exact ⟨rfl, fun htrap => absurd rfl (htrap c l), fun _ => by omega⟩
    · have hsame := hkept _ hecr (by decide)
      exact ⟨by rw [hsame], fun _ => hsame, fun hne => absurd hsame hne⟩

/-! ## Which instructions can fault (60_exceptions.md R400, R401, R411) -/

/-- The sum of even addresses is even. -/
theorem evenAddr_add {a b : Word} (ha : EvenAddr a) (hb : EvenAddr b) : EvenAddr (a + b) := by
  rw [EvenAddr, BitVec.getLsbD_add (by decide), ha, hb, BitVec.carry_zero]
  rfl

/-- A well-formed instruction's length leads from an even `pc` to an even address (30_encoding.md R95, R98). -/
theorem evenAddr_pc_add_len {i : Instr} {len : Len} {s : State} (hwf : i.wf = true) (hlen : lenOf i = some len)
    (heven : EvenAddr s.pc) : EvenAddr (s.pc + lenBytes len) := by
  obtain ⟨hlens, -⟩ := (meetsR95_iff i).1 ((wellFormedExactlyByTheListedConditions i).1 hwf)
  exact evenAddr_add heven (Len.even_of_wf (hlens len hlen))

/-- The instruction ends with `Next(cmd.len)`, `pc` not having been written. -/
def EndsPastItself (i : Instr) (s : State) : Prop :=
  ∃ len u, lenOf i = some len ∧ exec i s = advanceLen len u ∧ u.pc = s.pc

theorem EndsPastItself.completes {i : Instr} {s : State} (h : EndsPastItself i s) (hwf : i.wf = true)
    (heven : EvenAddr s.pc) : ∃ t, exec i s = .next t := by
  obtain ⟨len, u, hlen, hexec, hpc⟩ := h
  exact ⟨_, hexec.trans (advance_of_even _ u (hpc ▸ evenAddr_pc_add_len hwf hlen heven))⟩

theorem endsPastItself_of_divideInto {i : Instr} {sg : Signedness} {n : Nat} {a b : Word} {rd : Reg} {rem : Option Reg}
    {len : Len} {s : State} (hlen : lenOf i = some len) (hexec : exec i s = divideInto sg n a b rd rem len s) :
    EndsPastItself i s :=
  ⟨len, _, hlen, hexec.trans (divideInto_eq ..), divideState_pc ..⟩

/-- What does not set `pc` to a target of its own, and is neither TRAP nor BRKPT, ends with `Next(cmd.len)` (R400). -/
theorem endsPastItself {i : Instr} (s : State) (hflow : ControlFlow i = false) (htrap : ∀ c l, i ≠ .trap c l)
    (hbrk : i ≠ .brkpt) : EndsPastItself i s := by
  cases i with
  | bcond | jarl | jmp | callt | ctret | reti => cases hflow
  | trap c l => exact absurd rfl (htrap c l)
  | brkpt => exact absurd rfl hbrk
  | satadd | satsub => exact ⟨_, _, rfl, rfl, setSat_pc ..⟩
  | shl | shr | sar => exact ⟨_, _, rfl, rfl, countDraw_pc ..⟩
  | div | divu | divn | divun | divh | divhu => exact endsPastItself_of_divideInto rfl rfl
  | prepare => exact ⟨_, _, rfl, rfl, by simp⟩
  | pushmh | pushml => exact ⟨_, _, rfl, rfl, pushList_pc ..⟩
  | popmh | popml => exact ⟨_, _, rfl, rfl, popSlots_pc ..⟩
  | dispose m f jmp l =>
    cases jmp with
    | none => exact ⟨_, _, rfl, rfl, popSlots_pc ..⟩
    | some ra => cases hflow
  | _ => exact ⟨_, _, rfl, rfl, rfl⟩

/-- The gate always completes at an even `pc`: a served call ends 4 bytes on, and exit and abort move no `pc`. -/
theorem hostCall_completes {s : State} (heven : EvenAddr s.pc) : ∃ t, hostCall s = .next t := by
  obtain ⟨-, he⟩ | ⟨-, ⟨f, -, he⟩ | ⟨-, he⟩⟩ := hostCall_cases s <;> rw [he]
  · exact ⟨_, rfl⟩
  · exact ⟨_, advance_of_even 4 _ (evenAddr_add heven (by rfl))⟩
  · exact ⟨_, rfl⟩

/-- TRAP completes at an even `pc`, with every code. -/
theorem trap_completes (code : BitVec 5) (len : Len) {s : State} (heven : EvenAddr s.pc) :
    ∃ t, exec (.trap code len) s = .next t := by
  by_cases hc : code.toNat = 31
  · rw [exec_trap_eq_hostCall hc]
    exact hostCall_completes heven
  · exact ⟨_, (exec_trap_eq_raiseTrap hc len s).trans (raiseTrap_eq code s)⟩

/-- What sets no `pc` of its own completes when it is well-formed. -/
theorem completes_of_not_controlFlow {i : Instr} {s : State} (hwf : i.wf = true) (heven : EvenAddr s.pc)
    (hflow : ControlFlow i = false) : ∃ t, exec i s = .next t := by
  cases i with
  | trap c l => exact trap_completes c l heven
  | brkpt => exact ⟨_, rfl⟩
  | _ => exact (endsPastItself s hflow (fun _ _ => nofun) nofun).completes hwf heven

/-- What sets `pc` to a target of its own completes or faults on an odd target (10_state.md R24). -/
theorem completes_or_oddTarget_of_controlFlow {i : Instr} (s : State) (hflow : ControlFlow i = true) :
    exec i s = .fault .oddTarget ∨ ∃ t, exec i s = .next t := by
  cases i with
  | bcond c d len =>
    simp only [exec, execBcond]
    split <;> exact advance_cases _ s
  | jarl | jmp | callt | ctret | reti => exact jumpTo_cases _ _
  | dispose m f jmp len =>
    cases jmp with
    | some ra => exact jumpTo_cases _ _
    | none => cases hflow
  | _ => cases hflow

/-- Settles O19: a well-formed length leads past the instruction, and the control-flow instructions may have an odd target. -/
theorem onlyControlFlowCanFault : Obligations.OnlyControlFlowCanFault := by
  unfold Obligations.OnlyControlFlowCanFault
  intro i s hwf heven
  have hcompletes := completes_of_not_controlFlow (i := i) hwf heven
  refine ⟨hcompletes, ?_⟩
  cases hflow : ControlFlow i with
  | true => exact completes_or_oddTarget_of_controlFlow s hflow
  | false => exact .inr (hcompletes hflow)

end Sys2Proof.Proofs
end
